-- ==== Sys2Proof/Word.lean ====
section
/-! DEFINITION. The words of HUFF-CORE and the fixed parameters of 00_scope.md rule R9. -/

namespace Sys2Proof

/-- A host register or a command word: `REG_BITS = CMD_BITS = 32` (R9). -/
abbrev Word := BitVec 32

/-- A byte value, a byte of a stream, an opcode byte: `BYTE_BITS = 8` (R9). -/
abbrev Byte := BitVec 8

/-- A symbol field: `SYM_BITS = 9` (R9). Only 0 to 256 name symbols (R20). -/
abbrev Sym := BitVec 9

/-- A node index: `IDX_BITS = 10` (R9). Only 0 to 512 name node entries (R105). -/
abbrev NodeIdx := BitVec 10

/-- A node weight: `WEIGHT_BITS = 40` (R9). -/
abbrev Weight := BitVec 40

/-- The bits of a code: `MAX_CODE_LEN = 256` (R9, R43). -/
abbrev PathBits := BitVec 256

/-- `BYTE_VALUES` (R9). -/
abbrev byteValues : Nat := 256

/-- `NSYM` (R9): symbol ids 0 to 256. -/
abbrev symbolCount : Nat := 257

/-- `NODE_CAP` (R9): 2 * 257 - 1. -/
abbrev nodeCap : Nat := 513

/-- `EOS`, the end-of-stream symbol (R9). -/
abbrev eosSym : Sym := 256#9

/-- `EOS_WEIGHT` (R9). -/
abbrev eosWeight : Weight := 1#40

/-- `COUNT_MAX` (R9): 2^32 - 1. -/
abbrev countMax : Word := 0xFFFFFFFF#32

/-- The internal sentinel of a node's `SYM` (R41). -/
abbrev internalSym : Sym := 0x1FF#9

/-- The absent child of a leaf (R41). -/
abbrev noChild : NodeIdx := 0x3FF#10

/-- The header mode, the operand of EMIT_HEADER and COMPRESS (R106). -/
inductive HeaderMode where
  /-- `m = 0`, the default. -/
  | tree
  /-- `m = 1`: recognised, not implemented (R3, R305). -/
  | counts
  deriving DecidableEq, Repr

/-- The six command word formats (R101 to R106). -/
inductive Format where
  | n | b | s | sw | i | m
  deriving DecidableEq, Repr

end Sys2Proof
end

