-- ==== Sys2Proof/Syntax.lean ====
section
/-! DEFINITION. The command set of HUFF-CORE: one constructor per row of 30_encoding.md rule R108, with its operands (R107). -/

namespace Sys2Proof

/-- The 23 commands of R108. Every operand value its field can hold is a legal operand (R111). -/
inductive Instr where
  /-- NOP (R270). -/
  | nop
  /-- ERR_CLEAR (R271). -/
  | errClear
  /-- SOFT_RESET (R272). -/
  | softReset
  /-- SRC_REWIND (R273). -/
  | srcRewind
  /-- OUT_FLUSH (R274). -/
  | outFlush
  /-- HIST_CLEAR (R131). -/
  | histClear
  /-- HIST_COUNT b (R132). -/
  | histCount (b : Byte)
  /-- HIST_COUNT_STREAM (R133). -/
  | histCountStream
  /-- HIST_READ b (R134). -/
  | histRead (b : Byte)
  /-- BUILD_TREE (R135). -/
  | buildTree
  /-- NODE_READ i (R142). -/
  | nodeRead (i : NodeIdx)
  /-- GEN_CODES (R171). -/
  | genCodes
  /-- CODE_LEN s (R175). -/
  | codeLen (s : Sym)
  /-- CODE_BITS s, w (R176). -/
  | codeBits (s : Sym) (w : BitVec 3)
  /-- EMIT_HEADER m (R180). -/
  | emitHeader (m : HeaderMode)
  /-- ENCODE_BYTE b (R185). -/
  | encodeByte (b : Byte)
  /-- ENCODE_EOS (R186). -/
  | encodeEos
  /-- ENCODE_STREAM (R187). -/
  | encodeStream
  /-- COMPRESS m (R190). -/
  | compress (m : HeaderMode)
  /-- READ_HEADER (R221). -/
  | readHeader
  /-- DECODE_SYM (R230). -/
  | decodeSym
  /-- DECODE_STREAM (R235). -/
  | decodeStream
  /-- DECOMPRESS (R238). -/
  | decompress
  deriving DecidableEq, Repr

end Sys2Proof
end

