-- ==== Sys2Proof/WellFormed.lean ====
section
/-! DEFINITION. The assembler's range checks (30_encoding.md rule R118). `Instr` itself has fields of exactly the widths of the
command word, so each of its terms is well formed; what can be ill formed is a line of the assembler, whose operands are plain
numbers. -/

namespace Sys2Proof

/-- One assembled line before its operands are fitted into fields: the opcode byte its mnemonic stands for, and its operands
in the order of R118. -/
structure AsmLine where
  op : Byte
  args : List Nat
  deriving DecidableEq, Repr

/-- The format of an opcode byte (R108); none for the reserved bytes of R111. -/
def formatOf (op : Byte) : Option Format :=
  match op.toNat with
  | 0x00 => some .n | 0x01 => some .n | 0x02 => some .n | 0x03 => some .n | 0x04 => some .n
  | 0x10 => some .n | 0x11 => some .b | 0x12 => some .n | 0x13 => some .b | 0x14 => some .n | 0x15 => some .i
  | 0x20 => some .n | 0x21 => some .s | 0x22 => some .sw | 0x23 => some .m | 0x24 => some .b | 0x25 => some .n
  | 0x26 => some .n | 0x27 => some .m
  | 0x30 => some .n | 0x31 => some .n | 0x32 => some .n | 0x33 => some .n
  | _ => none

/-- The operands fit their format's fields (R118): an assembly error is `b > 255`, `s > 511`, `w > 7`, `i > 1023`; format M
takes `tree` (0), `counts` (1) or nothing. -/
def argsFit : Format → List Nat → Bool
  | .n, [] => true
  | .b, [b] => decide (b ≤ 255)
  | .s, [s] => decide (s ≤ 511)
  | .sw, [s, w] => decide (s ≤ 511) && decide (w ≤ 7)
  | .i, [i] => decide (i ≤ 1023)
  | .m, [] => true
  | .m, [m] => decide (m ≤ 1)
  | _, _ => false

/-- An assembler line is well formed when its opcode byte is one of the 23 and its operands fit (R118). -/
def AsmLine.wellFormed (l : AsmLine) : Bool :=
  match formatOf l.op with
  | some f => argsFit f l.args
  | none => false

/-- Every operand value an `Instr` can hold is legal (R111: an operand value that names nothing is not illegal), so every
`Instr` is well formed. -/
def Instr.wellFormed (_ : Instr) : Bool := true

end Sys2Proof
end

