-- ==== Sys2Proof/Decode.lean ====
section
/-! DEFINITION. Command words: the opcode table of 30_encoding.md rule R108, `Decode` (R109), the encoder, and what the host
asks of the decoder. -/

namespace Sys2Proof

/-- `w[hi:lo]` as a bit vector of the field's width (R13): `width` bits from bit `lo` up. -/
def field (w : Word) (lo width : Nat) : BitVec width := w.extractLsb' lo width

/-- The header mode of bit 0 (R106). -/
def modeOf (m : BitVec 1) : HeaderMode := if m = 1#1 then .counts else .tree

/-- The bit of a header mode (R106). -/
def modeBit : HeaderMode → BitVec 1
  | .tree => 0#1
  | .counts => 1#1

/-- One row of R108: a word `w` is the command iff `(w & mask) = pattern`; `build` gives the command with its operands by
R107. -/
structure OpRow where
  pattern : Word
  mask : Word
  build : Word → Instr

/-- `(w & row.mask) == row.pattern` (R109). -/
def OpRow.fits (row : OpRow) (w : Word) : Bool := (w &&& row.mask) == row.pattern

/-- The control rows of R108. -/
def controlRows : List OpRow :=
  [ ⟨0x00000000#32, 0xFFFFFFFF#32, fun _ => .nop⟩,
    ⟨0x01000000#32, 0xFFFFFFFF#32, fun _ => .errClear⟩,
    ⟨0x02000000#32, 0xFFFFFFFF#32, fun _ => .softReset⟩,
    ⟨0x03000000#32, 0xFFFFFFFF#32, fun _ => .srcRewind⟩,
    ⟨0x04000000#32, 0xFFFFFFFF#32, fun _ => .outFlush⟩ ]

/-- The tree builder rows of R108. -/
def treeBuilderRows : List OpRow :=
  [ ⟨0x10000000#32, 0xFFFFFFFF#32, fun _ => .histClear⟩,
    ⟨0x11000000#32, 0xFFFFFF00#32, fun w => .histCount (field w 0 8)⟩,
    ⟨0x12000000#32, 0xFFFFFFFF#32, fun _ => .histCountStream⟩,
    ⟨0x13000000#32, 0xFFFFFF00#32, fun w => .histRead (field w 0 8)⟩,
    ⟨0x14000000#32, 0xFFFFFFFF#32, fun _ => .buildTree⟩,
    ⟨0x15000000#32, 0xFFFFFC00#32, fun w => .nodeRead (field w 0 10)⟩ ]

/-- The encoder rows of R108. -/
def encoderRows : List OpRow :=
  [ ⟨0x20000000#32, 0xFFFFFFFF#32, fun _ => .genCodes⟩,
    ⟨0x21000000#32, 0xFFFFFE00#32, fun w => .codeLen (field w 0 9)⟩,
    ⟨0x22000000#32, 0xFFFFF000#32, fun w => .codeBits (field w 0 9) (field w 9 3)⟩,
    ⟨0x23000000#32, 0xFFFFFFFE#32, fun w => .emitHeader (modeOf (field w 0 1))⟩,
    ⟨0x24000000#32, 0xFFFFFF00#32, fun w => .encodeByte (field w 0 8)⟩,
    ⟨0x25000000#32, 0xFFFFFFFF#32, fun _ => .encodeEos⟩,
    ⟨0x26000000#32, 0xFFFFFFFF#32, fun _ => .encodeStream⟩,
    ⟨0x27000000#32, 0xFFFFFFFE#32, fun w => .compress (modeOf (field w 0 1))⟩ ]

/-- The decoder rows of R108. -/
def decoderRows : List OpRow :=
  [ ⟨0x30000000#32, 0xFFFFFFFF#32, fun _ => .readHeader⟩,
    ⟨0x31000000#32, 0xFFFFFFFF#32, fun _ => .decodeSym⟩,
    ⟨0x32000000#32, 0xFFFFFFFF#32, fun _ => .decodeStream⟩,
    ⟨0x33000000#32, 0xFFFFFFFF#32, fun _ => .decompress⟩ ]

/-- The complete opcode map (R108). -/
def opTable : List OpRow := controlRows ++ treeBuilderRows ++ encoderRows ++ decoderRows

/-- The two ways a word is illegal (R110). -/
inductive IllegalWord where
  /-- R110 (a): the opcode byte is not one of the 23. -/
  | reservedOpcode (op : Byte)
  /-- R110 (b): the opcode byte is listed, but a reserved bit of its format is 1. -/
  | reservedBits (op : Byte)
  deriving DecidableEq, Repr

/-- What `Decode` answers (R109): a command with its operands, or ILLEGAL, with the case of R110. -/
inductive Decoded where
  | command (i : Instr)
  | illegal (why : IllegalWord)
  deriving DecidableEq, Repr

/-- The opcode byte, bits [31:24] (R100). -/
def opcodeByte (w : Word) : Byte := field w 24 8

/-- The case of R110 a word no row matches falls under. -/
def illegalCase (w : Word) : IllegalWord :=
  match formatOf (opcodeByte w) with
  | some _ => .reservedBits (opcodeByte w)
  | none => .reservedOpcode (opcodeByte w)

/-- `Decode` (R109): the first row that matches; total on all words. -/
def decode (w : Word) : Decoded :=
  match opTable.find? (fun row => row.fits w) with
  | some row => .command (row.build w)
  | none => .illegal (illegalCase w)

/-- The opcode byte of each command (R108). -/
def opcodeOf : Instr → Byte
  | .nop => 0x00#8
  | .errClear => 0x01#8
  | .softReset => 0x02#8
  | .srcRewind => 0x03#8
  | .outFlush => 0x04#8
  | .histClear => 0x10#8
  | .histCount _ => 0x11#8
  | .histCountStream => 0x12#8
  | .histRead _ => 0x13#8
  | .buildTree => 0x14#8
  | .nodeRead _ => 0x15#8
  | .genCodes => 0x20#8
  | .codeLen _ => 0x21#8
  | .codeBits _ _ => 0x22#8
  | .emitHeader _ => 0x23#8
  | .encodeByte _ => 0x24#8
  | .encodeEos => 0x25#8
  | .encodeStream => 0x26#8
  | .compress _ => 0x27#8
  | .readHeader => 0x30#8
  | .decodeSym => 0x31#8
  | .decodeStream => 0x32#8
  | .decompress => 0x33#8

/-- Bits [23:0] of a command's word, laid out by its format (R101 to R106), reserved bits 0. -/
def operandField : Instr → BitVec 24
  | .histCount b => 0#16 ++ b
  | .histRead b => 0#16 ++ b
  | .encodeByte b => 0#16 ++ b
  | .codeLen s => 0#15 ++ s
  | .codeBits s w => 0#12 ++ w ++ s
  | .nodeRead i => 0#14 ++ i
  | .emitHeader m => 0#23 ++ modeBit m
  | .compress m => 0#23 ++ modeBit m
  | .nop => 0#24
  | .errClear => 0#24
  | .softReset => 0#24
  | .srcRewind => 0#24
  | .outFlush => 0#24
  | .histClear => 0#24
  | .histCountStream => 0#24
  | .buildTree => 0#24
  | .genCodes => 0#24
  | .encodeEos => 0#24
  | .encodeStream => 0#24
  | .readHeader => 0#24
  | .decodeSym => 0#24
  | .decodeStream => 0#24
  | .decompress => 0#24

/-- `enc(c)` (R119): a command's word. -/
def encode (i : Instr) : Word := opcodeOf i ++ operandField i

/-- The command a word decodes to, if it is one. -/
def Decoded.instr? : Decoded → Option Instr
  | .command i => some i
  | .illegal _ => none

/-- What the decoder reads from an instruction of the opcode table whose `nbits` low bits are those of `w` and whose other
bits are 0. A command is one 32-bit word, accessed whole (R71, R100), so bit 0 of the table is bit 0 of the word. -/
def decodeTableWord (nbits w : Nat) : Option Instr :=
  (decode (BitVec.ofNat 32 (w % 2 ^ nbits))).instr?

/-! Every constructor's decoding, on a word written out from R100 to R108 (95_test_vectors.md V-X1 where it gives one). -/

theorem decode_nop : decode 0x00000000#32 = .command .nop := by decide
theorem decode_errClear : decode 0x01000000#32 = .command .errClear := by decide
theorem decode_softReset : decode 0x02000000#32 = .command .softReset := by decide
theorem decode_srcRewind : decode 0x03000000#32 = .command .srcRewind := by decide
theorem decode_outFlush : decode 0x04000000#32 = .command .outFlush := by decide
theorem decode_histClear : decode 0x10000000#32 = .command .histClear := by decide
theorem decode_histCount : decode 0x11000041#32 = .command (.histCount 0x41#8) := by decide
theorem decode_histCountStream : decode 0x12000000#32 = .command .histCountStream := by decide
theorem decode_histRead : decode 0x130000FF#32 = .command (.histRead 0xFF#8) := by decide
theorem decode_buildTree : decode 0x14000000#32 = .command .buildTree := by decide
theorem decode_nodeRead : decode 0x150003FF#32 = .command (.nodeRead 1023#10) := by decide
theorem decode_genCodes : decode 0x20000000#32 = .command .genCodes := by decide
theorem decode_codeLen : decode 0x21000100#32 = .command (.codeLen 256#9) := by decide
theorem decode_codeBits : decode 0x22000E41#32 = .command (.codeBits 0x41#9 7#3) := by decide
theorem decode_emitHeader : decode 0x23000001#32 = .command (.emitHeader .counts) := by decide
theorem decode_encodeByte : decode 0x24000042#32 = .command (.encodeByte 0x42#8) := by decide
theorem decode_encodeEos : decode 0x25000000#32 = .command .encodeEos := by decide
theorem decode_encodeStream : decode 0x26000000#32 = .command .encodeStream := by decide
theorem decode_compress : decode 0x27000000#32 = .command (.compress .tree) := by decide
theorem decode_readHeader : decode 0x30000000#32 = .command .readHeader := by decide
theorem decode_decodeSym : decode 0x31000000#32 = .command .decodeSym := by decide
theorem decode_decodeStream : decode 0x32000000#32 = .command .decodeStream := by decide
theorem decode_decompress : decode 0x33000000#32 = .command .decompress := by decide

end Sys2Proof
end

