-- ==== Sys2Proof/Config.lean ====
section
/-! DEFINITION. What a HUFF-CORE instance fixes (00_scope.md rule R10, 10_state.md rule R49, 20_memory.md rule R81), and the
free values. None of the opaque constants has a body: a theorem about one holds for every value of it. -/

namespace Sys2Proof

/-- `MAGIC_TREE` (R10): an open parameter (assumption log 1). -/
opaque Config.magicTree : Word

/-- The open parameter `Config.magicCounts` is drawn from (assumption log 1). -/
opaque Config.magicCountsRaw : Word

/-- `MAGIC_COUNTS` (R10). R10 requires `MAGIC_TREE ≠ MAGIC_COUNTS`: where the raw parameter equals `MAGIC_TREE` the next word
stands in its place, so every unequal pair of values can arise and no equal pair can (assumption log 1). -/
def Config.magicCounts : Word :=
  if Config.magicCountsRaw = Config.magicTree then Config.magicTree + 1 else Config.magicCountsRaw

/-- R10: the two magic numbers differ. -/
theorem Config.magic_distinct : Config.magicTree ≠ Config.magicCounts := by
  unfold Config.magicCounts
  split
  · intro h
    have h1 : (1 : Word) = 0 := by simp at h
    exact absurd h1 (by decide)
  · next h => exact fun e => h e.symm

/-- `HUFF_BASE` (R81): where the register window sits in the host's address map; no rule uses it (assumption log 2). -/
opaque Config.huffBase : Nat

/-- The value hardware reset leaves in `PENDING`, which R341 calls unspecified: a free value, one for each draw
(assumption log 8). -/
opaque Config.freePending : Nat → Word

end Sys2Proof
end

