-- ==== Sys2Proof/Machine/State.lean ====
section
/-! DEFINITION. The state of HUFF-CORE (10_state.md), all of it, as plain data; the reasons a step can stop; the state after
power-on (10_state.md rule R52). -/

namespace Sys2Proof.Machine

/-- One entry of `NODE` (R41). -/
structure Node where
  /-- `LEAF`. -/
  leaf : Bool
  /-- `SYM`. -/
  sym : Sym
  /-- `WEIGHT`. -/
  weight : Weight
  /-- `LEFT`. -/
  left : NodeIdx
  /-- `RIGHT`. -/
  right : NodeIdx
  deriving DecidableEq, Repr

/-- One entry of `CODE` (R43): when `valid`, the code is the `len`-bit string whose last-emitted bit is bit 0 of `bits`. -/
structure CodeEntry where
  /-- `VALID`. -/
  valid : Bool
  /-- `LEN`. -/
  len : BitVec 9
  /-- `BITS`. -/
  bits : PathBits
  deriving DecidableEq, Repr

/-- The ten error kinds (R301). -/
inductive ErrorKind where
  /-- Code 1: magic not recognised, or IN shorter than 32 bits (R302). -/
  | format
  /-- Code 2: IN exhausted inside a tree walk or a header (R303). -/
  | truncated
  /-- Code 3: the command word matches no opcode row (R304). -/
  | illegalCmd
  /-- Code 4: counts-header mode requested or read (R305). -/
  | unsupportedMode
  /-- Code 5: the command needs a tree (R306). -/
  | noTree
  /-- Code 6: the command needs codes (R307). -/
  | noCodes
  /-- Code 7: the symbol to encode has no code (R308). -/
  | unmappedSymbol
  /-- Code 8: a histogram counter would pass 2^32 - 1 (R309). -/
  | countOverflow
  /-- Code 9: the header has more than 513 nodes (R310). -/
  | headerOverflow
  /-- Code 10: a header leaf symbol above 256 (R311). -/
  | badSymbol
  deriving DecidableEq, Repr

/-- The host's actions (44_control.md section 2, 70_reset_and_hazards.md rule R341), and two pseudo-instructions of a host
program that read `STATUS` (30_encoding.md rule R119). -/
inductive HostAction where
  /-- `WRITE r, v` (R291, R292, R295). -/
  | write (r : BitVec 4) (v : Word)
  /-- `READ r` (R295). -/
  | read (r : BitVec 4)
  /-- `LOAD_IN bytes` (R293). -/
  | loadIn (bytes : List Byte)
  /-- `DRAIN_OUT` (R294). -/
  | drainOut
  /-- `HW_RESET` (R341). -/
  | hwReset
  /-- `WAIT` (R119): read `STATUS` until `BUSY` reads 0. -/
  | wait
  /-- `CHECK` (R119): read `STATUS`; the host program stops with failure if `ERR` reads 1. -/
  | check
  deriving DecidableEq, Repr

/-- Which agent makes the next transition (R32, R83): the engine, or the host with one of its actions. -/
inductive Turn where
  | engine
  | host (a : HostAction)
  deriving DecidableEq, Repr

/-- What a host action returned to the host: a register's value (R295), or the bits of OUT (R294). -/
inductive Seen where
  | register (r : BitVec 4) (v : Word)
  | drained (bits : List Bool)
  deriving DecidableEq, Repr

/-- Why the machine stops. No command stops in a state that keeps R42. -/
inductive Fault where
  /-- Raised by a tree walk (GEN_CODES, EMIT_HEADER, DECODE_SYM, DECODE_STREAM) that follows a pointer above 512: `NODE` has
  no such entry (R41). Safe: only a state that breaks R42, which no run reaches, raises it. -/
  | nodeIndexOutOfRange
  /-- Raised by GEN_CODES at a leaf whose symbol is above 256: `CODE` has no such entry (R43). Safe: only a state that breaks
  R51, which no run reaches, raises it. -/
  | codeIndexOutOfRange
  /-- Raised by GEN_CODES and EMIT_HEADER on a walk deeper than the 513 node entries: the nodes form a cycle and the command
  would never end. Safe: only a state that breaks R42, which no run reaches, raises it. -/
  | treeWalkEndless
  /-- Raised by a host turn with LOAD_IN or DRAIN_OUT while `BUSY = 1`: the host has no such action there (R88, R352; 93 I16:
  stuck for that action). Safe: the model offers no further step. -/
  | hostActionNotEnabled
  deriving DecidableEq, Repr

/-- Why an instruction is refused. -/
inductive Refusal where
  /-- Raised by an arm of `exec` whose instruction has no meaning yet; no arm does. Safe: the model stops. -/
  | notModelled (mnemonic : String)
  deriving DecidableEq, Repr

/-- The state of HUFF-CORE (10_state.md), and at its end three fields that are the model's own (assumption log 3, 4, 8). -/
structure State where
  /-- `BUSY` (R32). -/
  busy : Bool
  /-- `PENDING` (R32). -/
  pending : Word
  /-- `HIST[0..255]` (R40). -/
  hist : Vector Word byteValues
  /-- `NODE[0..512]` (R41). -/
  nodes : Vector Node nodeCap
  /-- `NODE_COUNT` (R42). -/
  nodeCount : NodeIdx
  /-- `ROOT` (R42). -/
  root : NodeIdx
  /-- `TREE_VALID` (R42). -/
  treeValid : Bool
  /-- `TREE_SRC` (R42, R34): false when built, true when loaded. -/
  treeSrc : Bool
  /-- `CODE[0..256]` (R43). -/
  codes : Vector CodeEntry symbolCount
  /-- `CODES_VALID` (R44). -/
  codesValid : Bool
  /-- `RESULT` (R36). -/
  result : Word
  /-- `EOS` (R45). -/
  eos : Bool
  /-- `ERR_CODE` (R46). -/
  errCode : BitVec 4
  /-- `ERR_OPC` (R46). -/
  errOpc : Byte
  /-- `OVR` (R46). -/
  ovr : Bool
  /-- `IN` (R47). -/
  input : List Byte
  /-- `IN_POS` (R47), the bit cursor. -/
  inPos : Nat
  /-- `OUT` (R48), first bit first. -/
  out : List Bool
  /-- The model's own: the turns still to come, first one first (assumption log 3). -/
  turns : List Turn
  /-- The model's own: what the host has been given, oldest first (assumption log 4). -/
  seen : List Seen
  /-- The model's own: how many free values have been drawn (assumption log 8). -/
  draws : Nat
  deriving DecidableEq, Repr

/-- An entry of `NODE` at power-on; R52 leaves it unspecified (assumption log 7). -/
def Node.blank : Node := ⟨false, 0#9, 0#40, 0#10, 0#10⟩

/-- A `CODE` entry of a symbol with no code (R43: `VALID = 0`, `LEN = 0`, `BITS = 0`), and the entry at power-on, which R52
leaves unspecified (assumption log 7). -/
def CodeEntry.none : CodeEntry := ⟨false, 0#9, 0#256⟩

/-- The state after power-on (R52). `PENDING`, `NODE[]` and `CODE[]` are unspecified there: assumption log 6 and 7. -/
def State.reset : State where
  busy := false
  pending := 0#32
  hist := Vector.replicate byteValues 0#32
  nodes := Vector.replicate nodeCap Node.blank
  nodeCount := 0#10
  root := 0#10
  treeValid := false
  treeSrc := false
  codes := Vector.replicate symbolCount CodeEntry.none
  codesValid := false
  result := 0#32
  eos := false
  errCode := 0#4
  errOpc := 0#8
  ovr := false
  input := []
  inPos := 0
  out := []
  turns := []
  seen := []
  draws := 0

end Sys2Proof.Machine
end

