-- ==== Sys2Proof/Machine/Ops.lean ====
section
/-! DEFINITION. The shared operations: commands that can raise an error (60_exceptions.md), the streams (20_memory.md), the
internal memories, and the reset values (70_reset_and_hazards.md rule R340). -/

namespace Sys2Proof.Machine

/-! ### Errors -/

/-- How a command, or a part of one, ends (R17): it goes on with a value, it raised an error at the state it had reached, or
the machine stops. -/
inductive Run (α : Type) where
  | ok (a : α) (s : State)
  | raised (e : ErrorKind) (s : State)
  | stuck (f : Fault)

/-- One part of a command after another (R18: in textual order); a raise abandons the rest (R312). -/
def Run.bind {α β : Type} (x : Run α) (k : α → State → Run β) : Run β :=
  match x with
  | .ok a s => k a s
  | .raised e s => .raised e s
  | .stuck f => .stuck f

/-- The code of an error, held in `ERR_CODE` (R301). -/
def errorCode : ErrorKind → BitVec 4
  | .format => 1#4
  | .truncated => 2#4
  | .illegalCmd => 3#4
  | .unsupportedMode => 4#4
  | .noTree => 5#4
  | .noCodes => 6#4
  | .unmappedSymbol => 7#4
  | .countOverflow => 8#4
  | .headerOverflow => 9#4
  | .badSymbol => 10#4

/-- Taking an error (R312): `ERR_CODE` and `ERR_OPC` are latched, and nothing else is saved. -/
def latchError (e : ErrorKind) (opc : Byte) (s : State) : State :=
  { s with errCode := errorCode e, errOpc := opc }

/-- Leaving the error-latched condition (R271, R314): no state is restored. -/
def clearError (s : State) : State :=
  { s with errCode := 0#4, errOpc := 0#8, ovr := false }

/-- The end of a command with opcode byte `opc` (R312): an error it raised is latched under that byte, a sub-step's too. -/
def finish (opc : Byte) : Run Unit → Host.Outcome State Fault Refusal
  | .ok _ s => .next s
  | .raised e s => .next (latchError e opc s)
  | .stuck f => .fault f

/-! ### The IN stream -/

/-- The length of IN in bits, `8·|IN|` (R70). -/
def inBits (s : State) : Nat := 8 * s.input.length

/-- Stream bit `p` of a byte sequence (R72): the bits of each byte, most significant first. -/
def streamBit (bytes : List Byte) (p : Nat) : Bool := (bytes.getD (p / 8) 0#8).getLsbD (7 - p % 8)

/-- The `n` stream bits from position `p` on (R72). -/
def streamBits (bytes : List Byte) (p n : Nat) : List Bool :=
  (List.range n).map fun k => streamBit bytes (p + k)

/-- The number whose bits, first one most significant, are these (R74: `v <- 2·v + inbit`). -/
def bitsValue (bits : List Bool) : Nat := bits.foldl (fun v b => 2 * v + b.toNat) 0

/-- `ReadBits(n)` (R74): the next `n` bits as a number, most significant first; `none` is `NO_DATA`, and a short tail is
consumed with it. -/
def readBits (n : Nat) (s : State) : Option (BitVec n) × State :=
  if s.inPos + n > inBits s then (none, { s with inPos := inBits s })
  else (some (BitVec.ofNat n (bitsValue (streamBits s.input s.inPos n))), { s with inPos := s.inPos + n })

/-- `Rewind()` (R75). -/
def rewind (s : State) : State := { s with inPos := 0 }

/-- The bits from the cursor to the end of IN. -/
def bitsLeft (s : State) : Nat := inBits s - s.inPos

/-! ### The OUT stream -/

/-- The low `n` bits of `v`, most significant first (R76). -/
def msbBits {w : Nat} (n : Nat) (v : BitVec w) : List Bool :=
  (List.range n).map fun k => v.getLsbD (n - 1 - k)

/-- Bits appended to OUT. -/
def appendOut (bits : List Bool) (s : State) : State := { s with out := s.out ++ bits }

/-- `WriteBits(n, v)` (R76). -/
def writeBits {w : Nat} (n : Nat) (v : BitVec w) (s : State) : State := appendOut (msbBits n v) s

/-- The 0 bits that bring a stream of `n` bits to a whole byte (R77). -/
def padding (n : Nat) : List Bool := List.replicate ((8 - n % 8) % 8) false

/-- `Flush()` (R77). -/
def flush (s : State) : State := appendOut (padding s.out.length) s

/-- `outbyte(j)` (R77). -/
def outByte (bits : List Bool) (j : Nat) : Byte := BitVec.ofNat 8 (bitsValue ((bits.drop (8 * j)).take 8))

/-- The byte view of OUT (R77): the whole bytes it holds. -/
def outBytes (bits : List Bool) : List Byte := (List.range (bits.length / 8)).map (outByte bits)

/-! ### The internal memories -/

/-- `HIST[b]` (R40). -/
def histAt (s : State) (b : Byte) : Word := s.hist[b.toNat]'b.isLt

/-- `HIST[b] <- v` (R40). -/
def setHist (b : Byte) (v : Word) (s : State) : State := { s with hist := s.hist.set b.toNat v b.isLt }

/-- `NODE[i]`, for a pointer that a walk follows: `NODE` has entries 0 to 512 only (R41; assumption log 9). -/
def nodeAt (nodes : Vector Node nodeCap) (i : NodeIdx) : Except Fault Node :=
  if h : i.toNat < nodeCap then .ok nodes[i.toNat] else .error .nodeIndexOutOfRange

/-- `NODE[i] <- e` (R41). Every command that writes an entry keeps `i` below 513 (R140, R225). -/
def setNode (i : Nat) (e : Node) (nodes : Vector Node nodeCap) : Vector Node nodeCap := nodes.setIfInBounds i e

/-- A leaf entry (R41). -/
def leafNode (sym : Sym) (weight : Weight) : Node := ⟨true, sym, weight, noChild, noChild⟩

/-- An internal entry (R41). -/
def internalNode (weight : Weight) (left right : NodeIdx) : Node := ⟨false, internalSym, weight, left, right⟩

/-- The valid `CODE` entry of a symbol, if it names an entry (`s ≤ 256`) and that entry is valid (R43, R175). -/
def codeOf (s : State) (sym : Sym) : Option CodeEntry :=
  match s.codes[sym.toNat]? with
  | some c => if c.valid then some c else none
  | none => none

/-! ### Reset -/

/-- `SetResetValues()` (R340): IN, OUT, `BUSY` and `PENDING` are kept, and so are the contents of `NODE[]` and `CODE[]`, which
are unobservable from then on. -/
def setResetValues (s : State) : State :=
  { s with
    hist := Vector.replicate byteValues 0#32
    nodeCount := 0#10
    root := 0#10
    treeValid := false
    treeSrc := false
    codesValid := false
    result := 0#32
    eos := false
    errCode := 0#4
    errOpc := 0#8
    ovr := false
    inPos := 0 }

end Sys2Proof.Machine
end

