-- ==== Sys2Proof/Machine/Control.lean ====
section
/-! DEFINITION. The control commands (44_control.md section 1). -/

namespace Sys2Proof.Machine

/-- NOP (R270). -/
def execNop (s : State) : Host.Outcome State Fault Refusal :=
  finish (opcodeOf .nop) (.ok () s)

/-- ERR_CLEAR (R271). -/
def execErrClear (s : State) : Host.Outcome State Fault Refusal :=
  finish (opcodeOf .errClear) (.ok () (clearError s))

/-- SOFT_RESET (R272). -/
def execSoftReset (s : State) : Host.Outcome State Fault Refusal :=
  finish (opcodeOf .softReset) (.ok () (setResetValues s))

/-- SRC_REWIND (R273). -/
def execSrcRewind (s : State) : Host.Outcome State Fault Refusal :=
  finish (opcodeOf .srcRewind) (.ok () (rewind s))

/-- OUT_FLUSH (R274). -/
def execOutFlush (s : State) : Host.Outcome State Fault Refusal :=
  finish (opcodeOf .outFlush) (.ok () (flush s))

end Sys2Proof.Machine
end

