-- ==== Sys2Proof/Machine/Operands.lean ====
section
/-! DEFINITION. Operand forms: the operands of a command word as numbers (30_encoding.md rule R107), and the words that the
inspection commands make of an entry (R142, R175, R176). -/

namespace Sys2Proof.Machine

/-- A byte operand as a symbol id (R20: ids 0 to 255 are byte values). -/
def byteSym (b : Byte) : Sym := b.setWidth 9

/-- All byte values in ascending order (R135: `for s in 0..255`). -/
def allBytes : List Byte := (List.range byteValues).map (BitVec.ofNat 8)

/-- The histogram as the pairs `(b, HIST[b])`, in ascending `b` (R135: `for s in 0..255`). -/
def histEntries (s : State) : List (Byte × Word) := allBytes.zip s.hist.toList

/-- The `RESULT` of NODE_READ for an entry (R142): LEAF in [31], SYM in [28:20], LEFT in [19:10], RIGHT in [9:0]. -/
def packNode (e : Node) : Word := BitVec.ofBool e.leaf ++ 0#2 ++ e.sym ++ e.left ++ e.right

/-- The `RESULT` of NODE_READ (R142): 0 for an index at or above `NODE_COUNT`. -/
def nodeWord (i : NodeIdx) (s : State) : Word :=
  if i < s.nodeCount then
    match s.nodes[i.toNat]? with
    | some e => packNode e
    | none => 0#32
  else 0#32

/-- The `RESULT` of CODE_LEN (R175). -/
def codeLenWord (sym : Sym) (s : State) : Word :=
  match codeOf s sym with
  | some c => 0x80000000#32 ||| c.len.setWidth 32
  | none => 0#32

/-- The `RESULT` of CODE_BITS (R176): `BITS[32·w+31 : 32·w]`. -/
def codeBitsWord (sym : Sym) (w : BitVec 3) (s : State) : Word :=
  match codeOf s sym with
  | some c => c.bits.extractLsb' (32 * w.toNat) 32
  | none => 0#32

end Sys2Proof.Machine
end

