-- ==== Sys2Proof/Machine/TreeBuilder.lean ====
section
/-! DEFINITION. The tree builder commands (41_tree_builder.md): frequency analysis, the priority-queue merge, and the inspection
commands HIST_READ and NODE_READ. -/

namespace Sys2Proof.Machine

/-! ### Frequency analysis -/

/-- `for b in 0..255: HIST[b] <- 0` (R131). -/
def clearHist (s : State) : State := { s with hist := Vector.replicate byteValues 0#32 }

/-- Counting one byte (R132, R143): exact, never wrapping. -/
def countByte (b : Byte) (s : State) : Run Unit :=
  if histAt s b = countMax then .raised .countOverflow s
  else .ok () (setHist b (histAt s b + 1) s)

/-- The loop of HIST_COUNT_STREAM (R133), with a bound on its rounds (R361: at most `|IN| + 1`). -/
def countLoop : Nat → State → Run Unit
  | 0, s => .ok () s
  | n + 1, s =>
    match readBits 8 s with
    | (none, s') => .ok () s'
    | (some v, s') => (countByte v s').bind fun _ s'' => countLoop n s''

/-- HIST_COUNT_STREAM (R133). -/
def countStream (s : State) : Run Unit := countLoop (s.input.length + 1) s

/-! ### Tree construction -/

/-- What lives inside BUILD_TREE only (R50, R135): the node memory being written, the next free index `n`, and the queue `Q`,
a set of node indices. -/
structure Builder where
  nodes : Vector Node nodeCap
  next : Nat
  queue : List Nat
  deriving DecidableEq, Repr

/-- `NODE[n] <- e; Q <- Q ∪ {n}; n <- n + 1` (R135). -/
def addNode (e : Node) (t : Builder) : Builder where
  nodes := setNode t.next e t.nodes
  next := t.next + 1
  queue := t.queue ++ [t.next]

/-- `NODE[i].WEIGHT`, as a number. -/
def weightAt (nodes : Vector Node nodeCap) (i : Nat) : Nat :=
  match nodes[i]? with
  | some e => e.weight.toNat
  | none => 0

/-- The order of the queue (R136): `(NODE[i].WEIGHT, i)` comes before `(NODE[j].WEIGHT, j)` lexicographically. -/
def comesBefore (nodes : Vector Node nodeCap) (i j : Nat) : Bool :=
  decide (weightAt nodes i < weightAt nodes j) || (decide (weightAt nodes i = weightAt nodes j) && decide (i < j))

/-- The first in the queue's order of `i` and the indices of a list. -/
def leastOf (nodes : Vector Node nodeCap) (i : Nat) (q : List Nat) : Nat :=
  q.foldl (fun m j => if comesBefore nodes j m then j else m) i

/-- `RemoveMin(Q)` (R136): the index with the least `(WEIGHT, index)` pair, and the rest of the queue. -/
def removeMin (nodes : Vector Node nodeCap) : List Nat → Option (Nat × List Nat)
  | [] => none
  | i :: q => some (leastOf nodes i q, (i :: q).erase (leastOf nodes i q))

/-- The weight of a new internal node (R138, R144): the sum of its children's. -/
def mergedWeight (nodes : Vector Node nodeCap) (a b : Nat) : Weight :=
  BitVec.ofNat 40 (weightAt nodes a + weightAt nodes b)

/-- One round of the merge loop (R138): the two first in the queue are removed and combined; `none` when fewer than two are
left (R139). -/
def mergeStep (t : Builder) : Option Builder :=
  match removeMin t.nodes t.queue with
  | none => none
  | some (a, q) =>
    match removeMin t.nodes q with
    | none => none
    | some (b, q') =>
      some (addNode (internalNode (mergedWeight t.nodes a b) (BitVec.ofNat 10 a) (BitVec.ofNat 10 b)) { t with queue := q' })

/-- `while |Q| > 1` (R138, R139), with a bound on its rounds: each one takes the queue one shorter. -/
def mergeLoop : Nat → Builder → Builder
  | 0, t => t
  | n + 1, t =>
    match mergeStep t with
    | none => t
    | some t' => mergeLoop n t'

/-- The leaf of a byte value `x.1` that occurs `x.2` times, if it occurs at all (R137). -/
def addByteLeaf (t : Builder) (x : Byte × Word) : Builder :=
  if x.2 = 0#32 then t else addNode (leafNode (byteSym x.1) (x.2.setWidth 40)) t

/-- The leaves of BUILD_TREE (R137): one for each byte value that occurs, in ascending order, then EOS with weight 1. They are
written into the node memory as it stands. DESIGN CHOICE: entries that end up at or above `NODE_COUNT`, unspecified by R41, keep
their old contents (assumption log 24). -/
def buildLeaves (s : State) : Builder :=
  addNode (leafNode eosSym eosWeight) ((histEntries s).foldl addByteLeaf ⟨s.nodes, 0, []⟩)

/-- The merged queue (R138, R139): `L - 1` rounds for `L` leaves. -/
def buildMerged (s : State) : Builder := mergeLoop (buildLeaves s).queue.length (buildLeaves s)

/-- BUILD_TREE (R135). The one index left in the queue is the root (R139). -/
def buildTree (s : State) : State :=
  { s with
    codesValid := false
    nodes := (buildMerged s).nodes
    root := BitVec.ofNat 10 ((buildMerged s).queue.headD 0)
    nodeCount := BitVec.ofNat 10 (buildMerged s).next
    treeValid := true
    treeSrc := false }

/-! ### The meanings -/

/-- HIST_CLEAR (R131). -/
def execHistClear (s : State) : Host.Outcome State Fault Refusal :=
  finish (opcodeOf .histClear) (.ok () (clearHist s))

/-- HIST_COUNT b (R132). -/
def execHistCount (b : Byte) (s : State) : Host.Outcome State Fault Refusal :=
  finish (opcodeOf (.histCount b)) (countByte b s)

/-- HIST_COUNT_STREAM (R133). -/
def execHistCountStream (s : State) : Host.Outcome State Fault Refusal :=
  finish (opcodeOf .histCountStream) (countStream s)

/-- HIST_READ b (R134). -/
def execHistRead (b : Byte) (s : State) : Host.Outcome State Fault Refusal :=
  finish (opcodeOf (.histRead b)) (.ok () { s with result := histAt s b })

/-- BUILD_TREE (R135). -/
def execBuildTree (s : State) : Host.Outcome State Fault Refusal :=
  finish (opcodeOf .buildTree) (.ok () (buildTree s))

/-- NODE_READ i (R142). -/
def execNodeRead (i : NodeIdx) (s : State) : Host.Outcome State Fault Refusal :=
  finish (opcodeOf (.nodeRead i)) (.ok () { s with result := nodeWord i s })

end Sys2Proof.Machine
end

