-- ==== Sys2Proof/Machine/Encoder.lean ====
section
/-! DEFINITION. The encoder commands (42_encoder.md): code table generation, header serialization, code emission, and the
compressor. -/

namespace Sys2Proof.Machine

/-! ### Preconditions -/

/-- `if TREE_VALID == 0: raise NO_TREE` (R306), before any other effect. -/
def needTree (s : State) (k : State → Run Unit) : Run Unit :=
  if s.treeValid then k s else .raised .noTree s

/-- `if CODES_VALID == 0: raise NO_CODES` (R307), before any other effect. -/
def needCodes (s : State) (k : State → Run Unit) : Run Unit :=
  if s.codesValid then k s else .raised .noCodes s

/-! ### Code table generation -/

/-- `CODE[sym] <- {VALID 1, LEN len, BITS bits}` (R171): `CODE` has entries 0 to 256 only (R43; assumption log 9). -/
def setCode (sym : Sym) (len : Nat) (bits : PathBits) (codes : Vector CodeEntry symbolCount) :
    Except Fault (Vector CodeEntry symbolCount) :=
  if h : sym.toNat < symbolCount then .ok (codes.set sym.toNat ⟨true, BitVec.ofNat 9 len, bits⟩ h)
  else .error .codeIndexOutOfRange

/-- `Visit(i, len, bits)` (R171), with a bound on its depth: a path of a tree in `NODE` has at most 513 nodes (R42). -/
def visitCodes (nodes : Vector Node nodeCap) :
    Nat → NodeIdx → Nat → PathBits → Vector CodeEntry symbolCount → Except Fault (Vector CodeEntry symbolCount)
  | 0, _, _, _, _ => .error .treeWalkEndless
  | depth + 1, i, len, bits, codes =>
    match nodeAt nodes i with
    | .error f => .error f
    | .ok e =>
      if e.leaf then setCode e.sym len bits codes
      else
        match visitCodes nodes depth e.left (len + 1) (2#256 * bits) codes with
        | .error f => .error f
        | .ok codes' => visitCodes nodes depth e.right (len + 1) (2#256 * bits + 1#256) codes'

/-- `for s in 0..256: CODE[s] <- {VALID 0, LEN 0, BITS 0}` (R171). -/
def noCodes : Vector CodeEntry symbolCount := Vector.replicate symbolCount CodeEntry.none

/-- The code table of the tree at `root` (R171); a root leaf gets the 1-bit code "0" (R173). -/
def codeTable (nodes : Vector Node nodeCap) (root : NodeIdx) : Except Fault (Vector CodeEntry symbolCount) :=
  match nodeAt nodes root with
  | .error f => .error f
  | .ok e => if e.leaf then setCode e.sym 1 0#256 noCodes else visitCodes nodes nodeCap root 0 0#256 noCodes

/-- GEN_CODES (R171). -/
def genCodes (s : State) : Run Unit :=
  needTree s fun s =>
    match codeTable s.nodes s.root with
    | .error f => .stuck f
    | .ok codes => .ok () { s with codes := codes, codesValid := true }

/-! ### Header serialization -/

/-- `Ser(i)` (R180, R115), with a bound on its depth: the bits of the preorder serialization. -/
def serializeTree (nodes : Vector Node nodeCap) : Nat → NodeIdx → Except Fault (List Bool)
  | 0, _ => .error .treeWalkEndless
  | depth + 1, i =>
    match nodeAt nodes i with
    | .error f => .error f
    | .ok e =>
      if e.leaf then .ok (true :: msbBits 9 e.sym)
      else
        match serializeTree nodes depth e.left with
        | .error f => .error f
        | .ok l =>
          match serializeTree nodes depth e.right with
          | .error f => .error f
          | .ok r => .ok (false :: (l ++ r))

/-- EMIT_HEADER for the tree mode and a given magic number (R180, R114). -/
def writeHeader (magic : Word) (s : State) : Run Unit :=
  needTree s fun s =>
    match serializeTree s.nodes nodeCap s.root with
    | .error f => .stuck f
    | .ok bits => .ok () (appendOut bits (writeBits 32 magic s))

/-- EMIT_HEADER m (R180): the mode is checked before the tree (R315). -/
def emitHeader : HeaderMode → State → Run Unit
  | .counts, s => .raised .unsupportedMode s
  | .tree, s => writeHeader Config.magicTree s

/-! ### Code emission -/

/-- `EncodeSym(s)` (R185): nothing is written of a symbol that has no code (R308). -/
def encodeSym (sym : Sym) (s : State) : Run Unit :=
  match codeOf s sym with
  | some c => .ok () (writeBits c.len.toNat c.bits s)
  | none => .raised .unmappedSymbol s

/-- The loop of ENCODE_STREAM (R187), with a bound on its rounds (R361: at most `|IN| + 1`). -/
def encodeLoop : Nat → State → Run Unit
  | 0, s => .ok () s
  | n + 1, s =>
    match readBits 8 s with
    | (none, s') => .ok () s'
    | (some v, s') => (encodeSym (byteSym v) s').bind fun _ s'' => encodeLoop n s''

/-- ENCODE_STREAM (R187): the codes of the bytes, then the EOS code. -/
def encodeStream (s : State) : Run Unit :=
  needCodes s fun s => (encodeLoop (s.input.length + 1) s).bind fun _ s' => encodeSym eosSym s'

/-! ### The compressor -/

/-- COMPRESS in tree mode (R190), for a given magic number: the source's steps in order. -/
def compressTree (magic : Word) (s : State) : Run Unit :=
  (countStream (clearHist (rewind s))).bind fun _ s =>
  (genCodes (buildTree s)).bind fun _ s =>
  (writeHeader magic s).bind fun _ s =>
  (encodeStream (rewind s)).bind fun _ s =>
  .ok () (flush s)

/-- COMPRESS m (R190). -/
def compress : HeaderMode → State → Run Unit
  | .counts, s => .raised .unsupportedMode s
  | .tree, s => compressTree Config.magicTree s

/-! ### The meanings -/

/-- GEN_CODES (R171). -/
def execGenCodes (s : State) : Host.Outcome State Fault Refusal :=
  finish (opcodeOf .genCodes) (genCodes s)

/-- CODE_LEN s (R175). -/
def execCodeLen (sym : Sym) (s : State) : Host.Outcome State Fault Refusal :=
  finish (opcodeOf (.codeLen sym)) (needCodes s fun s => .ok () { s with result := codeLenWord sym s })

/-- CODE_BITS s, w (R176). -/
def execCodeBits (sym : Sym) (w : BitVec 3) (s : State) : Host.Outcome State Fault Refusal :=
  finish (opcodeOf (.codeBits sym w)) (needCodes s fun s => .ok () { s with result := codeBitsWord sym w s })

/-- EMIT_HEADER m (R180). -/
def execEmitHeader (m : HeaderMode) (s : State) : Host.Outcome State Fault Refusal :=
  finish (opcodeOf (.emitHeader m)) (emitHeader m s)

/-- ENCODE_BYTE b (R185). -/
def execEncodeByte (b : Byte) (s : State) : Host.Outcome State Fault Refusal :=
  finish (opcodeOf (.encodeByte b)) (needCodes s (encodeSym (byteSym b)))

/-- ENCODE_EOS (R186). -/
def execEncodeEos (s : State) : Host.Outcome State Fault Refusal :=
  finish (opcodeOf .encodeEos) (needCodes s (encodeSym eosSym))

/-- ENCODE_STREAM (R187). -/
def execEncodeStream (s : State) : Host.Outcome State Fault Refusal :=
  finish (opcodeOf .encodeStream) (encodeStream s)

/-- COMPRESS m (R190). -/
def execCompress (m : HeaderMode) (s : State) : Host.Outcome State Fault Refusal :=
  finish (opcodeOf (.compress m)) (compress m s)

end Sys2Proof.Machine
end

