-- ==== Sys2Proof/Machine/Decoder.lean ====
section
/-! DEFINITION. The decoder commands (43_decoder.md): header read, symbol reconstruction, and the decompressor. -/

namespace Sys2Proof.Machine

/-! ### Header read -/

/-- `NODE[i] <- e` as a change of the state (R41). -/
def storeNode (i : Nat) (e : Node) (s : State) : State := { s with nodes := setNode i e s.nodes }

/-- The end of `ReadNode` for a leaf flag (R221): a 9-bit symbol field, checked (R227, R228). -/
def readLeaf (k : Nat) (s : State) : Run (Nat × Nat) :=
  match readBits 9 s with
  | (none, s') => .raised .truncated s'
  | (some sym, s') =>
    if sym.toNat > 256 then .raised .badSymbol s' else .ok (k, k + 1) (storeNode k (leafNode sym 0#40) s')

/-- `ReadNode()` (R221, R223) with `k` nodes allocated so far: the index of the node read, and the new `k`. The first argument
bounds the depth at the node capacity: `k` is at least the depth, so at the bound `k` is 513 and the next node is the one that
R225 refuses. -/
def readNode : Nat → Nat → State → Run (Nat × Nat)
  | 0, _, s => .raised .headerOverflow s
  | depth + 1, k, s =>
    if k = nodeCap then .raised .headerOverflow s
    else
      match readBits 1 s with
      | (none, s1) => .raised .truncated s1
      | (some flag, s1) =>
        if flag = 1#1 then readLeaf k s1
        else
          (readNode depth (k + 1) s1).bind fun l s2 =>
          (readNode depth l.2 s2).bind fun r s3 =>
          .ok (k, r.2) (storeNode k (internalNode 0#40 (BitVec.ofNat 10 l.1) (BitVec.ofNat 10 r.1)) s3)

/-- The first line of READ_HEADER (R221): the old tree is invalidated first, whatever the outcome. -/
def invalidateTree (s : State) : State :=
  { s with treeValid := false, codesValid := false, nodeCount := 0#10, root := 0#10, eos := false }

/-- READ_HEADER after an accepted magic number (R221). DESIGN CHOICE: node entries at or above `NODE_COUNT`, unspecified by R41, keep
what they held, and after an error what was stored before it (assumption log 24). -/
def loadTree (s : State) : Run Unit :=
  (readNode nodeCap 0 s).bind fun r s' =>
    .ok () { s' with nodeCount := BitVec.ofNat 10 r.2, root := BitVec.ofNat 10 r.1, treeValid := true, treeSrc := true }

/-- READ_HEADER (R221, R222) for given magic numbers. -/
def readHeaderWith (magicTree magicCounts : Word) (s : State) : Run Unit :=
  match readBits 32 (invalidateTree s) with
  | (none, s') => .raised .format s'
  | (some magic, s') =>
    if magic = magicCounts then .raised .unsupportedMode s'
    else if magic = magicTree then loadTree s'
    else .raised .format s'

/-- READ_HEADER (R221). -/
def readHeader (s : State) : Run Unit := readHeaderWith Config.magicTree Config.magicCounts s

/-! ### Symbol reconstruction -/

/-- The child a bit descends to (R230): 0 left, 1 right. -/
def childOf (e : Node) (b : BitVec 1) : NodeIdx := if b = 0#1 then e.left else e.right

/-- The loop of `DecodeOne` from an internal node (R230), with a bound on its rounds: each one reads a bit, so with none left
the read answers NO_DATA. -/
def walkToLeaf : Nat → Node → State → Run Sym
  | 0, _, s => .raised .truncated { s with inPos := inBits s }
  | n + 1, e, s =>
    match readBits 1 s with
    | (none, s') => .raised .truncated s'
    | (some b, s') =>
      match nodeAt s'.nodes (childOf e b) with
      | .error f => .stuck f
      | .ok c => if c.leaf then .ok c.sym s' else walkToLeaf n c s'

/-- The end of `DecodeOne` (R230): `RESULT`, `EOS`, and the symbol's byte value unless it is EOS. -/
def emitSym (sym : Sym) (s : State) : Run Sym :=
  if sym = eosSym then .ok sym { s with result := sym.setWidth 32, eos := true }
  else .ok sym (writeBits 8 sym { s with result := sym.setWidth 32, eos := false })

/-- `DecodeOne()` (R230); a root leaf consumes one bit of any value (R231). -/
def decodeOne (s : State) : Run Sym :=
  match nodeAt s.nodes s.root with
  | .error f => .stuck f
  | .ok e =>
    if e.leaf then
      match readBits 1 s with
      | (none, s') => .raised .truncated s'
      | (some _, s') => emitSym e.sym s'
    else (walkToLeaf (bitsLeft s + 1) e s).bind emitSym

/-- The loop of DECODE_STREAM (R235), with a bound on its rounds (R245): each round reads a bit, so with none left it is
TRUNCATED. -/
def decodeLoop : Nat → State → Run Unit
  | 0, s => .raised .truncated { s with inPos := inBits s }
  | n + 1, s =>
    (decodeOne s).bind fun sym s' => if sym = eosSym then .ok () s' else decodeLoop n s'

/-- DECODE_SYM (R230). -/
def decodeSymbol (s : State) : Run Unit :=
  needTree s fun s => (decodeOne s).bind fun _ s' => .ok () s'

/-- DECODE_STREAM (R235). -/
def decodeStream (s : State) : Run Unit := needTree s fun s => decodeLoop (bitsLeft s + 1) s

/-! ### The decompressor -/

/-- DECOMPRESS (R238) for given magic numbers. -/
def decompressWith (magicTree magicCounts : Word) (s : State) : Run Unit :=
  (readHeaderWith magicTree magicCounts (rewind s)).bind fun _ s' => decodeStream s'

/-- DECOMPRESS (R238). -/
def decompress (s : State) : Run Unit := decompressWith Config.magicTree Config.magicCounts s

/-! ### The meanings -/

/-- READ_HEADER (R221). -/
def execReadHeader (s : State) : Host.Outcome State Fault Refusal :=
  finish (opcodeOf .readHeader) (readHeader s)

/-- DECODE_SYM (R230). -/
def execDecodeSym (s : State) : Host.Outcome State Fault Refusal :=
  finish (opcodeOf .decodeSym) (decodeSymbol s)

/-- DECODE_STREAM (R235). -/
def execDecodeStream (s : State) : Host.Outcome State Fault Refusal :=
  finish (opcodeOf .decodeStream) (decodeStream s)

/-- DECOMPRESS (R238). -/
def execDecompress (s : State) : Host.Outcome State Fault Refusal :=
  finish (opcodeOf .decompress) (decompress s)

end Sys2Proof.Machine
end

