-- ==== Sys2Proof/Machine/Dispatch.lean ====
section
/-! DEFINITION. `perform c by its rule` (30_encoding.md rule R109): one arm per command. The latched-error check of R109 and
`BUSY <- 0` stand in Machine/Engine.lean, around it (assumption log 16). -/

namespace Sys2Proof.Machine

def exec (i : Instr) (s : State) : Host.Outcome State Fault Refusal :=
  match i with
  | .nop => Sys2Proof.Machine.execNop s
  | .errClear => Sys2Proof.Machine.execErrClear s
  | .softReset => Sys2Proof.Machine.execSoftReset s
  | .srcRewind => Sys2Proof.Machine.execSrcRewind s
  | .outFlush => Sys2Proof.Machine.execOutFlush s
  | .histClear => Sys2Proof.Machine.execHistClear s
  | .histCount b => Sys2Proof.Machine.execHistCount b s
  | .histCountStream => Sys2Proof.Machine.execHistCountStream s
  | .histRead b => Sys2Proof.Machine.execHistRead b s
  | .buildTree => Sys2Proof.Machine.execBuildTree s
  | .nodeRead n => Sys2Proof.Machine.execNodeRead n s
  | .genCodes => Sys2Proof.Machine.execGenCodes s
  | .codeLen c => Sys2Proof.Machine.execCodeLen c s
  | .codeBits c w => Sys2Proof.Machine.execCodeBits c w s
  | .emitHeader m => Sys2Proof.Machine.execEmitHeader m s
  | .encodeByte b => Sys2Proof.Machine.execEncodeByte b s
  | .encodeEos => Sys2Proof.Machine.execEncodeEos s
  | .encodeStream => Sys2Proof.Machine.execEncodeStream s
  | .compress m => Sys2Proof.Machine.execCompress m s
  | .readHeader => Sys2Proof.Machine.execReadHeader s
  | .decodeSym => Sys2Proof.Machine.execDecodeSym s
  | .decodeStream => Sys2Proof.Machine.execDecodeStream s
  | .decompress => Sys2Proof.Machine.execDecompress s

end Sys2Proof.Machine
end

