-- ==== Sys2Proof/Machine/Engine.lean ====
section
/-! DEFINITION. The engine step: `Execute(PENDING)` (30_encoding.md rule R109), then `BUSY <- 0` (10_state.md rule R32). -/

namespace Sys2Proof.Machine

/-- The two commands that run while an error is latched (R109, R313). -/
def runsWhileLatched : Instr → Bool
  | .errClear => true
  | .softReset => true
  | .nop => false
  | .srcRewind => false
  | .outFlush => false
  | .histClear => false
  | .histCount _ => false
  | .histCountStream => false
  | .histRead _ => false
  | .buildTree => false
  | .nodeRead _ => false
  | .genCodes => false
  | .codeLen _ => false
  | .codeBits _ _ => false
  | .emitHeader _ => false
  | .encodeByte _ => false
  | .encodeEos => false
  | .encodeStream => false
  | .compress _ => false
  | .readHeader => false
  | .decodeSym => false
  | .decodeStream => false
  | .decompress => false

/-- `Execute(w)` (R109): with an error latched, every word but ERR_CLEAR and SOFT_RESET has no effect (R313); an illegal word
raises ILLEGAL_CMD with its opcode byte (R304). -/
def execute (w : Word) (s : State) : Host.Outcome State Fault Refusal :=
  match decode w with
  | .command i => if s.errCode = 0#4 || runsWhileLatched i then exec i s else .next s
  | .illegal _ => if s.errCode = 0#4 then finish (opcodeByte w) (.raised .illegalCmd s) else .next s

/-- The end of an engine step (R32): `BUSY <- 0`. DESIGN CHOICE: `PENDING`, unspecified while `BUSY = 0`, keeps the executed word
(assumption log 23). -/
def clearBusy : Host.Outcome State Fault Refusal → Host.Outcome State Fault Refusal
  | .next s => .next { s with busy := false }
  | .fault f => .fault f
  | .refused r => .refused r

/-- The engine's turn (R32): enabled only when `BUSY = 1`; an idle block keeps all state (R325; assumption log 17). -/
def engineStep (s : State) : Host.Outcome State Fault Refusal :=
  if s.busy then clearBusy (execute s.pending s) else .next s

end Sys2Proof.Machine
end

