-- ==== Sys2Proof/Machine/Flags.lean ====
section
/-! DEFINITION. The register port's read side: `STATUS` and the other registers, assembled from the state on each read
(10_state.md rules R31 to R39). -/

namespace Sys2Proof.Machine

/-- `STATUS.ERR` (R35): 1 iff an error is latched. -/
def errFlag (s : State) : Bool := s.errCode != 0#4

/-- `STATUS` (R34), from bit 31 down. -/
def statusWord (s : State) : Word :=
  0#8 ++ s.errOpc ++ 0#4 ++ s.errCode ++ 0#1 ++ BitVec.ofBool s.treeSrc ++ BitVec.ofBool s.eos ++ BitVec.ofBool s.codesValid
    ++ BitVec.ofBool s.treeValid ++ BitVec.ofBool s.ovr ++ BitVec.ofBool (errFlag s) ++ BitVec.ofBool s.busy

/-- `TREE_INFO` (R37): `ROOT` in [25:16], `NODE_COUNT` in [9:0]. -/
def treeInfoWord (s : State) : Word := 0#6 ++ s.root ++ 0#6 ++ s.nodeCount

/-- The value of register `r` (R31). -/
def readRegister (r : BitVec 4) (s : State) : Word :=
  match r.toNat with
  | 0 => 0#32
  | 1 => statusWord s
  | 2 => s.result
  | 3 => treeInfoWord s
  | 4 => BitVec.ofNat 32 s.inPos
  | 5 => BitVec.ofNat 32 s.input.length
  | 6 => BitVec.ofNat 32 s.out.length
  | _ => 0#32

/-- The byte offset of register `r` (R31). -/
def registerOffset (r : BitVec 4) : Nat := 4 * r.toNat

/-- Where register `r` sits in the host's address map (R81); no rule uses it (assumption log 2). -/
def registerAddress (r : BitVec 4) : Nat := Config.huffBase + registerOffset r

end Sys2Proof.Machine
end

