-- ==== Sys2Proof/Machine/HostPort.lean ====
section
/-! DEFINITION. The host interface (44_control.md section 2): the host's actions, hardware reset (70_reset_and_hazards.md rule
R341), and the host-program expansions of 30_encoding.md rule R119. -/

namespace Sys2Proof.Machine

/-- The register number of `CMD` (R31). -/
abbrev cmdReg : BitVec 4 := 0#4

/-- The register number of `STATUS` (R31). -/
abbrev statusReg : BitVec 4 := 1#4

/-- `WRITE CMD, v`: latched if `BUSY = 0` (R291), otherwise dropped with `OVR <- 1` (R292). -/
def writeCmd (v : Word) (s : State) : State :=
  if s.busy then { s with ovr := true } else { s with pending := v, busy := true }

/-- `WRITE r, v` (R291, R295): a write to any register but `CMD` changes no state. -/
def writeRegister (r : BitVec 4) (v : Word) (s : State) : State :=
  if r = cmdReg then writeCmd v s else s

/-- The host is given a value. -/
def give (x : Seen) (s : State) : State := { s with seen := s.seen ++ [x] }

/-- `READ r` (R295): the register's value goes to the host; HUFF-CORE does not change. -/
def hostRead (r : BitVec 4) (s : State) : State := give (.register r (readRegister r s)) s

/-- `LOAD_IN bytes` (R293). -/
def loadIn (bytes : List Byte) (s : State) : State := { s with input := bytes, inPos := 0 }

/-- `DRAIN_OUT` (R294): the host is given OUT, which is then empty. -/
def drainOut (s : State) : State := { give (.drained s.out) s with out := [] }

/-- `HW_RESET` (R341): a pending command is discarded; `PENDING` is unspecified, a free value (assumption log 8). -/
def hwReset (s : State) : State :=
  { setResetValues s with busy := false, pending := Config.freePending s.draws, draws := s.draws + 1 }

/-- `WAIT` (R119): `STATUS` is read; while `BUSY` reads 1 the engine moves, and the host reads again (assumption log 18). -/
def hostWait (s : State) : State :=
  if s.busy then { hostRead statusReg s with turns := .engine :: .host .wait :: s.turns } else hostRead statusReg s

/-- `CHECK` (R119): `STATUS` is read; if `ERR` reads 1 the host program stops (assumption log 18). DESIGN CHOICE: the stop leaves
no mark but the read in `seen`, so a command still latched may clear the error before the run's end (assumption log 22). -/
def hostCheck (s : State) : State :=
  if errFlag s then { hostRead statusReg s with turns := [] } else hostRead statusReg s

/-- A stream action of the host, enabled only while `BUSY = 0` (R88, R293, R294; assumption log 5). -/
def whileIdle (s : State) (s' : State) : Host.Outcome State Fault Refusal :=
  if s.busy then .fault .hostActionNotEnabled else .next s'

/-- The host's turn (R290): one action, one atomic transition. -/
def hostStep (a : HostAction) (s : State) : Host.Outcome State Fault Refusal :=
  match a with
  | .write r v => .next (writeRegister r v s)
  | .read r => .next (hostRead r s)
  | .loadIn bytes => whileIdle s (loadIn bytes s)
  | .drainOut => whileIdle s (drainOut s)
  | .hwReset => .next (hwReset s)
  | .wait => .next (hostWait s)
  | .check => .next (hostCheck s)

/-- `ISSUE c` (R119): `WRITE CMD, enc(c); WAIT`. -/
def issue (c : Instr) : List Turn := [.host (.write cmdReg (encode c)), .host .wait]

/-- `COUNT_STRING` (R119): one HIST_COUNT for each byte. -/
def countString (bytes : List Byte) : List Turn := bytes.flatMap fun b => issue (.histCount b)

/-- `ENCODE_STRING` (R119): one ENCODE_BYTE for each byte. -/
def encodeString (bytes : List Byte) : List Turn := bytes.flatMap fun b => issue (.encodeByte b)

end Sys2Proof.Machine
end

