-- ==== Sys2Proof/Machine/Turns.lean ====
section
/-! DEFINITION. Which agent moves (10_state.md rule R32, 20_memory.md rule R83): the turns of the state, in order. -/

namespace Sys2Proof.Machine

/-- The next turn (assumption log 3): the first one listed; with none listed the host does nothing more, and the engine is
left to finish what is latched (R296) and is then idle (R325). -/
def nextTurn (s : State) : Host.Outcome State Fault Refusal :=
  match s.turns with
  | [] => engineStep s
  | .engine :: rest => engineStep { s with turns := rest }
  | .host a :: rest => hostStep a { s with turns := rest }

/-- `s` with a command word latched, as R291 does, and the engine's turn next (assumption log 13): the word's low `nbits` bits
are those of `w`, the others 0. -/
def latchWord (s : State) (nbits w : Nat) : State :=
  { s with pending := BitVec.ofNat 32 (w % 2 ^ nbits), busy := true, turns := .engine :: s.turns }

end Sys2Proof.Machine
end

