-- ==== Sys2Proof/Machine/Step.lean ====
section
/-! DEFINITION. One step of the machine, and how the host's check places an instruction. -/

namespace Sys2Proof.Machine

/-- One atomic transition (R32, R83): the next turn's. -/
def step (s : State) : Host.Outcome State Fault Refusal := Sys2Proof.Machine.nextTurn s

/-- `s` with the command word `w` latched (R291 has the host do this) and the engine's turn next, so that the next step executes
exactly it (assumption log 13). -/
def State.withFetchWord (s : State) (nbits w : Nat) : State := Sys2Proof.Machine.latchWord s nbits w

end Sys2Proof.Machine
end

