-- ==== Sys2Proof/Machine/Assembler.lean ====
section
/-! DEFINITION. The assembler syntax of 30_encoding.md rule R118: one command per line, `MNEMONIC [operand [, operand]] [; comment]`.
An answer `none` is an assembly error. -/

namespace Sys2Proof

/-- The quotation mark of a character literal. -/
def quoteMark : Char := Char.ofNat 39

/-- A character literal starts here: a quotation mark, any character, a quotation mark (R118). -/
def literalHere : List Char → Bool
  | a :: _ :: c :: _ => a = quoteMark && c = quoteMark
  | _ => false

/-- The text before the first `sep`, and the text after it if there is one; a `sep` inside a character literal is not one. The
first argument counts the characters still inside a literal. -/
def cutFrom (sep : Char) : Nat → List Char → List Char × Option (List Char)
  | _, [] => ([], none)
  | k + 1, a :: rest => (a :: (cutFrom sep k rest).1, (cutFrom sep k rest).2)
  | 0, a :: rest =>
    if a = sep then ([], some rest)
    else if literalHere (a :: rest) then (a :: (cutFrom sep 2 rest).1, (cutFrom sep 2 rest).2)
    else (a :: (cutFrom sep 0 rest).1, (cutFrom sep 0 rest).2)

/-- The text before the first `sep` outside a character literal, and the text after it. -/
def cutAt (sep : Char) (cs : List Char) : List Char × Option (List Char) := cutFrom sep 0 cs

/-- The text without blanks at either end. -/
def trimBlanks (cs : List Char) : List Char :=
  ((cs.dropWhile (· = ' ')).reverse.dropWhile (· = ' ')).reverse

/-- The operand texts of an operand list, at most `n` of them. -/
def operandTexts : Nat → List Char → List (List Char)
  | 0, _ => []
  | n + 1, cs =>
    match cutAt ',' cs with
    | (x, none) => [trimBlanks x]
    | (x, some rest) => trimBlanks x :: operandTexts n rest

/-- The value of a digit, decimal or hexadecimal. -/
def digitValue (c : Char) : Option Nat :=
  if '0' ≤ c ∧ c ≤ '9' then some (c.toNat - '0'.toNat)
  else if 'a' ≤ c ∧ c ≤ 'f' then some (c.toNat - 'a'.toNat + 10)
  else if 'A' ≤ c ∧ c ≤ 'F' then some (c.toNat - 'A'.toNat + 10)
  else none

/-- The number written with these digits in a base; none if one is no digit of the base. -/
def digitsValue (base : Nat) (cs : List Char) : Option Nat :=
  cs.foldl (fun acc c =>
    match acc, digitValue c with
    | some v, some d => if d < base then some (base * v + d) else none
    | _, _ => none) (some 0)

/-- A number of R118: decimal, `0x` hexadecimal, or a character literal, the byte value of its ASCII character. -/
def parseNumber : List Char → Option Nat
  | [] => none
  | [q, c, q'] =>
    if q = quoteMark ∧ q' = quoteMark then (if c.toNat < 128 then some c.toNat else none)
    else if q = '0' ∧ c = 'x' then digitsValue 16 [q']
    else digitsValue 10 [q, c, q']
  | '0' :: 'x' :: ds => if ds = [] then none else digitsValue 16 ds
  | ds => digitsValue 10 ds

/-- An operand of a format (R118): `tree` or `counts` for format M, a number for the others. -/
def parseOperand : Format → List Char → Option Nat
  | .m, cs => if cs = "tree".toList then some 0 else if cs = "counts".toList then some 1 else none
  | _, cs => parseNumber cs

/-- All of a list of results, or none. -/
def allSome : List (Option Nat) → Option (List Nat)
  | [] => some []
  | none :: _ => none
  | some x :: xs => (allSome xs).map (x :: ·)

/-- The opcode byte of a mnemonic (R108, R118). -/
def mnemonicOp : String → Option Byte
  | "NOP" => some 0x00#8
  | "ERR_CLEAR" => some 0x01#8
  | "SOFT_RESET" => some 0x02#8
  | "SRC_REWIND" => some 0x03#8
  | "OUT_FLUSH" => some 0x04#8
  | "HIST_CLEAR" => some 0x10#8
  | "HIST_COUNT" => some 0x11#8
  | "HIST_COUNT_STREAM" => some 0x12#8
  | "HIST_READ" => some 0x13#8
  | "BUILD_TREE" => some 0x14#8
  | "NODE_READ" => some 0x15#8
  | "GEN_CODES" => some 0x20#8
  | "CODE_LEN" => some 0x21#8
  | "CODE_BITS" => some 0x22#8
  | "EMIT_HEADER" => some 0x23#8
  | "ENCODE_BYTE" => some 0x24#8
  | "ENCODE_EOS" => some 0x25#8
  | "ENCODE_STREAM" => some 0x26#8
  | "COMPRESS" => some 0x27#8
  | "READ_HEADER" => some 0x30#8
  | "DECODE_SYM" => some 0x31#8
  | "DECODE_STREAM" => some 0x32#8
  | "DECOMPRESS" => some 0x33#8
  | _ => none

/-- A line of text read as an opcode byte and operands (R118). -/
def parseLine (text : String) : Option AsmLine :=
  let code := trimBlanks (cutAt ';' text.toList).1
  let name := code.takeWhile (· ≠ ' ')
  let rest := trimBlanks (code.dropWhile (· ≠ ' '))
  match mnemonicOp (String.ofList name) with
  | none => none
  | some op =>
    match formatOf op with
    | none => none
    | some f =>
      let texts := if rest = [] then [] else operandTexts rest.length rest
      (allSome (texts.map (parseOperand f))).map fun args => ⟨op, args⟩

/-- The number the operands put into bits [23:0] (R101 to R106). -/
def argsField : Format → List Nat → Nat
  | .sw, [s, w] => 512 * w + s
  | _, [x] => x
  | _, _ => 0

/-- The word of a line: none, an assembly error, where an operand is out of its field's range (R118). -/
def assembleLine (l : AsmLine) : Option Word :=
  match formatOf l.op with
  | some f => if argsFit f l.args then some (l.op ++ BitVec.ofNat 24 (argsField f l.args)) else none
  | none => none

/-- The word of a line of text (R118). -/
def assemble (text : String) : Option Word :=
  match parseLine text with
  | some l => assembleLine l
  | none => none

/-- The operands of a command as numbers, in the order of R118. -/
def argsOf : Instr → List Nat
  | .histCount b => [b.toNat]
  | .histRead b => [b.toNat]
  | .encodeByte b => [b.toNat]
  | .nodeRead i => [i.toNat]
  | .codeLen s => [s.toNat]
  | .codeBits s w => [s.toNat, w.toNat]
  | .emitHeader m => [(modeBit m).toNat]
  | .compress m => [(modeBit m).toNat]
  | .nop => []
  | .errClear => []
  | .softReset => []
  | .srcRewind => []
  | .outFlush => []
  | .histClear => []
  | .histCountStream => []
  | .buildTree => []
  | .genCodes => []
  | .encodeEos => []
  | .encodeStream => []
  | .readHeader => []
  | .decodeSym => []
  | .decodeStream => []
  | .decompress => []

/-- The assembler line of a command. -/
def lineOf (i : Instr) : AsmLine := ⟨opcodeOf i, argsOf i⟩

end Sys2Proof
end

