-- ==== Sys2Proof/Safety.lean ====
section
/-! DEFINITION. What a good state and a good run are, in the terms claims use: the tree that the node memory holds, the
invariants of 10_state.md (R42, R44, R51), and a run's end (44_control.md rule R298). -/

namespace Sys2Proof

open Machine

/-! ### The tree in the node memory -/

/-- A Huffman tree with the node index of each of its nodes (R20, R42): a leaf has a symbol, an internal node two children. -/
inductive Tree where
  | leaf (i : Nat) (sym : Sym)
  | node (i : Nat) (l r : Tree)
  deriving DecidableEq, Repr

/-- The node indices in preorder. -/
def Tree.indices : Tree → List Nat
  | .leaf i _ => [i]
  | .node i l r => i :: (l.indices ++ r.indices)

/-- The number of nodes. -/
def Tree.size (t : Tree) : Nat := t.indices.length

/-- The leaves in preorder, each with its edge path from the root: `false` for a left edge "0", `true` for a right edge "1"
(R20). -/
def Tree.leaves : Tree → List (Sym × List Bool)
  | .leaf _ sym => [(sym, [])]
  | .node _ l r => (l.leaves.map fun x => (x.1, false :: x.2)) ++ (r.leaves.map fun x => (x.1, true :: x.2))

/-- The preorder serialization (R115): `0` for an internal node, then its subtrees; `1` and a 9-bit symbol for a leaf. -/
def Tree.bits : Tree → List Bool
  | .leaf _ sym => true :: msbBits 9 sym
  | .node _ l r => false :: (l.bits ++ r.bits)

/-- The nodes in preorder, as the header gives them (R115): `none` for an internal node, a leaf's symbol otherwise. -/
def Tree.tokens : Tree → List (Option Sym)
  | .leaf _ sym => [some sym]
  | .node _ l r => none :: (l.tokens ++ r.tokens)

/-- The header bits of one node (R115). -/
def tokenBits : Option Sym → List Bool
  | none => [false]
  | some sym => true :: msbBits 9 sym

/-- The same tree with its nodes numbered in preorder from `k` on (R223). -/
def Tree.renumber (k : Nat) : Tree → Tree
  | .leaf _ sym => .leaf k sym
  | .node _ l r => .node k (l.renumber (k + 1)) (r.renumber (k + 1 + l.size))

/-- The descent from a node along the bits of a stream (R230): the leaf symbol reached and the bits read; `none` when the
stream ends first. -/
def Tree.descend : Tree → List Bool → Option (Sym × Nat)
  | .leaf _ sym, _ => some (sym, 0)
  | .node _ _ _, [] => none
  | .node _ l r, b :: bs =>
    match (if b then r else l).descend bs with
    | some (sym, n) => some (sym, n + 1)
    | none => none

/-- One symbol of a stream (R230): a root leaf consumes one bit of any value (R231). -/
def Tree.decodeOne : Tree → List Bool → Option (Sym × Nat)
  | .leaf _ _, [] => none
  | .leaf _ sym, _ :: _ => some (sym, 1)
  | .node i l r, bs => (Tree.node i l r).descend bs

/-- The codes of a tree (R171): the leaves' paths in preorder; the one leaf of a root-leaf tree has the code "0" (R173). -/
def Tree.codes : Tree → List (Sym × List Bool)
  | .leaf _ sym => [(sym, [false])]
  | .node i l r => (Tree.node i l r).leaves

/-- The code of a symbol: that of its last leaf in preorder (R171, decision D20). -/
def Tree.codeFor (t : Tree) (sym : Sym) : Option (List Bool) := (t.codes.reverse.lookup sym)

/-- The tree below entry `i` of a node memory; `none` where the entries form no tree of depth below the bound. -/
def treeAt (nodes : Vector Node nodeCap) : Nat → Nat → Option Tree
  | 0, _ => none
  | depth + 1, i =>
    match nodes[i]? with
    | none => none
    | some e =>
      if e.leaf then some (.leaf i e.sym)
      else
        match treeAt nodes depth e.left.toNat, treeAt nodes depth e.right.toNat with
        | some l, some r => some (.node i l r)
        | _, _ => none

/-- The tree rooted at `ROOT` (R42). -/
def currentTree (s : State) : Option Tree := treeAt s.nodes nodeCap s.root.toNat

/-! ### Invariants -/

/-- The fields of a node entry agree with its kind (R41), and a leaf's symbol is at most 256 (R51). -/
abbrev EntryOk (e : Node) : Prop :=
  (e.leaf = true → e.sym.toNat ≤ 256 ∧ e.left = noChild ∧ e.right = noChild) ∧ (e.leaf = false → e.sym = internalSym)

/-- `t` is the one full binary tree of the entries below `NODE_COUNT`, each in it exactly once (R42), of a built or a loaded
tree's numbering (R51, R140, R224). -/
structure TreeFits (s : State) (t : Tree) : Prop where
  rooted : currentTree s = some t
  exact : t.indices.Perm (List.range s.nodeCount.toNat)
  entries : ∀ i, ∀ h : i < nodeCap, i < s.nodeCount.toNat → EntryOk s.nodes[i]
  built : s.treeSrc = false →
    s.root.toNat = s.nodeCount.toNat - 1 ∧ (t.leaves.map Prod.fst).Nodup ∧ eosSym ∈ t.leaves.map Prod.fst
  loaded : s.treeSrc = true → s.root.toNat = 0 ∧ t.indices = List.range s.nodeCount.toNat

/-- R42: when `TREE_VALID = 1` the node memory holds one full binary tree. -/
def TreeOk (s : State) : Prop := s.treeValid = true → ∃ t, TreeFits s t

/-- R44: when `CODES_VALID = 1` the code table is the one GEN_CODES computes from the current tree. -/
def CodesOk (s : State) : Prop := s.codesValid = true → codeTable s.nodes s.root = .ok s.codes

/-- The invariants of R51 about the registers (R42, R46, R73), and the range of `NODE_COUNT` (R42) and of `ERR_CODE` (R301). -/
structure RegistersOk (s : State) : Prop where
  treeCount : s.treeValid = true ↔ 1 ≤ s.nodeCount.toNat
  countRange : s.nodeCount.toNat ≤ nodeCap
  codesNeedTree : s.codesValid = true → s.treeValid = true
  noErrorNoOpcode : s.errCode = 0#4 → s.errOpc = 0#8
  errorRange : s.errCode.toNat ≤ 10
  cursor : s.inPos ≤ inBits s

/-- The invariants of 10_state.md section 7. -/
structure Inv (s : State) : Prop where
  registers : RegistersOk s
  tree : TreeOk s
  codes : CodesOk s

/-! ### What commands are said to compute -/

/-- The bits a word must have 0 in each format: its reserved bits (R101 to R106). -/
def reservedMask : Format → Word
  | .n => 0x00FFFFFF#32
  | .b => 0x00FFFF00#32
  | .s => 0x00FFFE00#32
  | .sw => 0x00FFF000#32
  | .i => 0x00FFFC00#32
  | .m => 0x00FFFFFE#32

/-- The whole 8-bit units of IN from the cursor on (R133, R79). -/
def unitsFrom (s : State) : List Byte :=
  (List.range (bitsLeft s / 8)).map fun k => BitVec.ofNat 8 (bitsValue (streamBits s.input (s.inPos + 8 * k) 8))

/-- The histogram with these bytes counted onto it (R133, R143). -/
def histPlus (s : State) (bytes : List Byte) : Vector Word byteValues :=
  Vector.ofFn fun b : Fin byteValues => s.hist[b] + BitVec.ofNat 32 (bytes.count (BitVec.ofNat 8 b))

/-- The histogram of a byte sequence (R20). -/
def histOf (bytes : List Byte) : Vector Word byteValues :=
  Vector.ofFn fun b : Fin byteValues => BitVec.ofNat 32 (bytes.count (BitVec.ofNat 8 b))

/-- The byte values that occur, in ascending order (R137). -/
def occurring (s : State) : List Byte := allBytes.filter fun b => histAt s b ≠ 0#32

/-- `L`, the number of leaves BUILD_TREE makes (R137). -/
def leafCount (s : State) : Nat := (occurring s).length + 1

/-- Node `j` is in the queue just before node `n` is made, of a tree with `leaves` leaves: it exists, and no node made before
`n` has it as a child (R138). -/
def Queued (nodes : Vector Node nodeCap) (leaves n j : Nat) : Prop :=
  j < n ∧ ∀ m e, leaves ≤ m → m < n → nodes[m]? = some e → e.left.toNat ≠ j ∧ e.right.toNat ≠ j

/-- `(NODE[i].WEIGHT, i)` is below `(NODE[j].WEIGHT, j)` lexicographically (R136). -/
def Lower (nodes : Vector Node nodeCap) (i j : Nat) : Prop :=
  weightAt nodes i < weightAt nodes j ∨ (weightAt nodes i = weightAt nodes j ∧ i < j)

/-- The `CODE` entry of a code (R43), or of a symbol that has none. -/
def codeEntry : Option (List Bool) → CodeEntry
  | none => CodeEntry.none
  | some path => ⟨true, BitVec.ofNat 9 path.length, BitVec.ofNat 256 (bitsValue path)⟩

/-- The bit string a `CODE` entry stands for, first-emitted bit first (R43). -/
def entryBits (c : CodeEntry) : List Bool := msbBits c.len.toNat c.bits

/-- The bits of a symbol's code in the code table; none where it has no code (R116). -/
def symbolBits (s : State) (sym : Sym) : List Bool :=
  match codeOf s sym with
  | some c => entryBits c
  | none => []

/-- READ_HEADER's first effect (R221): the old tree is gone. -/
def withoutTree (s : State) : State :=
  { s with treeValid := false, codesValid := false, nodeCount := 0#10, root := 0#10, eos := false }

/-- The header bits at the cursor begin with these (R113). -/
def HeaderAt (s : State) (bits : List Bool) : Prop :=
  s.inPos + bits.length ≤ inBits s ∧ streamBits s.input s.inPos bits.length = bits

/-- A symbol field of the header is in range (R227), or the node is internal. -/
def TokenOk (x : Option Sym) : Prop := ∀ sym, x = some sym → sym.toNat ≤ 256

/-- The symbols of a stream up to EOS (R235), with a bound on their number: the symbols before EOS, the bits read, and whether
EOS was reached. -/
def Tree.decodeMany (t : Tree) : Nat → List Bool → List Sym × Nat × Bool
  | 0, _ => ([], 0, false)
  | n + 1, bits =>
    match t.decodeOne bits with
    | none => ([], 0, false)
    | some (sym, k) =>
      if sym = eosSym then ([], k, true)
      else
        match t.decodeMany n (bits.drop k) with
        | (syms, k', found) => (sym :: syms, k + k', found)

/-- The bits from the cursor to the end of IN. -/
def tailBits (s : State) : List Bool := streamBits s.input s.inPos (bitsLeft s)

/-- The bytes of these symbols, as bits (R230). -/
def symBytes (syms : List Sym) : List Bool := syms.flatMap fun sym => msbBits 8 sym

/-- The state after a stream of symbols before EOS was decoded (R230): each one sets `RESULT` and clears `EOS`. -/
def afterSyms (s : State) (syms : List Sym) : State :=
  match syms.getLast? with
  | none => s
  | some sym => { s with out := s.out ++ symBytes syms, result := sym.setWidth 32, eos := false }

/-! ### Which commands write what -/

/-- The commands that write `HIST` (R40), and SOFT_RESET (R272). -/
def writesHist (i : Instr) : Bool := [0x10#8, 0x11#8, 0x12#8, 0x27#8, 0x02#8].contains (opcodeOf i)

/-- The commands that write the node memory and the tree registers (R42), and SOFT_RESET (R272). -/
def writesTree (i : Instr) : Bool := [0x14#8, 0x27#8, 0x30#8, 0x33#8, 0x02#8].contains (opcodeOf i)

/-- The commands that write the code table (R43, R171); COMPRESS performs GEN_CODES (R190). -/
def writesCodes (i : Instr) : Bool := [0x20#8, 0x27#8].contains (opcodeOf i)

/-- The commands that write `RESULT` (R36), and SOFT_RESET (R272; assumption log 15). -/
def writesResult (i : Instr) : Bool := [0x13#8, 0x15#8, 0x21#8, 0x22#8, 0x31#8, 0x32#8, 0x33#8, 0x02#8].contains (opcodeOf i)

/-- The commands that write `EOS` (R34, R45). -/
def writesEos (i : Instr) : Bool := [0x30#8, 0x31#8, 0x32#8, 0x33#8, 0x02#8].contains (opcodeOf i)

/-- The commands that write `CODES_VALID` (R44), and COMPRESS and DECOMPRESS, which perform such ones. -/
def writesCodesValid (i : Instr) : Bool := [0x14#8, 0x20#8, 0x27#8, 0x30#8, 0x33#8, 0x02#8].contains (opcodeOf i)

/-- The commands that move `IN_POS` (R73): those that read bits, rewind, or reset. -/
def movesCursor (i : Instr) : Bool := [0x12#8, 0x26#8, 0x27#8, 0x30#8, 0x31#8, 0x32#8, 0x33#8, 0x03#8, 0x02#8].contains (opcodeOf i)

/-- The commands that append to OUT (R48). -/
def writesOut (i : Instr) : Bool := [0x23#8, 0x24#8, 0x25#8, 0x26#8, 0x27#8, 0x31#8, 0x32#8, 0x33#8, 0x04#8].contains (opcodeOf i)

/-! ### Runs -/

/-- How a run ended (R298). -/
inductive RunEnd where
  /-- `STATUS` shows `ERR = 0`. -/
  | succeeded
  /-- `STATUS` shows `ERR = 1`: OUT is not valid output. -/
  | failed
  deriving DecidableEq, Repr

/-- The host has performed its last action (R298): no host turn is left. -/
def hostDone (s : State) : Bool := s.turns.all fun t => t == .engine

/-- The end of a run as a `READ STATUS` in this state shows it (R298): none while the host has actions left or `STATUS` shows
`BUSY = 1` (assumption log 21). A CHECK that stopped the program has no say in it (assumption log 22). -/
def runEnd (s : State) : Option RunEnd :=
  if !hostDone s || (readRegister statusReg s).getLsbD 0 then none
  else if (readRegister statusReg s).getLsbD 1 then some .failed
  else some .succeeded

/-- The run has ended, and has not failed (R298). -/
def runSucceeded (s : State) : Bool := runEnd s == some .succeeded

/-- The run has ended, and has failed (R298). -/
def runFailed (s : State) : Bool := runEnd s == some .failed

/-- Two states that no host can tell apart now or later (R41, R43, R52): equal but for `PENDING` while idle, the `CODE` entries
while `CODES_VALID = 0`, the `NODE` entries at or above `NODE_COUNT`, and the weights. -/
structure SameVisible (s s' : State) : Prop where
  rest : { s with pending := 0#32, codes := noCodes, nodes := s.nodes } =
    { s' with pending := 0#32, codes := noCodes, nodes := s.nodes }
  pending : s.busy = true → s.pending = s'.pending
  codes : s.codesValid = true → s.codes = s'.codes
  nodes : ∀ i, ∀ h : i < nodeCap, i < s.nodeCount.toNat →
    { s.nodes[i] with weight := 0#40 } = { s'.nodes[i] with weight := 0#40 }

end Sys2Proof
end

