-- ==== Sys2Proof/Certificates/Slice0/Obligations.lean ====
section
/-! DEFINITION. The statements for the provers: the command encoding, the engine step, the invariants, the host interface, each
command, and the end-to-end properties. Each docstring names the rule of spec/ that the statement formalises. -/

open Sys2Proof Sys2Proof.Machine

/-! ### Encoding -/

/-- R100 to R109: decoding a command's word gives the command back, every operand at every value. -/
def Obligations.DecodeOfEncode : Prop := ∀ i : Instr, decode (encode i) = .command i

/-- R100, R108, R109: a word that decodes to a command is that command's word, so each word has one meaning and no bit of it is
dropped. -/
def Obligations.EncodeOfDecode : Prop := ∀ (w : Word) (i : Instr), decode w = .command i → encode i = w

/-- R108, R109: the table has 23 rows; no two of them match the same word, for their opcode bytes differ and every mask covers the
opcode byte; so a word that matches a row decodes to that row's command, whatever the order of the rows. -/
def Obligations.OpcodeRowsAreDisjoint : Prop :=
  opTable.length = 23 ∧
  opTable.Pairwise (fun r r' => ∀ w : Word, ¬ (r.fits w = true ∧ r'.fits w = true)) ∧
  opTable.Pairwise (fun r r' => opcodeByte r.pattern ≠ opcodeByte r'.pattern) ∧
  (∀ r ∈ opTable, opcodeByte r.mask = 0xFF#8) ∧
  (∀ (w : Word) (r : OpRow), r ∈ opTable → r.fits w = true → decode w = .command (r.build w))

/-- R110, R304: a word is illegal iff no row matches it; that is a reserved opcode byte, or a listed one with a reserved bit of its
format set; executing it latches ILLEGAL_CMD, code 3, with the word's bits [31:24] and changes nothing else, or has no effect while
an error is latched; the engine's step then ends with `BUSY <- 0`; and the rule's three examples. -/
def Obligations.IllegalWordsAndTheirEffect : Prop :=
  (∀ w : Word, (∃ why, decode w = .illegal why) ↔ ∀ row ∈ opTable, w &&& row.mask ≠ row.pattern) ∧
  (∀ w : Word, (∃ why, decode w = .illegal why) ↔
    (formatOf (opcodeByte w) = none ∨ ∃ f, formatOf (opcodeByte w) = some f ∧ w &&& reservedMask f ≠ 0#32)) ∧
  (∀ (w : Word) (s : State), (∃ why, decode w = .illegal why) →
    (s.errCode = 0#4 → execute w s = .next { s with errCode := 3#4, errOpc := w.extractLsb' 24 8 }) ∧
    (s.errCode ≠ 0#4 → execute w s = .next s)) ∧
  (∀ s : State, s.busy = true → (∃ why, decode s.pending = .illegal why) →
    (s.errCode = 0#4 →
      engineStep s = .next { s with busy := false, errCode := 3#4, errOpc := s.pending.extractLsb' 24 8 }) ∧
    (s.errCode ≠ 0#4 → engineStep s = .next { s with busy := false })) ∧
  (∃ why, decode 0x00000001#32 = .illegal why) ∧ (∃ why, decode 0x11000100#32 = .illegal why) ∧
  (∃ why, decode 0x23000002#32 = .illegal why)

/-- R118 (95_test_vectors.md V-X1): words written out from the spec's formats decode to the commands they stand for. -/
def Obligations.SpecWordsDecode : Prop :=
  decode 0x14000000#32 = .command .buildTree ∧ decode 0x11000041#32 = .command (.histCount 0x41#8) ∧
  decode 0x21000100#32 = .command (.codeLen 256#9) ∧ decode 0x22000300#32 = .command (.codeBits 256#9 1#3) ∧
  decode 0x15000004#32 = .command (.nodeRead 4#10) ∧ decode 0x23000000#32 = .command (.emitHeader .tree) ∧
  decode 0x27000001#32 = .command (.compress .counts) ∧ decode 0x01000000#32 = .command .errClear ∧
  decode 0x33000000#32 = .command .decompress

/-- R118, R119: the assembler gives every command its word, and a format M line without an operand the tree mode; it refuses
`b > 255`, `s > 511`, `w > 7`, `i > 1023`, a mode that is neither, a line with another number of operands than its format, and the
opcode bytes that R111 reserves; and the rule's examples as lines of text. -/
def Obligations.AssemblerGivesTheWord : Prop :=
  (∀ i : Instr, assembleLine (lineOf i) = some (encode i)) ∧ (∀ l : AsmLine, l.wellFormed = false → assembleLine l = none) ∧
  (assembleLine ⟨0x23#8, []⟩ = some 0x23000000#32 ∧ assembleLine ⟨0x27#8, []⟩ = some 0x27000000#32) ∧
  (∀ (op : Byte) (b : Nat), op ∈ [0x11#8, 0x13#8, 0x24#8] → 255 < b → assembleLine ⟨op, [b]⟩ = none) ∧
  (∀ s : Nat, 511 < s → assembleLine ⟨0x21#8, [s]⟩ = none) ∧
  (∀ s w : Nat, 511 < s ∨ 7 < w → assembleLine ⟨0x22#8, [s, w]⟩ = none) ∧
  (∀ i : Nat, 1023 < i → assembleLine ⟨0x15#8, [i]⟩ = none) ∧
  (∀ (op : Byte) (m : Nat), op ∈ [0x23#8, 0x27#8] → 1 < m → assembleLine ⟨op, [m]⟩ = none) ∧
  (∀ (op : Byte) (args : List Nat), op ∈ [0x11#8, 0x13#8, 0x24#8, 0x21#8, 0x15#8] → args.length ≠ 1 →
    assembleLine ⟨op, args⟩ = none) ∧
  (∀ args : List Nat, args.length ≠ 2 → assembleLine ⟨0x22#8, args⟩ = none) ∧
  (∀ (op : Byte) (args : List Nat), op ∈ [0x23#8, 0x27#8] → 1 < args.length → assembleLine ⟨op, args⟩ = none) ∧
  (∀ (op : Byte) (args : List Nat), op ∈ [0x00#8, 0x01#8, 0x02#8, 0x03#8, 0x04#8, 0x10#8, 0x12#8, 0x14#8, 0x20#8, 0x25#8, 0x26#8,
    0x30#8, 0x31#8, 0x32#8, 0x33#8] → args ≠ [] → assembleLine ⟨op, args⟩ = none) ∧
  (∀ (op : Byte) (args : List Nat), (0x05 ≤ op.toNat ∧ op.toNat ≤ 0x0F) ∨ (0x16 ≤ op.toNat ∧ op.toNat ≤ 0x1F) ∨
    (0x28 ≤ op.toNat ∧ op.toNat ≤ 0x2F) ∨ 0x34 ≤ op.toNat → assembleLine ⟨op, args⟩ = none) ∧
  assemble "BUILD_TREE" = some 0x14000000#32 ∧ assemble "HIST_COUNT 'A'" = some 0x11000041#32 ∧
  assemble "HIST_COUNT 0x41" = some 0x11000041#32 ∧ assemble "CODE_LEN 256" = some 0x21000100#32 ∧
  assemble "CODE_BITS 256, 1" = some 0x22000300#32 ∧ assemble "NODE_READ 4" = some 0x15000004#32 ∧
  assemble "EMIT_HEADER" = some 0x23000000#32 ∧ assemble "EMIT_HEADER tree" = some 0x23000000#32 ∧
  assemble "COMPRESS counts" = some 0x27000001#32

/-! ### The engine step -/

/-- R32, R83: a step is the next turn's transition; with no turn listed the engine's. An idle block keeps all state (R325). The
list of turns is the model's (assumption log 3, 17). -/
def Obligations.StepTakesTheNextTurn : Prop :=
  (∀ s : State, s.turns = [] → step s = engineStep s) ∧
  (∀ (s : State) (rest : List Turn), s.turns = .engine :: rest → step s = engineStep { s with turns := rest }) ∧
  (∀ (s : State) (a : HostAction) (rest : List Turn), s.turns = .host a :: rest →
    step s = hostStep a { s with turns := rest }) ∧
  (∀ s : State, s.busy = false → s.turns = [] → step s = .next s)

/-- R32, R109: when the latched word decodes to a command, and no error is latched or the command runs all the same, the
engine's step is `exec` of it, with `BUSY <- 0` after; the turn is used up before (assumption log 3). That `PENDING` is kept once
`BUSY = 0` is the model's choice (assumption log 23). -/
def Obligations.StepExecutesTheDecodedCommand : Prop :=
  ∀ (s : State) (i : Instr) (rest : List Turn), s.busy = true → decode s.pending = .command i →
    (s.errCode = 0#4 ∨ i = .errClear ∨ i = .softReset) → (s.turns = .engine :: rest ∨ (s.turns = [] ∧ rest = [])) →
    (∀ t, exec i { s with turns := rest } = .next t → step s = .next { t with busy := false }) ∧
    (∀ f, exec i { s with turns := rest } = .fault f → step s = .fault f)

/-- R313: while an error is latched, only ERR_CLEAR and SOFT_RESET execute; every other word completes with no effect but
`BUSY <- 0`; and no step raises an error or overwrites the latched one. -/
def Obligations.LatchedErrorBlocksCommands : Prop :=
  (∀ s : State, s.busy = true → s.errCode ≠ 0#4 → decode s.pending ≠ .command .errClear →
    decode s.pending ≠ .command .softReset → engineStep s = .next { s with busy := false }) ∧
  (∀ s : State, s.busy = true → s.errCode ≠ 0#4 → decode s.pending = .command .errClear →
    engineStep s = .next { s with busy := false, errCode := 0#4, errOpc := 0#8, ovr := false }) ∧
  (∀ s : State, s.busy = true → s.errCode ≠ 0#4 → decode s.pending = .command .softReset →
    engineStep s = .next { setResetValues s with busy := false }) ∧
  (∀ s t : State, step s = .next t → s.errCode ≠ 0#4 →
    (t.errCode = s.errCode ∧ t.errOpc = s.errOpc) ∨ (t.errCode = 0#4 ∧ t.errOpc = 0#8))

/-! ### Reset and invariants -/

/-- R52: the values the spec gives after power-on, and that a later reset keeps IN and OUT; all registers read 0. What it leaves
unspecified (`PENDING`, `NODE[]`, `CODE[]`) is not stated. -/
def Obligations.PowerOnState : Prop :=
  State.reset.busy = false ∧ (∀ b, histAt State.reset b = 0#32) ∧ State.reset.nodeCount = 0#10 ∧ State.reset.root = 0#10 ∧
  State.reset.treeValid = false ∧ State.reset.treeSrc = false ∧ State.reset.codesValid = false ∧ State.reset.result = 0#32 ∧
  State.reset.eos = false ∧ State.reset.errCode = 0#4 ∧ State.reset.errOpc = 0#8 ∧ State.reset.ovr = false ∧
  State.reset.input = [] ∧ State.reset.inPos = 0 ∧ State.reset.out = [] ∧
  (∀ r, readRegister r State.reset = 0#32) ∧
  ∀ s : State, (setResetValues s).input = s.input ∧ (setResetValues s).out = s.out ∧ (hwReset s).input = s.input ∧
    (hwReset s).out = s.out

/-- R51, R52: the invariants hold after power-on. -/
def Obligations.PowerOnMeetsInvariants : Prop := Inv State.reset

/-- R51, R42, R73: every step keeps the invariants about the registers. -/
def Obligations.StepKeepsRegistersOk : Prop := ∀ s t : State, RegistersOk s → step s = .next t → RegistersOk t

/-- R42: every step keeps the node memory one full binary tree whenever `TREE_VALID = 1`, and a leaf's symbol at most 256
(R51). -/
def Obligations.StepKeepsTreeOk : Prop := ∀ s t : State, TreeOk s → step s = .next t → TreeOk t

/-- R44: every step keeps the code table the one GEN_CODES computes from the current tree whenever `CODES_VALID = 1`. -/
def Obligations.StepKeepsCodesOk : Prop := ∀ s t : State, CodesOk s → step s = .next t → CodesOk t

/-- R361: in a state that meets the invariants every command completes, with its effect or with an error latched: none stops
the machine. Only a host action that is not enabled (R88) does. -/
def Obligations.CommandsNeverStop : Prop :=
  (∀ (s : State) (i : Instr), Inv s → ∃ t, exec i s = .next t) ∧
  (∀ s : State, Inv s → (∃ t, step s = .next t) ∨
    (step s = .fault .hostActionNotEnabled ∧ s.busy = true ∧
      ∃ a rest, s.turns = .host a :: rest ∧ (a = .drainOut ∨ ∃ bytes, a = .loadIn bytes)))

/-- R41, R43, R52 (93 I5, I14, I15): what the spec calls unobservable is: two states that differ only in `PENDING` while idle, in
code entries while `CODES_VALID = 0`, in node entries at or above `NODE_COUNT`, and in weights step to two such states, and give
the host the same. -/
def Obligations.UnspecifiedStateIsUnobservable : Prop :=
  ∀ s s' : State, Inv s → SameVisible s s' →
    (∃ t t', step s = .next t ∧ step s' = .next t' ∧ SameVisible t t') ∨ (∃ f, step s = .fault f ∧ step s' = .fault f)

/-! ### The host interface -/

/-- R291: a write to `CMD` while idle latches the word, whatever it is; while busy it is an overrun. -/
def Obligations.WriteCmdLatches : Prop :=
  ∀ (s : State) (v : Word) (rest : List Turn), s.turns = .host (.write 0#4 v) :: rest →
    (s.busy = false → step s = .next { s with turns := rest, pending := v, busy := true }) ∧
    (s.busy = true → step s = .next { s with turns := rest, ovr := true })

/-- R292: a write to `CMD` while busy is dropped and sets `OVR`; `OVR` stays 1 until ERR_CLEAR, SOFT_RESET or reset; it is no error,
and the block keeps executing commands. -/
def Obligations.OverrunIsDropped : Prop :=
  (∀ (s : State) (v : Word) (rest : List Turn), s.turns = .host (.write 0#4 v) :: rest → s.busy = true →
    step s = .next { s with turns := rest, ovr := true }) ∧
  (∀ s t : State, step s = .next t → s.ovr = true →
    t.ovr = true ∨ (∃ rest, s.turns = .host .hwReset :: rest) ∨
    (s.busy = true ∧ (s.turns = [] ∨ ∃ rest, s.turns = .engine :: rest) ∧
      (decode s.pending = .command .errClear ∨ decode s.pending = .command .softReset))) ∧
  (∀ (s t : State) (i : Instr), s.ovr = true → s.errCode = 0#4 → s.busy = true → decode s.pending = .command i → s.turns = [] →
    exec i s = .next t → step s = .next { t with busy := false })

/-- R295, R39: a read, enabled at any time, gives the host the register's value and changes nothing of the block; a write to any
register but `CMD` changes nothing; the reserved registers read 0. What the host was given is listed in `seen`, the model's own
field (assumption log 4). -/
def Obligations.RegisterPortActions : Prop :=
  (∀ (s : State) (r : BitVec 4) (rest : List Turn), s.turns = .host (.read r) :: rest →
    step s = .next { s with turns := rest, seen := s.seen ++ [.register r (readRegister r s)] }) ∧
  (∀ (s : State) (r : BitVec 4) (v : Word) (rest : List Turn), s.turns = .host (.write r v) :: rest → r ≠ 0#4 →
    step s = .next { s with turns := rest }) ∧
  (∀ (s : State) (r : BitVec 4), 7 ≤ r.toNat → readRegister r s = 0#32)

/-- R31, R33 to R38: the value of every register, field by field. -/
def Obligations.RegisterValues : Prop :=
  ∀ s : State,
    readRegister 0#4 s = 0#32 ∧ readRegister 2#4 s = s.result ∧
    (readRegister 4#4 s).toNat = s.inPos % 2 ^ 32 ∧ (readRegister 5#4 s).toNat = s.input.length % 2 ^ 32 ∧
    (readRegister 6#4 s).toNat = s.out.length % 2 ^ 32 ∧
    (let v := readRegister 3#4 s
     v.extractLsb' 0 10 = s.nodeCount ∧ v.extractLsb' 10 6 = 0#6 ∧ v.extractLsb' 16 10 = s.root ∧ v.extractLsb' 26 6 = 0#6) ∧
    (let v := readRegister 1#4 s
     v.getLsbD 0 = s.busy ∧ (v.getLsbD 1 = true ↔ s.errCode ≠ 0#4) ∧ v.getLsbD 2 = s.ovr ∧ v.getLsbD 3 = s.treeValid ∧
     v.getLsbD 4 = s.codesValid ∧ v.getLsbD 5 = s.eos ∧ v.getLsbD 6 = s.treeSrc ∧ v.getLsbD 7 = false ∧
     v.extractLsb' 8 4 = s.errCode ∧ v.extractLsb' 12 4 = 0#4 ∧ v.extractLsb' 16 8 = s.errOpc ∧ v.extractLsb' 24 8 = 0#8)

/-- R293: LOAD_IN, enabled only while `BUSY = 0`, sets IN and the cursor; while busy there is no such transition. -/
def Obligations.LoadInWhileIdle : Prop :=
  ∀ (s : State) (bytes : List Byte) (rest : List Turn), s.turns = .host (.loadIn bytes) :: rest →
    (s.busy = false → step s = .next { s with turns := rest, input := bytes, inPos := 0 }) ∧
    (s.busy = true → ∀ t, step s ≠ .next t)

/-- R294: DRAIN_OUT, enabled only while `BUSY = 0`, gives the host OUT and empties it; while busy there is no such transition. -/
def Obligations.DrainOutWhileIdle : Prop :=
  ∀ (s : State) (rest : List Turn), s.turns = .host .drainOut :: rest →
    (s.busy = false → step s = .next { s with turns := rest, seen := s.seen ++ [.drained s.out], out := [] }) ∧
    (s.busy = true → ∀ t, step s ≠ .next t)

/-- R341, R340: HW_RESET, enabled at any time, discards a pending command and sets the reset values; IN and OUT keep their
contents; nothing is said of `PENDING`. From a block with IN and OUT empty it gives the power-on state but for what the spec leaves
unspecified. -/
def Obligations.HardwareReset : Prop :=
  ∀ (s : State) (rest : List Turn), s.turns = .host .hwReset :: rest →
    ∃ (v : Word) (n : Nat),
      step s = .next { s with
        turns := rest, busy := false, pending := v, draws := n, hist := Vector.replicate byteValues 0#32, nodeCount := 0#10,
        root := 0#10, treeValid := false, treeSrc := false, codesValid := false, result := 0#32, eos := false,
        errCode := 0#4, errOpc := 0#8, ovr := false, inPos := 0 } ∧
      (s.input = [] → s.out = [] → step s = .next { State.reset with
        turns := rest, pending := v, draws := n, nodes := s.nodes, codes := s.codes, seen := s.seen })

/-! ### Control commands -/

/-- R270: NOP changes nothing, whether or not an error is latched, but for `BUSY`, which returns to 0. -/
def Obligations.NopChangesNothing : Prop :=
  encode .nop = 0x00000000#32 ∧ (∀ s : State, exec .nop s = .next s) ∧
  ∀ s : State, s.busy = true → s.pending = 0x00000000#32 → engineStep s = .next { s with busy := false }

/-- R271: ERR_CLEAR, executed whether or not an error is latched, clears `ERR_CODE`, `ERR_OPC` and `OVR`, and nothing else;
`STATUS.ERR` reads 0 after it. -/
def Obligations.ErrClearClears : Prop :=
  encode .errClear = 0x01000000#32 ∧
  ∀ s : State,
    exec .errClear s = .next { s with errCode := 0#4, errOpc := 0#8, ovr := false } ∧
    execute 0x01000000#32 s = .next { s with errCode := 0#4, errOpc := 0#8, ovr := false } ∧
    (statusWord { s with errCode := 0#4, errOpc := 0#8, ovr := false }).getLsbD 1 = false

/-- R272, R340: SOFT_RESET, executed whether or not an error is latched, sets the reset values and keeps the contents of IN and
OUT; every `STATUS` field is 0 after its engine step. -/
def Obligations.SoftResetSetsResetValues : Prop :=
  encode .softReset = 0x02000000#32 ∧
  ∀ s : State, ∃ t : State,
    t = { s with
      hist := Vector.replicate byteValues 0#32, nodeCount := 0#10, root := 0#10, treeValid := false, treeSrc := false,
      codesValid := false, result := 0#32, eos := false, errCode := 0#4, errOpc := 0#8, ovr := false, inPos := 0 } ∧
    exec .softReset s = .next t ∧ execute 0x02000000#32 s = .next t ∧ statusWord { t with busy := false } = 0#32 ∧
    treeInfoWord t = 0#32

/-- R273, R75: SRC_REWIND sets the cursor to the start and changes nothing else. -/
def Obligations.SrcRewindRewinds : Prop :=
  encode .srcRewind = 0x03000000#32 ∧ ∀ s : State, exec .srcRewind s = .next { s with inPos := 0 }

/-- R274, R77: OUT_FLUSH appends fewer than eight 0 bits, none if OUT is a whole number of bytes, and OUT is one after. -/
def Obligations.OutFlushPads : Prop :=
  encode .outFlush = 0x04000000#32 ∧
  ∀ s : State, ∃ k : Nat, k < 8 ∧ (s.out.length + k) % 8 = 0 ∧
    exec .outFlush s = .next { s with out := s.out ++ List.replicate k false }

/-! ### Tree builder commands -/

/-- R131: HIST_CLEAR clears the histogram and changes nothing else. -/
def Obligations.HistClearClears : Prop :=
  encode .histClear = 0x10000000#32 ∧
  ∀ s : State, ∃ h : Vector Word byteValues, (∀ i, ∀ hi : i < byteValues, h[i] = 0#32) ∧
    exec .histClear s = .next { s with hist := h }

/-- R132, R143: HIST_COUNT increments one counter exactly, or raises COUNT_OVERFLOW at 2^32 - 1 and leaves it. -/
def Obligations.HistCountCounts : Prop :=
  ∀ b : Byte,
    encode (.histCount b) = 0x11000000#32 ||| b.setWidth 32 ∧
    ∀ s : State,
      ((histAt s b).toNat ≠ 2 ^ 32 - 1 → ∃ v : Word, v.toNat = (histAt s b).toNat + 1 ∧
        exec (.histCount b) s = .next { s with hist := s.hist.set b.toNat v b.isLt }) ∧
      ((histAt s b).toNat = 2 ^ 32 - 1 → exec (.histCount b) s = .next { s with errCode := 8#4, errOpc := 0x11#8 })

/-- R133: HIST_COUNT_STREAM counts the whole 8-bit units from the cursor to exhaustion onto the histogram and leaves the cursor at
the end; where a counter would pass 2^32 - 1 it raises COUNT_OVERFLOW, the counts made before it stay, and the overflowing unit has
been consumed. -/
def Obligations.HistCountStreamCounts : Prop :=
  encode .histCountStream = 0x12000000#32 ∧
  (∀ s : State, (∀ b : Byte, (histAt s b).toNat + (unitsFrom s).count b < 2 ^ 32) →
    exec .histCountStream s = .next { s with hist := histPlus s (unitsFrom s), inPos := inBits s }) ∧
  (∀ (s : State) (k : Nat) (hk : k < (unitsFrom s).length),
    (∀ b : Byte, (histAt s b).toNat + ((unitsFrom s).take k).count b < 2 ^ 32) →
    (histAt s (unitsFrom s)[k]).toNat + ((unitsFrom s).take k).count (unitsFrom s)[k] = 2 ^ 32 - 1 →
    exec .histCountStream s = .next { s with
      hist := histPlus s ((unitsFrom s).take k), inPos := s.inPos + 8 * (k + 1), errCode := 8#4, errOpc := 0x12#8 })

/-- R134: HIST_READ gives one counter in `RESULT` and changes nothing else. -/
def Obligations.HistReadReads : Prop :=
  ∀ b : Byte,
    encode (.histRead b) = 0x13000000#32 ||| b.setWidth 32 ∧
    ∀ s : State, exec (.histRead b) s = .next { s with result := s.hist[b.toNat]'b.isLt }

/-- R135, R137: BUILD_TREE writes the tree registers, the flags and the node memory only, and its leaves are the byte values that
occur, in ascending order with their counts, then EOS with weight 1. That the entries at or above `NODE_COUNT` keep their contents is
the model's choice (assumption log 24). -/
def Obligations.BuildTreeMakesTheLeaves : Prop :=
  encode .buildTree = 0x14000000#32 ∧
  ∀ s : State, ∃ t : State,
    exec .buildTree s = .next t ∧
    t = { s with
      nodes := t.nodes, nodeCount := t.nodeCount, root := t.root, treeValid := true, treeSrc := false, codesValid := false } ∧
    (∀ j, ∀ h : j < (occurring s).length,
      t.nodes[j]? = some ⟨true, byteSym (occurring s)[j], (histAt s (occurring s)[j]).setWidth 40, 0x3FF#10, 0x3FF#10⟩) ∧
    t.nodes[(occurring s).length]? = some ⟨true, 256#9, 1#40, 0x3FF#10, 0x3FF#10⟩ ∧
    (∀ j : Nat, t.nodeCount.toNat ≤ j → t.nodes[j]? = s.nodes[j]?)

/-- R136, R138, R139, R144: node `n` of a built tree, from the number of leaves on, is the merge of the two lowest nodes queued when
it is made: its left child is the lowest by (weight, index), its right child the next, its weight their exact sum; and the one node
left, the last made, is the root. -/
def Obligations.BuildTreeMergesTheTwoLowest : Prop :=
  ∀ s : State, ∃ t : State,
    exec .buildTree s = .next t ∧ t.nodeCount.toNat = 2 * leafCount s - 1 ∧ t.root.toNat = t.nodeCount.toNat - 1 ∧
    ∀ n : Nat, leafCount s ≤ n → n < t.nodeCount.toNat → ∃ e : Node,
      t.nodes[n]? = some e ∧ e.leaf = false ∧ e.sym = 0x1FF#9 ∧
      e.weight.toNat = weightAt t.nodes e.left.toNat + weightAt t.nodes e.right.toNat ∧
      e.left ≠ e.right ∧ Queued t.nodes (leafCount s) n e.left.toNat ∧ Queued t.nodes (leafCount s) n e.right.toNat ∧
      ∀ j : Nat, Queued t.nodes (leafCount s) n j → j ≠ e.left.toNat →
        Lower t.nodes e.left.toNat j ∧ (j ≠ e.right.toNat → Lower t.nodes e.right.toNat j)

/-- R140: the shape of a built tree: `L` leaves and `L - 1` internal nodes, `1 ≤ L ≤ 257`, `ROOT` the last; one full binary
tree whose children have smaller indices; the symbols of its leaves distinct, EOS once among them; depth at most `L - 1`; the
root's weight one more than the sum of the counters. -/
def Obligations.BuildTreeShape : Prop :=
  ∀ s : State, ∃ (t : State) (tr : Tree),
    exec .buildTree s = .next t ∧ TreeFits t tr ∧ tr.leaves.length = leafCount s ∧
    1 ≤ leafCount s ∧ leafCount s ≤ 257 ∧ t.nodeCount.toNat = 2 * leafCount s - 1 ∧ t.root.toNat = 2 * leafCount s - 2 ∧
    (tr.leaves.map Prod.fst).Perm ((occurring s).map byteSym ++ [256#9]) ∧
    (∀ x ∈ tr.leaves, x.2.length ≤ leafCount s - 1) ∧
    (∀ (i : Nat) (e : Node), i < t.nodeCount.toNat → t.nodes[i]? = some e → e.leaf = false →
      e.left.toNat < i ∧ e.right.toNat < i) ∧
    weightAt t.nodes t.root.toNat = 1 + (allBytes.map fun b => (histAt s b).toNat).sum

/-- R147: the built tree is a function of the histogram alone. -/
def Obligations.BuildTreeDependsOnHistOnly : Prop :=
  ∀ s s' : State, s.hist = s'.hist → ∃ t t' : State,
    exec .buildTree s = .next t ∧ exec .buildTree s' = .next t' ∧ t.nodeCount = t'.nodeCount ∧ t.root = t'.root ∧
    ∀ i : Nat, i < t.nodeCount.toNat → t.nodes[i]? = t'.nodes[i]?

/-- R142: NODE_READ gives the packed entry of a node below `NODE_COUNT`, and 0 for any other index; and no entry that keeps R41
reads 0. -/
def Obligations.NodeReadReads : Prop :=
  ∀ i : NodeIdx,
    encode (.nodeRead i) = 0x15000000#32 ||| i.setWidth 32 ∧
    ∀ s : State, s.nodeCount.toNat ≤ 513 → ∃ v : Word,
      exec (.nodeRead i) s = .next { s with result := v } ∧
      (∀ e : Node, i < s.nodeCount → s.nodes[i.toNat]? = some e →
        v.toNat = (if e.leaf then 2 ^ 31 else 0) + e.sym.toNat * 2 ^ 20 + e.left.toNat * 2 ^ 10 + e.right.toNat ∧
        (EntryOk e → v ≠ 0#32)) ∧
      (s.nodeCount ≤ i → v = 0#32)

/-! ### Encoder commands -/

/-- R171, R172, R173: GEN_CODES writes the code table of the current tree: each symbol's code is the path to its last leaf in
preorder, "0" for a root leaf, none for a symbol with no leaf; every code has 1 to 256 bits; NO_TREE without a tree. -/
def Obligations.GenCodesWritesTheCodes : Prop :=
  encode .genCodes = 0x20000000#32 ∧
  (∀ s : State, s.treeValid = false → exec .genCodes s = .next { s with errCode := 5#4, errOpc := 0x20#8 }) ∧
  (∀ (s : State) (tr : Tree), s.treeValid = true → TreeFits s tr →
    (∀ x ∈ tr.codes, 1 ≤ x.2.length ∧ x.2.length ≤ 256) ∧
    ∃ codes : Vector CodeEntry symbolCount,
      exec .genCodes s = .next { s with codes := codes, codesValid := true } ∧
      ∀ sym : Sym, sym.toNat ≤ 256 → codes[sym.toNat]? = some (codeEntry (tr.codeFor sym)))

/-- R174: in the code table GEN_CODES writes for a tree with distinct leaf symbols, no valid code is a prefix of another. -/
def Obligations.CodesArePrefixFree : Prop :=
  ∀ (s : State) (tr : Tree), s.treeValid = true → TreeFits s tr → (tr.leaves.map Prod.fst).Nodup →
    ∃ t : State, exec .genCodes s = .next t ∧
      ∀ (a b : Nat) (c d : CodeEntry), a ≠ b → t.codes[a]? = some c → t.codes[b]? = some d → c.valid = true → d.valid = true →
        ¬ entryBits c <+: entryBits d

/-- R175: CODE_LEN gives a valid code's length with bit 31 set, 0 for a symbol with no code or above 256, and NO_CODES without
codes. -/
def Obligations.CodeLenReads : Prop :=
  ∀ sym : Sym,
    encode (.codeLen sym) = 0x21000000#32 ||| sym.setWidth 32 ∧
    (∀ s : State, s.codesValid = false → exec (.codeLen sym) s = .next { s with errCode := 6#4, errOpc := 0x21#8 }) ∧
    (∀ (s : State) (c : CodeEntry), s.codesValid = true → s.codes[sym.toNat]? = some c → c.valid = true → ∃ v : Word,
      v.toNat = 2 ^ 31 + c.len.toNat ∧ exec (.codeLen sym) s = .next { s with result := v }) ∧
    (∀ s : State, s.codesValid = true → (256 < sym.toNat ∨ ∃ c, s.codes[sym.toNat]? = some c ∧ c.valid = false) →
      exec (.codeLen sym) s = .next { s with result := 0#32 })

/-- R176: CODE_BITS gives word `w` of a valid code's bits, 0 for a symbol with no code or above 256, and NO_CODES without codes. -/
def Obligations.CodeBitsReads : Prop :=
  ∀ (sym : Sym) (w : BitVec 3),
    encode (.codeBits sym w) = 0x22000000#32 ||| (w.setWidth 32 <<< 9) ||| sym.setWidth 32 ∧
    (∀ s : State, s.codesValid = false → exec (.codeBits sym w) s = .next { s with errCode := 6#4, errOpc := 0x22#8 }) ∧
    (∀ (s : State) (c : CodeEntry), s.codesValid = true → s.codes[sym.toNat]? = some c → c.valid = true → ∃ v : Word,
      v.toNat = c.bits.toNat / 2 ^ (32 * w.toNat) % 2 ^ 32 ∧ exec (.codeBits sym w) s = .next { s with result := v }) ∧
    (∀ s : State, s.codesValid = true → (256 < sym.toNat ∨ ∃ c, s.codes[sym.toNat]? = some c ∧ c.valid = false) →
      exec (.codeBits sym w) s = .next { s with result := 0#32 })

/-- R180, R181: EMIT_HEADER appends the magic number and the preorder serialization of the current tree, 11L + 31 bits for L
leaves; UNSUPPORTED_MODE for the counts mode, checked first; NO_TREE without a tree; neither writes a bit. -/
def Obligations.EmitHeaderWritesTheHeader : Prop :=
  encode (.emitHeader .tree) = 0x23000000#32 ∧ encode (.emitHeader .counts) = 0x23000001#32 ∧
  (∀ s : State, exec (.emitHeader .counts) s = .next { s with errCode := 4#4, errOpc := 0x23#8 }) ∧
  (∀ s : State, s.treeValid = false → exec (.emitHeader .tree) s = .next { s with errCode := 5#4, errOpc := 0x23#8 }) ∧
  (∀ (s : State) (tr : Tree), s.treeValid = true → TreeFits s tr →
    exec (.emitHeader .tree) s = .next { s with out := s.out ++ (msbBits 32 Config.magicTree ++ tr.bits) } ∧
    (msbBits 32 Config.magicTree ++ tr.bits).length = 11 * tr.leaves.length + 31)

/-- R185: ENCODE_BYTE appends the byte's code; NO_CODES without codes, then UNMAPPED_SYMBOL for a byte with no code, and neither
writes a bit. -/
def Obligations.EncodeByteEmits : Prop :=
  ∀ b : Byte,
    encode (.encodeByte b) = 0x24000000#32 ||| b.setWidth 32 ∧
    (∀ s : State, s.codesValid = false → exec (.encodeByte b) s = .next { s with errCode := 6#4, errOpc := 0x24#8 }) ∧
    (∀ (s : State) (c : CodeEntry), s.codesValid = true → s.codes[b.toNat]? = some c → c.valid = true →
      exec (.encodeByte b) s = .next { s with out := s.out ++ entryBits c }) ∧
    (∀ (s : State) (c : CodeEntry), s.codesValid = true → s.codes[b.toNat]? = some c → c.valid = false →
      exec (.encodeByte b) s = .next { s with errCode := 7#4, errOpc := 0x24#8 })

/-- R186: ENCODE_EOS appends the code of symbol 256; NO_CODES without codes, UNMAPPED_SYMBOL where 256 has no code, which is so
only of a loaded tree without an EOS leaf. -/
def Obligations.EncodeEosEmits : Prop :=
  encode .encodeEos = 0x25000000#32 ∧
  (∀ s : State, s.codesValid = false → exec .encodeEos s = .next { s with errCode := 6#4, errOpc := 0x25#8 }) ∧
  (∀ (s : State) (c : CodeEntry), s.codesValid = true → s.codes[256]? = some c → c.valid = true →
    exec .encodeEos s = .next { s with out := s.out ++ entryBits c }) ∧
  (∀ (s : State) (c : CodeEntry), s.codesValid = true → s.codes[256]? = some c → c.valid = false →
    exec .encodeEos s = .next { s with errCode := 7#4, errOpc := 0x25#8 }) ∧
  (∀ (s : State) (tr : Tree), Inv s → s.codesValid = true → TreeFits s tr → codeOf s 256#9 = none →
    s.treeSrc = true ∧ 256#9 ∉ tr.leaves.map Prod.fst)

/-- R187: ENCODE_STREAM appends the codes of the whole 8-bit units from the cursor on, then the EOS code, and leaves the cursor at
the end; NO_CODES without codes; UNMAPPED_SYMBOL at the first unit with no code, which has been consumed while the bits before it
stay, or at EOS after all units. -/
def Obligations.EncodeStreamEmits : Prop :=
  encode .encodeStream = 0x26000000#32 ∧
  (∀ s : State, s.codesValid = false → exec .encodeStream s = .next { s with errCode := 6#4, errOpc := 0x26#8 }) ∧
  (∀ s : State, s.codesValid = true → (∀ b ∈ unitsFrom s, (codeOf s (byteSym b)).isSome = true) →
    ((codeOf s 256#9).isSome = true → exec .encodeStream s = .next { s with
      out := s.out ++ ((unitsFrom s).flatMap fun b => symbolBits s (byteSym b)) ++ symbolBits s 256#9, inPos := inBits s }) ∧
    (codeOf s 256#9 = none → exec .encodeStream s = .next { s with
      out := s.out ++ ((unitsFrom s).flatMap fun b => symbolBits s (byteSym b)), inPos := inBits s,
      errCode := 7#4, errOpc := 0x26#8 })) ∧
  (∀ (s : State) (k : Nat) (hk : k < (unitsFrom s).length), s.codesValid = true →
    (∀ b ∈ (unitsFrom s).take k, (codeOf s (byteSym b)).isSome = true) → codeOf s (byteSym (unitsFrom s)[k]) = none →
    exec .encodeStream s = .next { s with
      out := s.out ++ (((unitsFrom s).take k).flatMap fun b => symbolBits s (byteSym b)), inPos := s.inPos + 8 * (k + 1),
      errCode := 7#4, errOpc := 0x26#8 })

/-- R190, R191: COMPRESS appends the magic number, the serialized tree that BUILD_TREE makes from the byte histogram of IN, the codes
of IN's bytes in order, the EOS code, and fewer than eight 0 bits that make OUT a whole number of bytes; the histogram, the tree and
the codes are those of IN; UNSUPPORTED_MODE for the counts mode; COUNT_OVERFLOW at the byte that would pass 2^32 - 1. -/
def Obligations.CompressWritesTheStream : Prop :=
  encode (.compress .tree) = 0x27000000#32 ∧ encode (.compress .counts) = 0x27000001#32 ∧
  (∀ s : State, exec (.compress .counts) s = .next { s with errCode := 4#4, errOpc := 0x27#8 }) ∧
  (∀ s : State, (∀ b : Byte, s.input.count b < 2 ^ 32) → ∃ (t u : State) (tr : Tree) (k : Nat),
    exec .buildTree { s with hist := histOf s.input } = .next u ∧ TreeFits u tr ∧
    exec (.compress .tree) s = .next t ∧
    t = { u with
      codes := t.codes, codesValid := true, inPos := 8 * s.input.length,
      out := s.out ++ msbBits 32 Config.magicTree ++ tr.bits ++
        (s.input.flatMap fun b => (tr.codeFor (byteSym b)).getD []) ++ (tr.codeFor 256#9).getD [] ++ List.replicate k false } ∧
    (∀ sym : Sym, sym.toNat ≤ 256 → t.codes[sym.toNat]? = some (codeEntry (tr.codeFor sym))) ∧
    (∀ b ∈ s.input, (tr.codeFor (byteSym b)).isSome = true) ∧ (tr.codeFor 256#9).isSome = true ∧
    k < 8 ∧ t.out.length % 8 = 0 ∧ t.hist = histOf s.input ∧ t.treeValid = true ∧ t.treeSrc = false ∧ t.result = s.result ∧
    t.eos = s.eos ∧ t.errCode = s.errCode) ∧
  (∀ (s : State) (k : Nat) (hk : k < s.input.length), (s.input.take k).count s.input[k] = 2 ^ 32 - 1 →
    (∀ b : Byte, (s.input.take k).count b < 2 ^ 32) →
    exec (.compress .tree) s = .next { s with
      hist := histOf (s.input.take k), inPos := 8 * (k + 1), errCode := 8#4, errOpc := 0x27#8 })

/-! ### Decoder commands -/

/-- R222: the magic-number check of READ_HEADER. In each case but the tree magic's no bit of the tree is read, and the old tree is
gone (R221); after the tree magic the header is read, and the magic number raises no error. -/
def Obligations.ReadHeaderChecksTheMagic : Prop :=
  encode .readHeader = 0x30000000#32 ∧
  (∀ s : State, inBits s < s.inPos + 32 →
    exec .readHeader s = .next { withoutTree s with inPos := inBits s, errCode := 1#4, errOpc := 0x30#8 }) ∧
  (∀ s : State, HeaderAt s (msbBits 32 Config.magicCounts) →
    exec .readHeader s = .next { withoutTree s with inPos := s.inPos + 32, errCode := 4#4, errOpc := 0x30#8 }) ∧
  (∀ (s : State) (m : Word), m ≠ Config.magicTree → m ≠ Config.magicCounts → HeaderAt s (msbBits 32 m) →
    exec .readHeader s = .next { withoutTree s with inPos := s.inPos + 32, errCode := 1#4, errOpc := 0x30#8 }) ∧
  (∀ s : State, HeaderAt s (msbBits 32 Config.magicTree) → ∃ t : State,
    exec .readHeader s = .next t ∧ (t.errCode = s.errCode ∨ t.errCode ∈ [2#4, 9#4, 10#4]))

/-- R221, R223, R224: READ_HEADER on the magic number and the serialization of a tree of at most 513 nodes with symbols at most 256
loads that tree, numbered in preorder, with weights 0, and leaves the cursor just after it. That the entries at or above
`NODE_COUNT` keep their contents is the model's choice (assumption log 24). -/
def Obligations.ReadHeaderLoadsTheTree : Prop :=
  ∀ (s : State) (tr : Tree), tr.size ≤ 513 → (∀ x ∈ tr.leaves, x.1.toNat ≤ 256) →
    HeaderAt s (msbBits 32 Config.magicTree ++ tr.bits) → ∃ t : State,
      exec .readHeader s = .next t ∧
      t = { s with
        nodes := t.nodes, nodeCount := BitVec.ofNat 10 tr.size, root := 0#10, treeValid := true, treeSrc := true,
        codesValid := false, eos := false, inPos := s.inPos + 32 + tr.bits.length } ∧
      TreeFits t (tr.renumber 0) ∧
      (∀ (i : Nat) (e : Node), t.nodes[i]? = some e → i < tr.size → e.weight = 0#40) ∧
      (∀ i : Nat, tr.size ≤ i → t.nodes[i]? = s.nodes[i]?)

/-- R225, R227, R228, R310, R311: READ_HEADER after the magic number, node by node of the header: HEADER_OVERFLOW when the 514th node
would be allocated, before its flag is read; BAD_SYMBOL just after a leaf's field above 256; TRUNCATED when IN ends inside a node.
In each case no tree is left, and the node memory alone may have changed besides. -/
def Obligations.ReadHeaderRejectsBadHeaders : Prop :=
  (∀ (s : State) (tr : Tree), 513 < tr.size → (∀ x ∈ tr.tokens.take 513, TokenOk x) →
    HeaderAt s (msbBits 32 Config.magicTree ++ (tr.tokens.take 513).flatMap tokenBits) →
    ∃ nodes : Vector Node nodeCap, exec .readHeader s = .next { withoutTree s with
      nodes := nodes, inPos := s.inPos + 32 + ((tr.tokens.take 513).flatMap tokenBits).length, errCode := 9#4, errOpc := 0x30#8 }) ∧
  (∀ (s : State) (tr : Tree) (j : Nat) (sym : Sym), j < 513 → tr.tokens[j]? = some (some sym) → 256 < sym.toNat →
    (∀ x ∈ tr.tokens.take j, TokenOk x) →
    HeaderAt s (msbBits 32 Config.magicTree ++ (tr.tokens.take (j + 1)).flatMap tokenBits) →
    ∃ nodes : Vector Node nodeCap, exec .readHeader s = .next { withoutTree s with
      nodes := nodes, inPos := s.inPos + 32 + ((tr.tokens.take (j + 1)).flatMap tokenBits).length,
      errCode := 10#4, errOpc := 0x30#8 }) ∧
  (∀ (s : State) (tr : Tree) (j : Nat) (x : Option Sym) (part : List Bool), j < 513 → tr.tokens[j]? = some x →
    (∀ y ∈ tr.tokens.take j, TokenOk y) → part <+: tokenBits x → part ≠ tokenBits x →
    s.inPos ≤ inBits s → tailBits s = msbBits 32 Config.magicTree ++ (tr.tokens.take j).flatMap tokenBits ++ part →
    ∃ nodes : Vector Node nodeCap, exec .readHeader s = .next { withoutTree s with
      nodes := nodes, inPos := inBits s, errCode := 2#4, errOpc := 0x30#8 })

/-- R221: whatever the stream, READ_HEADER ends with a loaded tree and no new error, or with no tree and one of its five errors; it
never writes OUT, and changes nothing else but the cursor and the node memory. -/
def Obligations.ReadHeaderLeavesATreeOrNone : Prop :=
  ∀ s : State, ∃ t : State,
    exec .readHeader s = .next t ∧
    (t = { s with
        nodes := t.nodes, nodeCount := t.nodeCount, root := 0#10, treeValid := true, treeSrc := true, codesValid := false,
        eos := false, inPos := t.inPos } ∨
     (t = { withoutTree s with nodes := t.nodes, inPos := t.inPos, errCode := t.errCode, errOpc := 0x30#8 } ∧
        t.errCode ∈ [1#4, 2#4, 4#4, 9#4, 10#4]))

/-- R230, R231: DECODE_SYM walks the tree bit by bit to a leaf (a root leaf takes one bit of any value), gives its symbol in `RESULT`,
sets `EOS` for symbol 256 and otherwise clears it and appends the byte to OUT; NO_TREE without a tree; TRUNCATED when IN ends first,
with `RESULT`, `EOS` and OUT unchanged and the cursor at the end. -/
def Obligations.DecodeSymDecodesOne : Prop :=
  encode .decodeSym = 0x31000000#32 ∧
  (∀ s : State, s.treeValid = false → exec .decodeSym s = .next { s with errCode := 5#4, errOpc := 0x31#8 }) ∧
  (∀ (s : State) (tr : Tree), s.treeValid = true → TreeFits s tr →
    (∀ (sym : Sym) (n : Nat), tr.decodeOne (tailBits s) = some (sym, n) →
      exec .decodeSym s = .next { s with
        inPos := s.inPos + n, result := sym.setWidth 32, eos := decide (sym = 256#9),
        out := s.out ++ (if sym = 256#9 then [] else msbBits 8 sym) }) ∧
    (tr.decodeOne (tailBits s) = none →
      exec .decodeSym s = .next { s with inPos := inBits s, errCode := 2#4, errOpc := 0x31#8 }))

/-- R235, R236: DECODE_STREAM decodes symbol after symbol until EOS, appending a byte for each other symbol; when IN ends before EOS it
raises TRUNCATED, and the bytes decoded before it stay in OUT. -/
def Obligations.DecodeStreamDecodesToEos : Prop :=
  encode .decodeStream = 0x32000000#32 ∧
  (∀ s : State, s.treeValid = false → exec .decodeStream s = .next { s with errCode := 5#4, errOpc := 0x32#8 }) ∧
  (∀ (s : State) (tr : Tree) (syms : List Sym) (n : Nat), s.treeValid = true → TreeFits s tr →
    (tr.decodeMany (bitsLeft s + 1) (tailBits s) = (syms, n, true) →
      exec .decodeStream s = .next { s with
        inPos := s.inPos + n, result := 0x100#32, eos := true, out := s.out ++ symBytes syms }) ∧
    (tr.decodeMany (bitsLeft s + 1) (tailBits s) = (syms, n, false) →
      exec .decodeStream s = .next { afterSyms s syms with inPos := inBits s, errCode := 2#4, errOpc := 0x32#8 }))

/-- R238, R244: DECOMPRESS on the magic number, the serialization of a tree and a payload, from the start of IN: it loads the tree and
decodes the payload to EOS, or latches TRUNCATED where the payload ends before EOS; and an error of its READ_HEADER ends it, latched
with opcode 0x33. -/
def Obligations.DecompressDecodesTheStream : Prop :=
  encode .decompress = 0x33000000#32 ∧
  (∀ s t : State, exec .readHeader { s with inPos := 0 } = .next t → t.treeValid = false →
    exec .decompress s = .next { t with errOpc := 0x33#8 }) ∧
  ∀ (s : State) (tr : Tree) (payload : List Bool) (syms : List Sym) (n : Nat),
    tr.size ≤ 513 → (∀ x ∈ tr.leaves, x.1.toNat ≤ 256) →
    streamBits s.input 0 (inBits s) = msbBits 32 Config.magicTree ++ tr.bits ++ payload →
    ∃ u : State,
      exec .readHeader { s with inPos := 0 } = .next u ∧ TreeFits u (tr.renumber 0) ∧
      (tr.decodeMany (payload.length + 1) payload = (syms, n, true) →
        exec .decompress s = .next { u with
          inPos := 32 + tr.bits.length + n, result := 0x100#32, eos := true, out := s.out ++ symBytes syms }) ∧
      (tr.decodeMany (payload.length + 1) payload = (syms, n, false) →
        exec .decompress s = .next { afterSyms u syms with inPos := inBits s, errCode := 2#4, errOpc := 0x33#8 })

/-- R243, R239: DECOMPRESS on a stream whose first 32 bits are neither magic number, or that is shorter, latches FORMAT and leaves OUT
as it was. -/
def Obligations.DecompressRejectsUnknownMagic : Prop :=
  (∀ s : State, inBits s < 32 →
    exec .decompress s = .next { withoutTree s with inPos := inBits s, errCode := 1#4, errOpc := 0x33#8 }) ∧
  (∀ (s : State) (m : Word), 32 ≤ inBits s → streamBits s.input 0 32 = msbBits 32 m → m ≠ Config.magicTree →
    m ≠ Config.magicCounts →
    exec .decompress s = .next { withoutTree s with inPos := 32, errCode := 1#4, errOpc := 0x33#8 })

/-! ### Whole-machine rules -/

/-- R36, R40, R42 to R45, R73: only these commands change each of these pieces of state. SOFT_RESET stands in each list that R272
puts it in (assumption log 15). -/
def Obligations.OnlyTheseCommandsWrite : Prop :=
  ∀ (i : Instr) (s t : State), exec i s = .next t →
    (t.hist ≠ s.hist → writesHist i = true) ∧
    ((t.nodes ≠ s.nodes ∨ t.nodeCount ≠ s.nodeCount ∨ t.root ≠ s.root ∨ t.treeValid ≠ s.treeValid ∨ t.treeSrc ≠ s.treeSrc) →
      writesTree i = true) ∧
    (t.codes ≠ s.codes → writesCodes i = true) ∧ (t.codesValid ≠ s.codesValid → writesCodesValid i = true) ∧
    (t.result ≠ s.result → writesResult i = true) ∧ (t.eos ≠ s.eos → writesEos i = true) ∧
    (t.inPos ≠ s.inPos → movesCursor i = true) ∧ (t.out ≠ s.out → writesOut i = true) ∧
    (t.ovr ≠ s.ovr → i = .errClear ∨ i = .softReset)

/-- R47, R48, R32: no command changes IN, every command only appends to OUT, and none touches `BUSY`, `PENDING` or the host's side. -/
def Obligations.CommandsOnlyAppendToOut : Prop :=
  ∀ (i : Instr) (s t : State), exec i s = .next t →
    t.input = s.input ∧ s.out <+: t.out ∧ t.busy = s.busy ∧ t.pending = s.pending ∧ t.turns = s.turns ∧ t.seen = s.seen ∧
    t.draws = s.draws

/-! ### End-to-end properties -/

/-- R242: two COMPRESS commands on equal IN contents, each starting with OUT empty, append equal bit sequences. -/
def Obligations.CompressIsDeterministic : Prop :=
  ∀ (m : HeaderMode) (s s' : State), s.input = s'.input → s.out = [] → s'.out = [] → ∃ t t' : State,
    exec (.compress m) s = .next t ∧ exec (.compress m) s' = .next t' ∧ t.out = t'.out

/-- R241: the header EMIT_HEADER writes for a tree, padded to whole bytes, is read back by READ_HEADER into the same tree numbered in
preorder, with the same `NODE_COUNT`; GEN_CODES gives the same codes for both, and EMIT_HEADER writes the same bits. -/
def Obligations.HeaderDescribesItsTree : Prop :=
  ∀ (s : State) (tr : Tree), s.treeValid = true → TreeFits s tr → s.out = [] → ∃ t u c c' v : State,
    exec (.emitHeader .tree) s = .next t ∧
    exec .readHeader { t with input := outBytes (t.out ++ padding t.out.length), inPos := 0, out := [] } = .next u ∧
    u.treeValid = true ∧ u.errCode = s.errCode ∧ u.nodeCount = s.nodeCount ∧ TreeFits u (tr.renumber 0) ∧
    exec .genCodes s = .next c ∧ exec .genCodes u = .next c' ∧ c.codes = c'.codes ∧
    exec (.emitHeader .tree) u = .next v ∧ v.out = t.out

/-- R240: the host program `LOAD_IN S; ISSUE COMPRESS; DRAIN_OUT -> X; LOAD_IN bytes(X); ISSUE DECOMPRESS`, from any state with no error
latched, idle and OUT empty, ends with no error latched, `EOS = 1`, and OUT equal to the bits of S, for every S in which no byte
value occurs 2^32 or more times. -/
def Obligations.RoundTripIsIdentity : Prop :=
  ∀ (S : List Byte) (s : State), (∀ b : Byte, S.count b < 2 ^ 32) → s.errCode = 0#4 → s.busy = false → s.out = [] →
    ∃ (t u : State) (X : List Bool),
      core.run 6 { s with turns := [.host (.loadIn S)] ++ issue (.compress .tree) ++ [.host .drainOut] } = .next t ∧
      t.turns = [] ∧ t.seen.getLast? = some (.drained X) ∧ X.length % 8 = 0 ∧
      core.run 5 { t with turns := [.host (.loadIn (outBytes X))] ++ issue .decompress } = .next u ∧
      u.turns = [] ∧ u.busy = false ∧ u.errCode = 0#4 ∧ u.eos = true ∧ u.out = S.flatMap fun b => msbBits 8 b

/-! ### The end of a run -/

/-- R298: a run ends when the host's last action is done and a later READ STATUS shows `BUSY = 0`; the observed state is the one at
that read; a run whose `STATUS` then shows `ERR = 1` has failed. While an action of the host is left, or `BUSY` is 1, there is no
end. That a state in which such a read would show `BUSY = 0` is an end without the read being made is the model's reading
(assumption log 21). On it rest the last two clauses: an end stays the same end, with the block's state unchanged (R325), and a
command left pending by the last action leads to an end in one step (R361). Which actions are left is read from the list of turns,
the model's own (assumption log 3). -/
def Obligations.EndOfRun : Prop :=
  (∀ (s : State) (n : Nat), s.turns = .host (.read 1#4) :: List.replicate n .engine → s.busy = false → ∃ t : State,
    step s = .next t ∧ t = { s with turns := List.replicate n .engine, seen := s.seen ++ [.register 1#4 (statusWord s)] } ∧
    (runFailed t = true ↔ s.errCode ≠ 0#4) ∧ (runSucceeded t = true ↔ s.errCode = 0#4)) ∧
  (∀ s : State, (∃ a, .host a ∈ s.turns) ∨ s.busy = true → runFailed s = false ∧ runSucceeded s = false) ∧
  (∀ s : State, runEnd s ≠ none → ∃ t : State,
    step s = .next t ∧ t = { s with turns := s.turns.tail } ∧ runEnd t = runEnd s) ∧
  (∀ s : State, Inv s → s.turns = [] → s.busy = true → ∃ t : State,
    step s = .next t ∧ (runFailed t = true ∨ runSucceeded t = true))
end

