-- ==== Sys2Proof/Laws/Decode.lean ====
section
/-! SUPPORT. What the decoder and the assembler can answer, said once. -/

namespace Sys2Proof

/-- A word decodes to a command only through a row of the opcode table that it matches (R109). -/
theorem decode_command {w : Word} {i : Instr} (h : decode w = .command i) :
    ∃ row ∈ opTable, row.fits w = true ∧ row.build w = i := by
  unfold decode at h
  split at h
  · next row heq =>
    exact ⟨row, List.mem_of_find?_eq_some heq, by simpa using List.find?_some heq, by simpa using h⟩
  · simp at h

/-- A row whose mask covers the opcode byte matches only words with the opcode byte of its match value (R100, R108). -/
theorem opcodeByte_of_fits {row : OpRow} {w : Word} (hm : opcodeByte row.mask = 0xFF#8) (hf : row.fits w = true) :
    opcodeByte w = opcodeByte row.pattern := by
  have h : w &&& row.mask = row.pattern := by simpa [OpRow.fits] using hf
  have hand : opcodeByte (w &&& row.mask) = opcodeByte w &&& opcodeByte row.mask := by
    simp [opcodeByte, field, BitVec.extractLsb'_and]
  rw [← h, hand, hm]
  exact (BitVec.and_allOnes (x := opcodeByte w)).symm

/-- A word is illegal only when no row of the opcode table matches it (R110). -/
theorem decode_illegal {w : Word} {why : IllegalWord} (h : decode w = .illegal why) :
    (∀ row ∈ opTable, row.fits w = false) ∧ why = illegalCase w := by
  unfold decode at h
  split at h
  · simp at h
  · next heq =>
    refine ⟨fun row hr => ?_, by simpa using h.symm⟩
    have := List.find?_eq_none.mp heq row hr
    simpa using this

/-- `find?` answers a row for every word that matches one (R109: `Decode` is total). -/
theorem decode_of_fits {w : Word} {row : OpRow} (hr : row ∈ opTable) (hf : row.fits w = true) :
    ∃ i, decode w = .command i := by
  unfold decode
  split
  · exact ⟨_, rfl⟩
  · next heq => exact absurd hf (by simpa using List.find?_eq_none.mp heq row hr)

/-- The format of every command's opcode byte is one of the six (R108). -/
theorem formatOf_opcodeOf (i : Instr) : (formatOf (opcodeOf i)).isSome = true := by
  cases i <;> rfl

/-- Every command's assembler line is well formed: no operand an `Instr` can hold is out of its field's range (R118). -/
theorem lineOf_wellFormed (i : Instr) : (lineOf i).wellFormed = true := by
  cases i <;> try rfl
  case histCount b => simp [lineOf, argsOf, opcodeOf, AsmLine.wellFormed, formatOf, argsFit]; omega
  case histRead b => simp [lineOf, argsOf, opcodeOf, AsmLine.wellFormed, formatOf, argsFit]; omega
  case encodeByte b => simp [lineOf, argsOf, opcodeOf, AsmLine.wellFormed, formatOf, argsFit]; omega
  case nodeRead b => simp [lineOf, argsOf, opcodeOf, AsmLine.wellFormed, formatOf, argsFit]; omega
  case codeLen b => simp [lineOf, argsOf, opcodeOf, AsmLine.wellFormed, formatOf, argsFit]; omega
  case codeBits s w => simp [lineOf, argsOf, opcodeOf, AsmLine.wellFormed, formatOf, argsFit]; omega
  case emitHeader m => cases m <;> rfl
  case compress m => cases m <;> rfl

end Sys2Proof
end

