-- ==== Sys2Proof/Laws/State.lean ====
section
/-! SUPPORT. One lemma per field per update of the state, each true by rfl, so that no later proof unfolds a record update. -/

namespace Sys2Proof.Machine

variable (s : State)

/-! ### latchError -/

@[simp] theorem latchError_busy (e : ErrorKind) (opc : Byte) : (latchError e opc s).busy = s.busy := rfl
@[simp] theorem latchError_pending (e : ErrorKind) (opc : Byte) : (latchError e opc s).pending = s.pending := rfl
@[simp] theorem latchError_hist (e : ErrorKind) (opc : Byte) : (latchError e opc s).hist = s.hist := rfl
@[simp] theorem latchError_nodes (e : ErrorKind) (opc : Byte) : (latchError e opc s).nodes = s.nodes := rfl
@[simp] theorem latchError_nodeCount (e : ErrorKind) (opc : Byte) : (latchError e opc s).nodeCount = s.nodeCount := rfl
@[simp] theorem latchError_root (e : ErrorKind) (opc : Byte) : (latchError e opc s).root = s.root := rfl
@[simp] theorem latchError_treeValid (e : ErrorKind) (opc : Byte) : (latchError e opc s).treeValid = s.treeValid := rfl
@[simp] theorem latchError_treeSrc (e : ErrorKind) (opc : Byte) : (latchError e opc s).treeSrc = s.treeSrc := rfl
@[simp] theorem latchError_codes (e : ErrorKind) (opc : Byte) : (latchError e opc s).codes = s.codes := rfl
@[simp] theorem latchError_codesValid (e : ErrorKind) (opc : Byte) : (latchError e opc s).codesValid = s.codesValid := rfl
@[simp] theorem latchError_result (e : ErrorKind) (opc : Byte) : (latchError e opc s).result = s.result := rfl
@[simp] theorem latchError_eos (e : ErrorKind) (opc : Byte) : (latchError e opc s).eos = s.eos := rfl
@[simp] theorem latchError_errCode (e : ErrorKind) (opc : Byte) : (latchError e opc s).errCode = errorCode e := rfl
@[simp] theorem latchError_errOpc (e : ErrorKind) (opc : Byte) : (latchError e opc s).errOpc = opc := rfl
@[simp] theorem latchError_ovr (e : ErrorKind) (opc : Byte) : (latchError e opc s).ovr = s.ovr := rfl
@[simp] theorem latchError_input (e : ErrorKind) (opc : Byte) : (latchError e opc s).input = s.input := rfl
@[simp] theorem latchError_inPos (e : ErrorKind) (opc : Byte) : (latchError e opc s).inPos = s.inPos := rfl
@[simp] theorem latchError_out (e : ErrorKind) (opc : Byte) : (latchError e opc s).out = s.out := rfl
@[simp] theorem latchError_turns (e : ErrorKind) (opc : Byte) : (latchError e opc s).turns = s.turns := rfl
@[simp] theorem latchError_seen (e : ErrorKind) (opc : Byte) : (latchError e opc s).seen = s.seen := rfl
@[simp] theorem latchError_draws (e : ErrorKind) (opc : Byte) : (latchError e opc s).draws = s.draws := rfl

/-! ### clearError -/

@[simp] theorem clearError_busy : (clearError s).busy = s.busy := rfl
@[simp] theorem clearError_pending : (clearError s).pending = s.pending := rfl
@[simp] theorem clearError_hist : (clearError s).hist = s.hist := rfl
@[simp] theorem clearError_nodes : (clearError s).nodes = s.nodes := rfl
@[simp] theorem clearError_nodeCount : (clearError s).nodeCount = s.nodeCount := rfl
@[simp] theorem clearError_root : (clearError s).root = s.root := rfl
@[simp] theorem clearError_treeValid : (clearError s).treeValid = s.treeValid := rfl
@[simp] theorem clearError_treeSrc : (clearError s).treeSrc = s.treeSrc := rfl
@[simp] theorem clearError_codes : (clearError s).codes = s.codes := rfl
@[simp] theorem clearError_codesValid : (clearError s).codesValid = s.codesValid := rfl
@[simp] theorem clearError_result : (clearError s).result = s.result := rfl
@[simp] theorem clearError_eos : (clearError s).eos = s.eos := rfl
@[simp] theorem clearError_errCode : (clearError s).errCode = 0#4 := rfl
@[simp] theorem clearError_errOpc : (clearError s).errOpc = 0#8 := rfl
@[simp] theorem clearError_ovr : (clearError s).ovr = false := rfl
@[simp] theorem clearError_input : (clearError s).input = s.input := rfl
@[simp] theorem clearError_inPos : (clearError s).inPos = s.inPos := rfl
@[simp] theorem clearError_out : (clearError s).out = s.out := rfl
@[simp] theorem clearError_turns : (clearError s).turns = s.turns := rfl
@[simp] theorem clearError_seen : (clearError s).seen = s.seen := rfl
@[simp] theorem clearError_draws : (clearError s).draws = s.draws := rfl

/-! ### rewind -/

@[simp] theorem rewind_busy : (rewind s).busy = s.busy := rfl
@[simp] theorem rewind_pending : (rewind s).pending = s.pending := rfl
@[simp] theorem rewind_hist : (rewind s).hist = s.hist := rfl
@[simp] theorem rewind_nodes : (rewind s).nodes = s.nodes := rfl
@[simp] theorem rewind_nodeCount : (rewind s).nodeCount = s.nodeCount := rfl
@[simp] theorem rewind_root : (rewind s).root = s.root := rfl
@[simp] theorem rewind_treeValid : (rewind s).treeValid = s.treeValid := rfl
@[simp] theorem rewind_treeSrc : (rewind s).treeSrc = s.treeSrc := rfl
@[simp] theorem rewind_codes : (rewind s).codes = s.codes := rfl
@[simp] theorem rewind_codesValid : (rewind s).codesValid = s.codesValid := rfl
@[simp] theorem rewind_result : (rewind s).result = s.result := rfl
@[simp] theorem rewind_eos : (rewind s).eos = s.eos := rfl
@[simp] theorem rewind_errCode : (rewind s).errCode = s.errCode := rfl
@[simp] theorem rewind_errOpc : (rewind s).errOpc = s.errOpc := rfl
@[simp] theorem rewind_ovr : (rewind s).ovr = s.ovr := rfl
@[simp] theorem rewind_input : (rewind s).input = s.input := rfl
@[simp] theorem rewind_inPos : (rewind s).inPos = 0 := rfl
@[simp] theorem rewind_out : (rewind s).out = s.out := rfl
@[simp] theorem rewind_turns : (rewind s).turns = s.turns := rfl
@[simp] theorem rewind_seen : (rewind s).seen = s.seen := rfl
@[simp] theorem rewind_draws : (rewind s).draws = s.draws := rfl

/-! ### appendOut -/

@[simp] theorem appendOut_busy (bits : List Bool) : (appendOut bits s).busy = s.busy := rfl
@[simp] theorem appendOut_pending (bits : List Bool) : (appendOut bits s).pending = s.pending := rfl
@[simp] theorem appendOut_hist (bits : List Bool) : (appendOut bits s).hist = s.hist := rfl
@[simp] theorem appendOut_nodes (bits : List Bool) : (appendOut bits s).nodes = s.nodes := rfl
@[simp] theorem appendOut_nodeCount (bits : List Bool) : (appendOut bits s).nodeCount = s.nodeCount := rfl
@[simp] theorem appendOut_root (bits : List Bool) : (appendOut bits s).root = s.root := rfl
@[simp] theorem appendOut_treeValid (bits : List Bool) : (appendOut bits s).treeValid = s.treeValid := rfl
@[simp] theorem appendOut_treeSrc (bits : List Bool) : (appendOut bits s).treeSrc = s.treeSrc := rfl
@[simp] theorem appendOut_codes (bits : List Bool) : (appendOut bits s).codes = s.codes := rfl
@[simp] theorem appendOut_codesValid (bits : List Bool) : (appendOut bits s).codesValid = s.codesValid := rfl
@[simp] theorem appendOut_result (bits : List Bool) : (appendOut bits s).result = s.result := rfl
@[simp] theorem appendOut_eos (bits : List Bool) : (appendOut bits s).eos = s.eos := rfl
@[simp] theorem appendOut_errCode (bits : List Bool) : (appendOut bits s).errCode = s.errCode := rfl
@[simp] theorem appendOut_errOpc (bits : List Bool) : (appendOut bits s).errOpc = s.errOpc := rfl
@[simp] theorem appendOut_ovr (bits : List Bool) : (appendOut bits s).ovr = s.ovr := rfl
@[simp] theorem appendOut_input (bits : List Bool) : (appendOut bits s).input = s.input := rfl
@[simp] theorem appendOut_inPos (bits : List Bool) : (appendOut bits s).inPos = s.inPos := rfl
@[simp] theorem appendOut_out (bits : List Bool) : (appendOut bits s).out = s.out ++ bits := rfl
@[simp] theorem appendOut_turns (bits : List Bool) : (appendOut bits s).turns = s.turns := rfl
@[simp] theorem appendOut_seen (bits : List Bool) : (appendOut bits s).seen = s.seen := rfl
@[simp] theorem appendOut_draws (bits : List Bool) : (appendOut bits s).draws = s.draws := rfl

/-! ### writeBits -/

@[simp] theorem writeBits_busy {w : Nat} (n : Nat) (v : BitVec w) : (writeBits n v s).busy = s.busy := rfl
@[simp] theorem writeBits_pending {w : Nat} (n : Nat) (v : BitVec w) : (writeBits n v s).pending = s.pending := rfl
@[simp] theorem writeBits_hist {w : Nat} (n : Nat) (v : BitVec w) : (writeBits n v s).hist = s.hist := rfl
@[simp] theorem writeBits_nodes {w : Nat} (n : Nat) (v : BitVec w) : (writeBits n v s).nodes = s.nodes := rfl
@[simp] theorem writeBits_nodeCount {w : Nat} (n : Nat) (v : BitVec w) : (writeBits n v s).nodeCount = s.nodeCount := rfl
@[simp] theorem writeBits_root {w : Nat} (n : Nat) (v : BitVec w) : (writeBits n v s).root = s.root := rfl
@[simp] theorem writeBits_treeValid {w : Nat} (n : Nat) (v : BitVec w) : (writeBits n v s).treeValid = s.treeValid := rfl
@[simp] theorem writeBits_treeSrc {w : Nat} (n : Nat) (v : BitVec w) : (writeBits n v s).treeSrc = s.treeSrc := rfl
@[simp] theorem writeBits_codes {w : Nat} (n : Nat) (v : BitVec w) : (writeBits n v s).codes = s.codes := rfl
@[simp] theorem writeBits_codesValid {w : Nat} (n : Nat) (v : BitVec w) : (writeBits n v s).codesValid = s.codesValid := rfl
@[simp] theorem writeBits_result {w : Nat} (n : Nat) (v : BitVec w) : (writeBits n v s).result = s.result := rfl
@[simp] theorem writeBits_eos {w : Nat} (n : Nat) (v : BitVec w) : (writeBits n v s).eos = s.eos := rfl
@[simp] theorem writeBits_errCode {w : Nat} (n : Nat) (v : BitVec w) : (writeBits n v s).errCode = s.errCode := rfl
@[simp] theorem writeBits_errOpc {w : Nat} (n : Nat) (v : BitVec w) : (writeBits n v s).errOpc = s.errOpc := rfl
@[simp] theorem writeBits_ovr {w : Nat} (n : Nat) (v : BitVec w) : (writeBits n v s).ovr = s.ovr := rfl
@[simp] theorem writeBits_input {w : Nat} (n : Nat) (v : BitVec w) : (writeBits n v s).input = s.input := rfl
@[simp] theorem writeBits_inPos {w : Nat} (n : Nat) (v : BitVec w) : (writeBits n v s).inPos = s.inPos := rfl
@[simp] theorem writeBits_out {w : Nat} (n : Nat) (v : BitVec w) : (writeBits n v s).out = s.out ++ msbBits n v := rfl
@[simp] theorem writeBits_turns {w : Nat} (n : Nat) (v : BitVec w) : (writeBits n v s).turns = s.turns := rfl
@[simp] theorem writeBits_seen {w : Nat} (n : Nat) (v : BitVec w) : (writeBits n v s).seen = s.seen := rfl
@[simp] theorem writeBits_draws {w : Nat} (n : Nat) (v : BitVec w) : (writeBits n v s).draws = s.draws := rfl

/-! ### flush -/

@[simp] theorem flush_busy : (flush s).busy = s.busy := rfl
@[simp] theorem flush_pending : (flush s).pending = s.pending := rfl
@[simp] theorem flush_hist : (flush s).hist = s.hist := rfl
@[simp] theorem flush_nodes : (flush s).nodes = s.nodes := rfl
@[simp] theorem flush_nodeCount : (flush s).nodeCount = s.nodeCount := rfl
@[simp] theorem flush_root : (flush s).root = s.root := rfl
@[simp] theorem flush_treeValid : (flush s).treeValid = s.treeValid := rfl
@[simp] theorem flush_treeSrc : (flush s).treeSrc = s.treeSrc := rfl
@[simp] theorem flush_codes : (flush s).codes = s.codes := rfl
@[simp] theorem flush_codesValid : (flush s).codesValid = s.codesValid := rfl
@[simp] theorem flush_result : (flush s).result = s.result := rfl
@[simp] theorem flush_eos : (flush s).eos = s.eos := rfl
@[simp] theorem flush_errCode : (flush s).errCode = s.errCode := rfl
@[simp] theorem flush_errOpc : (flush s).errOpc = s.errOpc := rfl
@[simp] theorem flush_ovr : (flush s).ovr = s.ovr := rfl
@[simp] theorem flush_input : (flush s).input = s.input := rfl
@[simp] theorem flush_inPos : (flush s).inPos = s.inPos := rfl
@[simp] theorem flush_out : (flush s).out = s.out ++ padding s.out.length := rfl
@[simp] theorem flush_turns : (flush s).turns = s.turns := rfl
@[simp] theorem flush_seen : (flush s).seen = s.seen := rfl
@[simp] theorem flush_draws : (flush s).draws = s.draws := rfl

/-! ### setHist -/

@[simp] theorem setHist_busy (b : Byte) (v : Word) : (setHist b v s).busy = s.busy := rfl
@[simp] theorem setHist_pending (b : Byte) (v : Word) : (setHist b v s).pending = s.pending := rfl
@[simp] theorem setHist_hist (b : Byte) (v : Word) : (setHist b v s).hist = s.hist.set b.toNat v b.isLt := rfl
@[simp] theorem setHist_nodes (b : Byte) (v : Word) : (setHist b v s).nodes = s.nodes := rfl
@[simp] theorem setHist_nodeCount (b : Byte) (v : Word) : (setHist b v s).nodeCount = s.nodeCount := rfl
@[simp] theorem setHist_root (b : Byte) (v : Word) : (setHist b v s).root = s.root := rfl
@[simp] theorem setHist_treeValid (b : Byte) (v : Word) : (setHist b v s).treeValid = s.treeValid := rfl
@[simp] theorem setHist_treeSrc (b : Byte) (v : Word) : (setHist b v s).treeSrc = s.treeSrc := rfl
@[simp] theorem setHist_codes (b : Byte) (v : Word) : (setHist b v s).codes = s.codes := rfl
@[simp] theorem setHist_codesValid (b : Byte) (v : Word) : (setHist b v s).codesValid = s.codesValid := rfl
@[simp] theorem setHist_result (b : Byte) (v : Word) : (setHist b v s).result = s.result := rfl
@[simp] theorem setHist_eos (b : Byte) (v : Word) : (setHist b v s).eos = s.eos := rfl
@[simp] theorem setHist_errCode (b : Byte) (v : Word) : (setHist b v s).errCode = s.errCode := rfl
@[simp] theorem setHist_errOpc (b : Byte) (v : Word) : (setHist b v s).errOpc = s.errOpc := rfl
@[simp] theorem setHist_ovr (b : Byte) (v : Word) : (setHist b v s).ovr = s.ovr := rfl
@[simp] theorem setHist_input (b : Byte) (v : Word) : (setHist b v s).input = s.input := rfl
@[simp] theorem setHist_inPos (b : Byte) (v : Word) : (setHist b v s).inPos = s.inPos := rfl
@[simp] theorem setHist_out (b : Byte) (v : Word) : (setHist b v s).out = s.out := rfl
@[simp] theorem setHist_turns (b : Byte) (v : Word) : (setHist b v s).turns = s.turns := rfl
@[simp] theorem setHist_seen (b : Byte) (v : Word) : (setHist b v s).seen = s.seen := rfl
@[simp] theorem setHist_draws (b : Byte) (v : Word) : (setHist b v s).draws = s.draws := rfl

/-! ### clearHist -/

@[simp] theorem clearHist_busy : (clearHist s).busy = s.busy := rfl
@[simp] theorem clearHist_pending : (clearHist s).pending = s.pending := rfl
@[simp] theorem clearHist_hist : (clearHist s).hist = Vector.replicate byteValues 0#32 := rfl
@[simp] theorem clearHist_nodes : (clearHist s).nodes = s.nodes := rfl
@[simp] theorem clearHist_nodeCount : (clearHist s).nodeCount = s.nodeCount := rfl
@[simp] theorem clearHist_root : (clearHist s).root = s.root := rfl
@[simp] theorem clearHist_treeValid : (clearHist s).treeValid = s.treeValid := rfl
@[simp] theorem clearHist_treeSrc : (clearHist s).treeSrc = s.treeSrc := rfl
@[simp] theorem clearHist_codes : (clearHist s).codes = s.codes := rfl
@[simp] theorem clearHist_codesValid : (clearHist s).codesValid = s.codesValid := rfl
@[simp] theorem clearHist_result : (clearHist s).result = s.result := rfl
@[simp] theorem clearHist_eos : (clearHist s).eos = s.eos := rfl
@[simp] theorem clearHist_errCode : (clearHist s).errCode = s.errCode := rfl
@[simp] theorem clearHist_errOpc : (clearHist s).errOpc = s.errOpc := rfl
@[simp] theorem clearHist_ovr : (clearHist s).ovr = s.ovr := rfl
@[simp] theorem clearHist_input : (clearHist s).input = s.input := rfl
@[simp] theorem clearHist_inPos : (clearHist s).inPos = s.inPos := rfl
@[simp] theorem clearHist_out : (clearHist s).out = s.out := rfl
@[simp] theorem clearHist_turns : (clearHist s).turns = s.turns := rfl
@[simp] theorem clearHist_seen : (clearHist s).seen = s.seen := rfl
@[simp] theorem clearHist_draws : (clearHist s).draws = s.draws := rfl

/-! ### storeNode -/

@[simp] theorem storeNode_busy (i : Nat) (e : Node) : (storeNode i e s).busy = s.busy := rfl
@[simp] theorem storeNode_pending (i : Nat) (e : Node) : (storeNode i e s).pending = s.pending := rfl
@[simp] theorem storeNode_hist (i : Nat) (e : Node) : (storeNode i e s).hist = s.hist := rfl
@[simp] theorem storeNode_nodes (i : Nat) (e : Node) : (storeNode i e s).nodes = setNode i e s.nodes := rfl
@[simp] theorem storeNode_nodeCount (i : Nat) (e : Node) : (storeNode i e s).nodeCount = s.nodeCount := rfl
@[simp] theorem storeNode_root (i : Nat) (e : Node) : (storeNode i e s).root = s.root := rfl
@[simp] theorem storeNode_treeValid (i : Nat) (e : Node) : (storeNode i e s).treeValid = s.treeValid := rfl
@[simp] theorem storeNode_treeSrc (i : Nat) (e : Node) : (storeNode i e s).treeSrc = s.treeSrc := rfl
@[simp] theorem storeNode_codes (i : Nat) (e : Node) : (storeNode i e s).codes = s.codes := rfl
@[simp] theorem storeNode_codesValid (i : Nat) (e : Node) : (storeNode i e s).codesValid = s.codesValid := rfl
@[simp] theorem storeNode_result (i : Nat) (e : Node) : (storeNode i e s).result = s.result := rfl
@[simp] theorem storeNode_eos (i : Nat) (e : Node) : (storeNode i e s).eos = s.eos := rfl
@[simp] theorem storeNode_errCode (i : Nat) (e : Node) : (storeNode i e s).errCode = s.errCode := rfl
@[simp] theorem storeNode_errOpc (i : Nat) (e : Node) : (storeNode i e s).errOpc = s.errOpc := rfl
@[simp] theorem storeNode_ovr (i : Nat) (e : Node) : (storeNode i e s).ovr = s.ovr := rfl
@[simp] theorem storeNode_input (i : Nat) (e : Node) : (storeNode i e s).input = s.input := rfl
@[simp] theorem storeNode_inPos (i : Nat) (e : Node) : (storeNode i e s).inPos = s.inPos := rfl
@[simp] theorem storeNode_out (i : Nat) (e : Node) : (storeNode i e s).out = s.out := rfl
@[simp] theorem storeNode_turns (i : Nat) (e : Node) : (storeNode i e s).turns = s.turns := rfl
@[simp] theorem storeNode_seen (i : Nat) (e : Node) : (storeNode i e s).seen = s.seen := rfl
@[simp] theorem storeNode_draws (i : Nat) (e : Node) : (storeNode i e s).draws = s.draws := rfl

/-! ### invalidateTree -/

@[simp] theorem invalidateTree_busy : (invalidateTree s).busy = s.busy := rfl
@[simp] theorem invalidateTree_pending : (invalidateTree s).pending = s.pending := rfl
@[simp] theorem invalidateTree_hist : (invalidateTree s).hist = s.hist := rfl
@[simp] theorem invalidateTree_nodes : (invalidateTree s).nodes = s.nodes := rfl
@[simp] theorem invalidateTree_nodeCount : (invalidateTree s).nodeCount = 0#10 := rfl
@[simp] theorem invalidateTree_root : (invalidateTree s).root = 0#10 := rfl
@[simp] theorem invalidateTree_treeValid : (invalidateTree s).treeValid = false := rfl
@[simp] theorem invalidateTree_treeSrc : (invalidateTree s).treeSrc = s.treeSrc := rfl
@[simp] theorem invalidateTree_codes : (invalidateTree s).codes = s.codes := rfl
@[simp] theorem invalidateTree_codesValid : (invalidateTree s).codesValid = false := rfl
@[simp] theorem invalidateTree_result : (invalidateTree s).result = s.result := rfl
@[simp] theorem invalidateTree_eos : (invalidateTree s).eos = false := rfl
@[simp] theorem invalidateTree_errCode : (invalidateTree s).errCode = s.errCode := rfl
@[simp] theorem invalidateTree_errOpc : (invalidateTree s).errOpc = s.errOpc := rfl
@[simp] theorem invalidateTree_ovr : (invalidateTree s).ovr = s.ovr := rfl
@[simp] theorem invalidateTree_input : (invalidateTree s).input = s.input := rfl
@[simp] theorem invalidateTree_inPos : (invalidateTree s).inPos = s.inPos := rfl
@[simp] theorem invalidateTree_out : (invalidateTree s).out = s.out := rfl
@[simp] theorem invalidateTree_turns : (invalidateTree s).turns = s.turns := rfl
@[simp] theorem invalidateTree_seen : (invalidateTree s).seen = s.seen := rfl
@[simp] theorem invalidateTree_draws : (invalidateTree s).draws = s.draws := rfl

/-! ### buildTree -/

@[simp] theorem buildTree_busy : (buildTree s).busy = s.busy := rfl
@[simp] theorem buildTree_pending : (buildTree s).pending = s.pending := rfl
@[simp] theorem buildTree_hist : (buildTree s).hist = s.hist := rfl
@[simp] theorem buildTree_nodes : (buildTree s).nodes = (buildMerged s).nodes := rfl
@[simp] theorem buildTree_nodeCount : (buildTree s).nodeCount = BitVec.ofNat 10 (buildMerged s).next := rfl
@[simp] theorem buildTree_root : (buildTree s).root = BitVec.ofNat 10 ((buildMerged s).queue.headD 0) := rfl
@[simp] theorem buildTree_treeValid : (buildTree s).treeValid = true := rfl
@[simp] theorem buildTree_treeSrc : (buildTree s).treeSrc = false := rfl
@[simp] theorem buildTree_codes : (buildTree s).codes = s.codes := rfl
@[simp] theorem buildTree_codesValid : (buildTree s).codesValid = false := rfl
@[simp] theorem buildTree_result : (buildTree s).result = s.result := rfl
@[simp] theorem buildTree_eos : (buildTree s).eos = s.eos := rfl
@[simp] theorem buildTree_errCode : (buildTree s).errCode = s.errCode := rfl
@[simp] theorem buildTree_errOpc : (buildTree s).errOpc = s.errOpc := rfl
@[simp] theorem buildTree_ovr : (buildTree s).ovr = s.ovr := rfl
@[simp] theorem buildTree_input : (buildTree s).input = s.input := rfl
@[simp] theorem buildTree_inPos : (buildTree s).inPos = s.inPos := rfl
@[simp] theorem buildTree_out : (buildTree s).out = s.out := rfl
@[simp] theorem buildTree_turns : (buildTree s).turns = s.turns := rfl
@[simp] theorem buildTree_seen : (buildTree s).seen = s.seen := rfl
@[simp] theorem buildTree_draws : (buildTree s).draws = s.draws := rfl

/-! ### setResetValues -/

@[simp] theorem setResetValues_busy : (setResetValues s).busy = s.busy := rfl
@[simp] theorem setResetValues_pending : (setResetValues s).pending = s.pending := rfl
@[simp] theorem setResetValues_hist : (setResetValues s).hist = Vector.replicate byteValues 0#32 := rfl
@[simp] theorem setResetValues_nodes : (setResetValues s).nodes = s.nodes := rfl
@[simp] theorem setResetValues_nodeCount : (setResetValues s).nodeCount = 0#10 := rfl
@[simp] theorem setResetValues_root : (setResetValues s).root = 0#10 := rfl
@[simp] theorem setResetValues_treeValid : (setResetValues s).treeValid = false := rfl
@[simp] theorem setResetValues_treeSrc : (setResetValues s).treeSrc = false := rfl
@[simp] theorem setResetValues_codes : (setResetValues s).codes = s.codes := rfl
@[simp] theorem setResetValues_codesValid : (setResetValues s).codesValid = false := rfl
@[simp] theorem setResetValues_result : (setResetValues s).result = 0#32 := rfl
@[simp] theorem setResetValues_eos : (setResetValues s).eos = false := rfl
@[simp] theorem setResetValues_errCode : (setResetValues s).errCode = 0#4 := rfl
@[simp] theorem setResetValues_errOpc : (setResetValues s).errOpc = 0#8 := rfl
@[simp] theorem setResetValues_ovr : (setResetValues s).ovr = false := rfl
@[simp] theorem setResetValues_input : (setResetValues s).input = s.input := rfl
@[simp] theorem setResetValues_inPos : (setResetValues s).inPos = 0 := rfl
@[simp] theorem setResetValues_out : (setResetValues s).out = s.out := rfl
@[simp] theorem setResetValues_turns : (setResetValues s).turns = s.turns := rfl
@[simp] theorem setResetValues_seen : (setResetValues s).seen = s.seen := rfl
@[simp] theorem setResetValues_draws : (setResetValues s).draws = s.draws := rfl

/-! ### loadIn -/

@[simp] theorem loadIn_busy (bytes : List Byte) : (loadIn bytes s).busy = s.busy := rfl
@[simp] theorem loadIn_pending (bytes : List Byte) : (loadIn bytes s).pending = s.pending := rfl
@[simp] theorem loadIn_hist (bytes : List Byte) : (loadIn bytes s).hist = s.hist := rfl
@[simp] theorem loadIn_nodes (bytes : List Byte) : (loadIn bytes s).nodes = s.nodes := rfl
@[simp] theorem loadIn_nodeCount (bytes : List Byte) : (loadIn bytes s).nodeCount = s.nodeCount := rfl
@[simp] theorem loadIn_root (bytes : List Byte) : (loadIn bytes s).root = s.root := rfl
@[simp] theorem loadIn_treeValid (bytes : List Byte) : (loadIn bytes s).treeValid = s.treeValid := rfl
@[simp] theorem loadIn_treeSrc (bytes : List Byte) : (loadIn bytes s).treeSrc = s.treeSrc := rfl
@[simp] theorem loadIn_codes (bytes : List Byte) : (loadIn bytes s).codes = s.codes := rfl
@[simp] theorem loadIn_codesValid (bytes : List Byte) : (loadIn bytes s).codesValid = s.codesValid := rfl
@[simp] theorem loadIn_result (bytes : List Byte) : (loadIn bytes s).result = s.result := rfl
@[simp] theorem loadIn_eos (bytes : List Byte) : (loadIn bytes s).eos = s.eos := rfl
@[simp] theorem loadIn_errCode (bytes : List Byte) : (loadIn bytes s).errCode = s.errCode := rfl
@[simp] theorem loadIn_errOpc (bytes : List Byte) : (loadIn bytes s).errOpc = s.errOpc := rfl
@[simp] theorem loadIn_ovr (bytes : List Byte) : (loadIn bytes s).ovr = s.ovr := rfl
@[simp] theorem loadIn_input (bytes : List Byte) : (loadIn bytes s).input = bytes := rfl
@[simp] theorem loadIn_inPos (bytes : List Byte) : (loadIn bytes s).inPos = 0 := rfl
@[simp] theorem loadIn_out (bytes : List Byte) : (loadIn bytes s).out = s.out := rfl
@[simp] theorem loadIn_turns (bytes : List Byte) : (loadIn bytes s).turns = s.turns := rfl
@[simp] theorem loadIn_seen (bytes : List Byte) : (loadIn bytes s).seen = s.seen := rfl
@[simp] theorem loadIn_draws (bytes : List Byte) : (loadIn bytes s).draws = s.draws := rfl

/-! ### give -/

@[simp] theorem give_busy (x : Seen) : (give x s).busy = s.busy := rfl
@[simp] theorem give_pending (x : Seen) : (give x s).pending = s.pending := rfl
@[simp] theorem give_hist (x : Seen) : (give x s).hist = s.hist := rfl
@[simp] theorem give_nodes (x : Seen) : (give x s).nodes = s.nodes := rfl
@[simp] theorem give_nodeCount (x : Seen) : (give x s).nodeCount = s.nodeCount := rfl
@[simp] theorem give_root (x : Seen) : (give x s).root = s.root := rfl
@[simp] theorem give_treeValid (x : Seen) : (give x s).treeValid = s.treeValid := rfl
@[simp] theorem give_treeSrc (x : Seen) : (give x s).treeSrc = s.treeSrc := rfl
@[simp] theorem give_codes (x : Seen) : (give x s).codes = s.codes := rfl
@[simp] theorem give_codesValid (x : Seen) : (give x s).codesValid = s.codesValid := rfl
@[simp] theorem give_result (x : Seen) : (give x s).result = s.result := rfl
@[simp] theorem give_eos (x : Seen) : (give x s).eos = s.eos := rfl
@[simp] theorem give_errCode (x : Seen) : (give x s).errCode = s.errCode := rfl
@[simp] theorem give_errOpc (x : Seen) : (give x s).errOpc = s.errOpc := rfl
@[simp] theorem give_ovr (x : Seen) : (give x s).ovr = s.ovr := rfl
@[simp] theorem give_input (x : Seen) : (give x s).input = s.input := rfl
@[simp] theorem give_inPos (x : Seen) : (give x s).inPos = s.inPos := rfl
@[simp] theorem give_out (x : Seen) : (give x s).out = s.out := rfl
@[simp] theorem give_turns (x : Seen) : (give x s).turns = s.turns := rfl
@[simp] theorem give_seen (x : Seen) : (give x s).seen = s.seen ++ [x] := rfl
@[simp] theorem give_draws (x : Seen) : (give x s).draws = s.draws := rfl

/-! ### drainOut -/

@[simp] theorem drainOut_busy : (drainOut s).busy = s.busy := rfl
@[simp] theorem drainOut_pending : (drainOut s).pending = s.pending := rfl
@[simp] theorem drainOut_hist : (drainOut s).hist = s.hist := rfl
@[simp] theorem drainOut_nodes : (drainOut s).nodes = s.nodes := rfl
@[simp] theorem drainOut_nodeCount : (drainOut s).nodeCount = s.nodeCount := rfl
@[simp] theorem drainOut_root : (drainOut s).root = s.root := rfl
@[simp] theorem drainOut_treeValid : (drainOut s).treeValid = s.treeValid := rfl
@[simp] theorem drainOut_treeSrc : (drainOut s).treeSrc = s.treeSrc := rfl
@[simp] theorem drainOut_codes : (drainOut s).codes = s.codes := rfl
@[simp] theorem drainOut_codesValid : (drainOut s).codesValid = s.codesValid := rfl
@[simp] theorem drainOut_result : (drainOut s).result = s.result := rfl
@[simp] theorem drainOut_eos : (drainOut s).eos = s.eos := rfl
@[simp] theorem drainOut_errCode : (drainOut s).errCode = s.errCode := rfl
@[simp] theorem drainOut_errOpc : (drainOut s).errOpc = s.errOpc := rfl
@[simp] theorem drainOut_ovr : (drainOut s).ovr = s.ovr := rfl
@[simp] theorem drainOut_input : (drainOut s).input = s.input := rfl
@[simp] theorem drainOut_inPos : (drainOut s).inPos = s.inPos := rfl
@[simp] theorem drainOut_out : (drainOut s).out = [] := rfl
@[simp] theorem drainOut_turns : (drainOut s).turns = s.turns := rfl
@[simp] theorem drainOut_seen : (drainOut s).seen = s.seen ++ [.drained s.out] := rfl
@[simp] theorem drainOut_draws : (drainOut s).draws = s.draws := rfl

end Sys2Proof.Machine
end

