-- ==== Sys2Proof/Laws/Ops.lean ====
section
/-! SUPPORT. What each shared operation can do, said once: commands that can raise an error, the streams, the internal
memories, the queue, and the loops. -/

namespace Sys2Proof.Machine

/-! ### Commands that can raise an error -/

@[simp] theorem bind_ok {α β : Type} (a : α) (s : State) (k : α → State → Run β) : (Run.ok a s).bind k = k a s := rfl

@[simp] theorem bind_raised {α β : Type} (e : ErrorKind) (s : State) (k : α → State → Run β) :
    (Run.raised e s).bind k = .raised e s := rfl

@[simp] theorem bind_stuck {α β : Type} (f : Fault) (k : α → State → Run β) : (Run.stuck f).bind k = .stuck f := rfl

@[simp] theorem finish_ok (opc : Byte) (s : State) : finish opc (.ok () s) = .next s := rfl

@[simp] theorem finish_raised (opc : Byte) (e : ErrorKind) (s : State) :
    finish opc (.raised e s) = .next (latchError e opc s) := rfl

@[simp] theorem finish_stuck (opc : Byte) (f : Fault) : finish opc (.stuck f) = .fault f := rfl

/-- A command's next state is the one it went on with, or the one it raised at with the error latched. -/
theorem finish_next {opc : Byte} {r : Run Unit} {t : State} (h : finish opc r = .next t) :
    r = .ok () t ∨ ∃ e s, r = .raised e s ∧ t = latchError e opc s := by
  cases r with
  | ok a s =>
    simp only [finish, Host.Outcome.next.injEq] at h
    exact .inl (by rw [h])
  | raised e s =>
    simp only [finish, Host.Outcome.next.injEq] at h
    exact .inr ⟨e, s, rfl, h.symm⟩
  | stuck f => simp [finish] at h

/-- A command never refuses. -/
theorem finish_not_refused (opc : Byte) (r : Run Unit) (x : Refusal) : finish opc r ≠ .refused x := by
  cases r <;> simp [finish]

/-- What holds of the state a command has reached, whether it went on or raised an error. -/
def Run.All {α : Type} (P : State → Prop) : Run α → Prop
  | .ok _ s => P s
  | .raised _ s => P s
  | .stuck _ => True

@[simp] theorem all_ok {α : Type} (P : State → Prop) (a : α) (s : State) : Run.All P (.ok a s) = P s := rfl

@[simp] theorem all_raised {α : Type} (P : State → Prop) (e : ErrorKind) (s : State) :
    Run.All P (.raised e s : Run α) = P s := rfl

@[simp] theorem all_stuck {α : Type} (P : State → Prop) (f : Fault) : Run.All P (.stuck f : Run α) = True := rfl

/-- A property of the states reached carries over one part of a command after another. -/
theorem all_bind {α β : Type} {P : State → Prop} {x : Run α} {k : α → State → Run β} (hx : Run.All P x)
    (hk : ∀ a s, P s → Run.All P (k a s)) : Run.All P (x.bind k) := by
  cases x with
  | ok a s => exact hk a s hx
  | raised e s => exact hx
  | stuck f => trivial

/-- A property of the states reached, which latching an error keeps, holds of a command's next state. -/
theorem all_finish {P : State → Prop} {opc : Byte} {r : Run Unit} {t : State} (hr : Run.All P r)
    (hl : ∀ e s, P s → P (latchError e opc s)) (h : finish opc r = .next t) : P t := by
  rcases finish_next h with rfl | ⟨e, s, rfl, rfl⟩
  · exact hr
  · exact hl e s hr

theorem needTree_valid {s : State} {k : State → Run Unit} (h : s.treeValid = true) : needTree s k = k s := by
  simp [needTree, h]

theorem needTree_invalid {s : State} {k : State → Run Unit} (h : s.treeValid = false) :
    needTree s k = .raised .noTree s := by
  simp [needTree, h]

theorem needCodes_valid {s : State} {k : State → Run Unit} (h : s.codesValid = true) : needCodes s k = k s := by
  simp [needCodes, h]

theorem needCodes_invalid {s : State} {k : State → Run Unit} (h : s.codesValid = false) :
    needCodes s k = .raised .noCodes s := by
  simp [needCodes, h]

theorem all_needTree {P : State → Prop} {s : State} {k : State → Run Unit} (hs : P s) (hk : Run.All P (k s)) :
    Run.All P (needTree s k) := by
  unfold needTree
  split
  · exact hk
  · exact hs

theorem all_needCodes {P : State → Prop} {s : State} {k : State → Run Unit} (hs : P s) (hk : Run.All P (k s)) :
    Run.All P (needCodes s k) := by
  unfold needCodes
  split
  · exact hk
  · exact hs

/-- The code of an error is 1 to 10 (R301). -/
theorem errorCode_range (e : ErrorKind) : 1 ≤ (errorCode e).toNat ∧ (errorCode e).toNat ≤ 10 := by
  cases e <;> decide

/-- Different errors have different codes (R301). -/
theorem errorCode_injective {e e' : ErrorKind} (h : errorCode e = errorCode e') : e = e' := by
  cases e <;> cases e' <;> first | rfl | exact absurd h (by decide)

/-! ### The IN stream -/

@[simp] theorem streamBits_length (bytes : List Byte) (p n : Nat) : (streamBits bytes p n).length = n := by
  simp [streamBits]

/-- R72: bits of adjacent stretches of a stream. -/
theorem streamBits_append (bytes : List Byte) (p m n : Nat) :
    streamBits bytes p (m + n) = streamBits bytes p m ++ streamBits bytes (p + m) n := by
  simp [streamBits, List.range_add, Nat.add_assoc]

/-- R74: a read with bits enough gives their value and moves the cursor past them. -/
theorem readBits_full {n : Nat} {s : State} (h : s.inPos + n ≤ inBits s) :
    readBits n s =
      (some (BitVec.ofNat n (bitsValue (streamBits s.input s.inPos n))), { s with inPos := s.inPos + n }) := by
  simp [readBits, Nat.not_lt.mpr h]

/-- R74: a read of a short tail gives NO_DATA and consumes the tail. -/
theorem readBits_short {n : Nat} {s : State} (h : inBits s < s.inPos + n) :
    readBits n s = (none, { s with inPos := inBits s }) := by
  simp [readBits, h]

/-- A read changes the cursor and nothing else (R73, R74). -/
theorem readBits_state (n : Nat) (s : State) : (readBits n s).2 = { s with inPos := (readBits n s).2.inPos } := by
  unfold readBits
  split <;> rfl

/-- A read leaves the cursor inside the stream, and never behind where it was (R73). -/
theorem readBits_cursor (n : Nat) {s : State} (h : s.inPos ≤ inBits s) :
    s.inPos ≤ (readBits n s).2.inPos ∧ (readBits n s).2.inPos ≤ inBits s := by
  unfold readBits
  split
  · exact ⟨h, le_refl _⟩
  · constructor
    · exact Nat.le_add_right _ _
    · simp only; omega

theorem bitsValue_append (xs ys : List Bool) :
    bitsValue (xs ++ ys) = bitsValue xs * 2 ^ ys.length + bitsValue ys := by
  have gen : ∀ (ys : List Bool) (a : Nat),
      ys.foldl (fun v b => 2 * v + b.toNat) a = a * 2 ^ ys.length + ys.foldl (fun v b => 2 * v + b.toNat) 0 := by
    intro ys
    induction ys with
    | nil => simp
    | cons y ys ih =>
      intro a
      simp only [List.foldl_cons, List.length_cons]
      rw [ih (2 * a + y.toNat), ih (2 * 0 + y.toNat)]
      ring
  simp only [bitsValue, List.foldl_append]
  exact gen ys _

theorem bitsValue_lt (bits : List Bool) : bitsValue bits < 2 ^ bits.length := by
  induction bits using List.reverseRecOn with
  | nil => simp [bitsValue]
  | append_singleton xs b ih =>
    rw [bitsValue_append]
    have : bitsValue [b] < 2 := by cases b <;> decide
    simp only [List.length_append, List.length_singleton, pow_succ]
    omega

/-! ### The OUT stream -/

@[simp] theorem msbBits_length {w : Nat} (n : Nat) (v : BitVec w) : (msbBits n v).length = n := by
  simp [msbBits]

/-- R76: the first bit written is the most significant. -/
theorem msbBits_succ {w : Nat} (n : Nat) (v : BitVec w) : msbBits (n + 1) v = v.getLsbD n :: msbBits n v := by
  simp only [msbBits, List.range_succ_eq_map, List.map_cons, List.map_map]
  refine congrArg₂ _ (by simp) (List.map_congr_left fun k hk => ?_)
  simp only [Function.comp]
  congr 1
  omega

/-- The value of the low `n` bits of `v`, most significant first. -/
theorem bitsValue_msbBits {w : Nat} (n : Nat) (v : BitVec w) : bitsValue (msbBits n v) = v.toNat % 2 ^ n := by
  induction n with
  | zero => simp [msbBits, bitsValue, Nat.mod_one]
  | succ n ih =>
    rw [msbBits_succ, ← List.singleton_append, bitsValue_append, ih, msbBits_length]
    have h1 : bitsValue [v.getLsbD n] = (v.getLsbD n).toNat := by cases v.getLsbD n <;> rfl
    rw [h1, Nat.mod_pow_succ, BitVec.getLsbD, Nat.testBit, Nat.one_and_eq_mod_two, Nat.shiftRight_eq_div_pow]
    rcases Nat.mod_two_eq_zero_or_one (v.toNat / 2 ^ n) with h | h <;> simp [h]
    omega

@[simp] theorem padding_length (n : Nat) : (padding n).length = (8 - n % 8) % 8 := by
  simp [padding]

/-- R77: a flush makes the stream a whole number of bytes. -/
theorem padding_aligns (n : Nat) : (n + (padding n).length) % 8 = 0 := by
  rw [padding_length]
  omega

/-! ### The internal memories -/

@[simp] theorem histAt_setHist_same (b : Byte) (v : Word) (s : State) : histAt (setHist b v s) b = v := by
  simp [histAt, setHist]

/-- A write to one counter leaves every other alone (R40). -/
theorem histAt_setHist_ne {b c : Byte} (h : c ≠ b) (v : Word) (s : State) : histAt (setHist b v s) c = histAt s c := by
  have hn : b.toNat ≠ c.toNat := fun e => h (BitVec.eq_of_toNat_eq e.symm)
  simp [histAt, setHist, hn]

theorem setNode_same {i : Nat} (h : i < nodeCap) (e : Node) (nodes : Vector Node nodeCap) :
    (setNode i e nodes)[i] = e := by
  simp [setNode]

/-- A write to one node entry leaves every other alone (R41). -/
theorem setNode_ne {i j : Nat} (hj : j < nodeCap) (h : j ≠ i) (e : Node) (nodes : Vector Node nodeCap) :
    (setNode i e nodes)[j] = nodes[j] := by
  simp [setNode, Ne.symm h]

theorem nodeAt_ok {i : NodeIdx} (h : i.toNat < nodeCap) (nodes : Vector Node nodeCap) :
    nodeAt nodes i = .ok nodes[i.toNat] := by
  simp only [nodeAt, h, dite_true]

/-- The pairs BUILD_TREE goes through are each byte value with its counter, in ascending order (R135). -/
theorem histEntries_eq (s : State) : histEntries s = allBytes.map fun b => (b, histAt s b) := by
  apply List.ext_getElem
  · simp [histEntries, allBytes]
  · intro i h1 h2
    have hi : i < 256 := by simpa [allBytes] using h2
    simp [histEntries, allBytes, histAt, Nat.mod_eq_of_lt hi]

/-! ### The queue -/

/-- The least of a queue is in it, and nothing in it comes before the least (R136). -/
theorem leastOf_spec (nodes : Vector Node nodeCap) (i : Nat) (q : List Nat) :
    leastOf nodes i q ∈ i :: q ∧ ∀ j ∈ i :: q, comesBefore nodes j (leastOf nodes i q) = false := by
  have irrefl : ∀ a, comesBefore nodes a a = false := by intro a; simp [comesBefore]
  have trans' : ∀ a b c, comesBefore nodes a b = false → comesBefore nodes b c = false →
      comesBefore nodes a c = false := by
    intro a b c
    simp only [comesBefore, Bool.or_eq_false_iff, Bool.and_eq_false_iff, decide_eq_false_iff_not]
    omega
  have flip : ∀ a b, comesBefore nodes a b = true → comesBefore nodes b a = false := by
    intro a b
    simp only [comesBefore, Bool.or_eq_false_iff, Bool.and_eq_false_iff, decide_eq_false_iff_not, Bool.or_eq_true,
      Bool.and_eq_true, decide_eq_true_eq]
    omega
  induction q generalizing i with
  | nil => simp [leastOf, irrefl]
  | cons x q ih =>
    have step : leastOf nodes i (x :: q) = leastOf nodes (if comesBefore nodes x i then x else i) q := rfl
    rw [step]
    obtain ⟨hm, hle⟩ := ih (if comesBefore nodes x i then x else i)
    refine ⟨?_, ?_⟩
    · cases hx : comesBefore nodes x i with
      | true =>
        rcases List.mem_cons.mp (by simpa [hx] using hm) with h | h
        · simp [h]
        · simp [h]
      | false =>
        rcases List.mem_cons.mp (by simpa [hx] using hm) with h | h
        · simp [h]
        · simp [h]
    · intro j hj
      have hhead := hle _ (List.mem_cons_self)
      rcases List.mem_cons.mp hj with rfl | hj
      · cases hx : comesBefore nodes x j with
        | true => exact trans' _ _ _ (flip _ _ hx) (by simpa [hx] using hhead)
        | false => simpa [hx] using hhead
      · rcases List.mem_cons.mp hj with rfl | hj
        · cases hx : comesBefore nodes j i with
          | true => simpa [hx] using hhead
          | false => exact trans' _ _ _ hx (by simpa [hx] using hhead)
        · exact hle j (List.mem_cons_of_mem _ hj)

/-- R136: `RemoveMin` takes out one index of the queue, the first in the queue's order. -/
theorem removeMin_spec {nodes : Vector Node nodeCap} {q q' : List Nat} {m : Nat} (h : removeMin nodes q = some (m, q')) :
    m ∈ q ∧ q' = q.erase m ∧ ∀ j ∈ q, comesBefore nodes j m = false := by
  cases q with
  | nil => simp [removeMin] at h
  | cons i q =>
    simp only [removeMin, Option.some.injEq, Prod.mk.injEq] at h
    obtain ⟨rfl, rfl⟩ := h
    exact ⟨(leastOf_spec nodes i q).1, rfl, (leastOf_spec nodes i q).2⟩

/-- `RemoveMin` answers for every queue but the empty one. -/
theorem removeMin_some {nodes : Vector Node nodeCap} {q : List Nat} (h : q ≠ []) :
    ∃ m q', removeMin nodes q = some (m, q') := by
  cases q with
  | nil => exact absurd rfl h
  | cons i q => exact ⟨_, _, rfl⟩

/-! ### The loops: what the states they reach have in common -/

variable {P : State → Prop}

theorem all_countLoop (hr : ∀ k s, P s → P (readBits k s).2) (hs : ∀ b v s, P s → P (setHist b v s)) :
    ∀ n s, P s → Run.All P (countLoop n s)
  | 0, s, h => h
  | n + 1, s, h => by
    unfold countLoop
    have h8 := hr 8 s h
    split
    · next heq => rw [heq] at h8; exact h8
    · next v s' heq =>
      rw [heq] at h8
      refine all_bind ?_ fun _ t ht => all_countLoop hr hs n t ht
      unfold countByte
      split
      · exact h8
      · exact hs _ _ _ h8

theorem all_encodeSym (ho : ∀ bits s, P s → P (appendOut bits s)) (sym : Sym) (s : State) (h : P s) :
    Run.All P (encodeSym sym s) := by
  unfold encodeSym
  split
  · exact ho _ _ h
  · exact h

theorem all_encodeLoop (hr : ∀ k s, P s → P (readBits k s).2) (ho : ∀ bits s, P s → P (appendOut bits s)) :
    ∀ n s, P s → Run.All P (encodeLoop n s)
  | 0, s, h => h
  | n + 1, s, h => by
    unfold encodeLoop
    have h8 := hr 8 s h
    split
    · next heq => rw [heq] at h8; exact h8
    · next v s' heq =>
      rw [heq] at h8
      exact all_bind (all_encodeSym ho _ _ h8) fun _ t ht => all_encodeLoop hr ho n t ht

theorem all_readLeaf (hr : ∀ k s, P s → P (readBits k s).2) (hn : ∀ i e s, P s → P (storeNode i e s)) (k : Nat)
    (s : State) (h : P s) : Run.All P (readLeaf k s) := by
  unfold readLeaf
  have h9 := hr 9 s h
  split
  · next heq => rw [heq] at h9; exact h9
  · next sym s' heq =>
    rw [heq] at h9
    split
    · exact h9
    · exact hn _ _ _ h9

theorem all_readNode (hr : ∀ k s, P s → P (readBits k s).2) (hn : ∀ i e s, P s → P (storeNode i e s)) :
    ∀ d k s, P s → Run.All P (readNode d k s)
  | 0, _, _, h => h
  | d + 1, k, s, h => by
    unfold readNode
    have h1 := hr 1 s h
    split
    · exact h
    · split
      · next heq => rw [heq] at h1; exact h1
      · next flag s1 heq =>
        rw [heq] at h1
        split
        · exact all_readLeaf hr hn k s1 h1
        · refine all_bind (all_readNode hr hn d (k + 1) s1 h1) fun l s2 h2 => ?_
          exact all_bind (all_readNode hr hn d l.2 s2 h2) fun r s3 h3 => hn _ _ _ h3

theorem all_walkToLeaf (hr : ∀ k s, P s → P (readBits k s).2)
    (he : ∀ s, P s → P { s with inPos := inBits s }) : ∀ n e s, P s → Run.All P (walkToLeaf n e s)
  | 0, _, s, h => he s h
  | n + 1, e, s, h => by
    unfold walkToLeaf
    have h1 := hr 1 s h
    split
    · next heq => rw [heq] at h1; exact h1
    · next b s' heq =>
      rw [heq] at h1
      split
      · trivial
      · split
        · exact h1
        · exact all_walkToLeaf hr he n _ s' h1

theorem all_emitSym (ho : ∀ bits s, P s → P (appendOut bits s))
    (hq : ∀ w b s, P s → P { s with result := w, eos := b }) (sym : Sym) (s : State) (h : P s) :
    Run.All P (emitSym sym s) := by
  unfold emitSym
  split
  · exact hq _ _ _ h
  · exact ho _ _ (hq _ _ _ h)

theorem all_decodeOne (hr : ∀ k s, P s → P (readBits k s).2) (he : ∀ s, P s → P { s with inPos := inBits s })
    (ho : ∀ bits s, P s → P (appendOut bits s)) (hq : ∀ w b s, P s → P { s with result := w, eos := b }) (s : State)
    (h : P s) : Run.All P (decodeOne s) := by
  unfold decodeOne
  split
  · trivial
  · split
    · have h1 := hr 1 s h
      split
      · next heq => rw [heq] at h1; exact h1
      · next heq => rw [heq] at h1; exact all_emitSym ho hq _ _ h1
    · exact all_bind (all_walkToLeaf hr he _ _ _ h) fun sym t ht => all_emitSym ho hq sym t ht

theorem all_decodeLoop (hr : ∀ k s, P s → P (readBits k s).2) (he : ∀ s, P s → P { s with inPos := inBits s })
    (ho : ∀ bits s, P s → P (appendOut bits s)) (hq : ∀ w b s, P s → P { s with result := w, eos := b }) :
    ∀ n s, P s → Run.All P (decodeLoop n s)
  | 0, s, h => he s h
  | n + 1, s, h => by
    unfold decodeLoop
    refine all_bind (all_decodeOne hr he ho hq s h) fun sym t ht => ?_
    split
    · exact ht
    · exact all_decodeLoop hr he ho hq n t ht

/-! ### The loops' bounds are never reached -/

/-- More rounds than the whole units left change nothing: the bound of HIST_COUNT_STREAM (R133, R361) is never reached. -/
theorem countLoop_bound : ∀ n s, inBits s < s.inPos + 8 * (n + 1) → countLoop (n + 2) s = countLoop (n + 1) s
  | 0, s, h => by
    unfold countLoop
    rw [readBits_short (by omega)]
  | n + 1, s, h => by
    conv_lhs => unfold countLoop
    conv_rhs => unfold countLoop
    by_cases hc : s.inPos + 8 ≤ inBits s
    · rw [readBits_full hc]
      simp only [countByte]
      split
      · rfl
      · simp only [bind_ok]
        refine countLoop_bound n _ ?_
        simp only [setHist_inPos, inBits, setHist_input]
        simp only [inBits] at h
        omega
    · rw [readBits_short (by omega)]

/-- The same of ENCODE_STREAM (R187, R361). -/
theorem encodeLoop_bound : ∀ n s, inBits s < s.inPos + 8 * (n + 1) → encodeLoop (n + 2) s = encodeLoop (n + 1) s
  | 0, s, h => by
    unfold encodeLoop
    rw [readBits_short (by omega)]
  | n + 1, s, h => by
    conv_lhs => unfold encodeLoop
    conv_rhs => unfold encodeLoop
    by_cases hc : s.inPos + 8 ≤ inBits s
    · rw [readBits_full hc]
      simp only [encodeSym]
      split
      · simp only [bind_ok]
        refine encodeLoop_bound n _ ?_
        simp only [writeBits_inPos, inBits, writeBits_input]
        simp only [inBits] at h
        omega
      · rfl
    · rw [readBits_short (by omega)]

/-- More rounds than the bits left change nothing: the bound of the tree walk (R230, R245) is never reached. -/
theorem walkToLeaf_bound : ∀ n e s, inBits s < s.inPos + (n + 1) → walkToLeaf (n + 2) e s = walkToLeaf (n + 1) e s
  | 0, e, s, h => by
    unfold walkToLeaf
    rw [readBits_short (by omega)]
  | n + 1, e, s, h => by
    conv_lhs => unfold walkToLeaf
    conv_rhs => unfold walkToLeaf
    by_cases hc : s.inPos + 1 ≤ inBits s
    · rw [readBits_full hc]
      simp only
      split
      · rfl
      · split
        · rfl
        · refine walkToLeaf_bound n _ _ ?_
          simp only [inBits] at h ⊢
          omega
    · rw [readBits_short (by omega)]

end Sys2Proof.Machine
end

