-- ==== Sys2Proof/Laws/PerInstr.lean ====
section
/-! SUPPORT. Statements for every instruction, made per constructor: a command's word carries its opcode byte in bits [31:24]
(30_encoding.md rules R100, R108). -/

namespace Sys2Proof.Laws.OpcodeByte

/-- The opcode byte of a command's word is the command's (R100, R108). -/
def Statement (i : Instr) : Prop := opcodeByte (encode i) = opcodeOf i

/-- The high byte of a word put together from an opcode byte and an operand field. -/
theorem opcodeByte_append (op : Byte) (x : BitVec 24) : opcodeByte (op ++ x) = op := by
  exact BitVec.extractLsb'_append_eq_left

theorem nop : Statement .nop := opcodeByte_append _ _
theorem errClear : Statement .errClear := opcodeByte_append _ _
theorem softReset : Statement .softReset := opcodeByte_append _ _
theorem srcRewind : Statement .srcRewind := opcodeByte_append _ _
theorem outFlush : Statement .outFlush := opcodeByte_append _ _
theorem histClear : Statement .histClear := opcodeByte_append _ _
theorem histCount (b : Byte) : Statement (.histCount b) := opcodeByte_append _ _
theorem histCountStream : Statement .histCountStream := opcodeByte_append _ _
theorem histRead (b : Byte) : Statement (.histRead b) := opcodeByte_append _ _
theorem buildTree : Statement .buildTree := opcodeByte_append _ _
theorem nodeRead (i : NodeIdx) : Statement (.nodeRead i) := opcodeByte_append _ _
theorem genCodes : Statement .genCodes := opcodeByte_append _ _
theorem codeLen (s : Sym) : Statement (.codeLen s) := opcodeByte_append _ _
theorem codeBits (s : Sym) (w : BitVec 3) : Statement (.codeBits s w) := opcodeByte_append _ _
theorem emitHeader (m : HeaderMode) : Statement (.emitHeader m) := opcodeByte_append _ _
theorem encodeByte (b : Byte) : Statement (.encodeByte b) := opcodeByte_append _ _
theorem encodeEos : Statement .encodeEos := opcodeByte_append _ _
theorem encodeStream : Statement .encodeStream := opcodeByte_append _ _
theorem compress (m : HeaderMode) : Statement (.compress m) := opcodeByte_append _ _
theorem readHeader : Statement .readHeader := opcodeByte_append _ _
theorem decodeSym : Statement .decodeSym := opcodeByte_append _ _
theorem decodeStream : Statement .decodeStream := opcodeByte_append _ _
theorem decompress : Statement .decompress := opcodeByte_append _ _

end Sys2Proof.Laws.OpcodeByte
end

