-- ==== Sys2Proof/Laws/Run.lean ====
section
/-! SUPPORT. The end of a run (44_control.md rule R298), said once in the terms of the state. -/

namespace Sys2Proof

open Machine

/-- The lowest bits of a word put together from single bits. -/
theorem getLsbD_append_ofBool {w : Nat} (x : BitVec w) (b : Bool) (k : Nat) :
    (x ++ BitVec.ofBool b).getLsbD 0 = b ∧ (x ++ BitVec.ofBool b).getLsbD (k + 1) = x.getLsbD k := by
  constructor
  · rw [BitVec.getLsbD_append]; simp
  · rw [BitVec.getLsbD_append]; simp

/-- R34: `STATUS[0]` is `BUSY`. -/
theorem readStatus_busy (s : State) : (readRegister statusReg s).getLsbD 0 = s.busy :=
  (getLsbD_append_ofBool _ _ 0).1

/-- R34, R35: `STATUS[1]` is `ERR`. -/
theorem readStatus_err (s : State) : (readRegister statusReg s).getLsbD 1 = errFlag s :=
  (getLsbD_append_ofBool _ _ 0).2.trans (getLsbD_append_ofBool _ _ 0).1

/-- R298, in the terms of the state. -/
theorem runEnd_eq (s : State) :
    runEnd s = if !hostDone s || s.busy then none else if errFlag s then some .failed else some .succeeded := by
  rw [runEnd, readStatus_busy, readStatus_err]

/-- A run has failed exactly when the host is done, the block is idle and an error is latched. -/
theorem runFailed_iff (s : State) : runFailed s = true ↔ hostDone s = true ∧ s.busy = false ∧ s.errCode ≠ 0#4 := by
  rw [runFailed, runEnd_eq]
  cases hostDone s <;> cases s.busy <;> by_cases h : s.errCode = 0#4 <;> simp [errFlag, h]

/-- A run has succeeded exactly when the host is done, the block is idle and no error is latched. -/
theorem runSucceeded_iff (s : State) : runSucceeded s = true ↔ hostDone s = true ∧ s.busy = false ∧ s.errCode = 0#4 := by
  rw [runSucceeded, runEnd_eq]
  cases hostDone s <;> cases s.busy <;> by_cases h : s.errCode = 0#4 <;> simp [errFlag, h]

end Sys2Proof
end

