-- ==== Sys2Proof/Laws/Streams.lean ====
section
/-! SUPPORT. Streams put together from bytes (20_memory.md rules R72, R77, R78). -/

namespace Sys2Proof.Machine

/-- R72: the bits after a first stretch of whole bytes are those of the rest. -/
theorem streamBits_skip (a b : List Byte) (p n : Nat) :
    streamBits (a ++ b) (8 * a.length + p) n = streamBits b p n := by
  apply List.map_congr_left
  intro k _
  simp only [streamBit]
  have h1 : (8 * a.length + p + k) / 8 = a.length + (p + k) / 8 := by omega
  have h2 : (8 * a.length + p + k) % 8 = (p + k) % 8 := by omega
  rw [h1, h2, List.getD_append_right _ _ _ _ (by omega), Nat.add_sub_cancel_left]

/-- R72: the bits of a first stretch of whole bytes do not depend on the rest. -/
theorem streamBits_prefix (a b : List Byte) (p n : Nat) (h : p + n ≤ 8 * a.length) :
    streamBits (a ++ b) p n = streamBits a p n := by
  apply List.map_congr_left
  intro k hk
  simp only [streamBit]
  have hlt : (p + k) / 8 < a.length := by have := List.mem_range.mp hk; omega
  rw [List.getD_append _ _ _ _ hlt]

/-- R78: the bytes of a 32-bit value in stream order, most significant first. -/
def wordBytes (m : Word) : List Byte :=
  [m.extractLsb' 24 8, m.extractLsb' 16 8, m.extractLsb' 8 8, m.extractLsb' 0 8]

/-- R78: those bytes hold the value's bits, most significant first. -/
theorem streamBits_wordBytes (m : Word) : streamBits (wordBytes m) 0 32 = msbBits 32 m := by
  apply List.map_congr_left
  intro k hk
  have hlt : k < 32 := List.mem_range.mp hk
  interval_cases k <;> simp [streamBit, wordBytes]

/-- R78: a stream that begins with a 32-bit value at its start. -/
theorem streamBits_word_append (m : Word) (rest : List Byte) (n : Nat) :
    streamBits (wordBytes m ++ rest) 0 (32 + n) = msbBits 32 m ++ streamBits rest 0 n := by
  rw [streamBits_append, streamBits_prefix _ _ _ _ (by simp [wordBytes]), streamBits_wordBytes]
  exact congrArg _ (streamBits_skip (wordBytes m) rest 0 n)

/-- R72: a stream of zero bytes has 0 bits only. -/
theorem streamBits_zeros (k p n : Nat) : streamBits (List.replicate k 0#8) p n = List.replicate n false := by
  apply List.ext_getElem
  · simp
  · intro i h1 h2
    have hz : ∀ j, (List.replicate k 0#8).getD j 0#8 = 0#8 := fun j => by
      rw [List.getD_eq_getElem?_getD, List.getElem?_replicate]
      split <;> rfl
    simp only [streamBits, List.getElem_map, streamBit, hz, List.getElem_replicate]
    exact BitVec.getLsbD_zero

end Sys2Proof.Machine
end

