-- ==== Sys2Proof/Laws/Tree.lean ====
section
/-! SUPPORT. The trees of Safety.lean: their sizes, their serialization, and how the walks over the node memory follow them. -/

namespace Sys2Proof

open Machine

@[simp] theorem Tree.size_leaf (i : Nat) (sym : Sym) : (Tree.leaf i sym).size = 1 := rfl

@[simp] theorem Tree.size_node (i : Nat) (l r : Tree) : (Tree.node i l r).size = l.size + r.size + 1 := by
  simp [Tree.size, Tree.indices]

/-- A full tree of L leaves has 2L - 1 nodes (R140, R224). -/
theorem Tree.size_leaves (t : Tree) : t.size + 1 = 2 * t.leaves.length := by
  induction t with
  | leaf i sym => rfl
  | node i l r hl hr => simp [Tree.leaves]; omega

/-- The serialization, node by node (R115). -/
theorem Tree.bits_tokens (t : Tree) : t.bits = t.tokens.flatMap tokenBits := by
  induction t with
  | leaf i sym => simp [Tree.bits, Tree.tokens, tokenBits]
  | node i l r hl hr => simp [Tree.bits, Tree.tokens, tokenBits, hl, hr]

@[simp] theorem Tree.tokens_length (t : Tree) : t.tokens.length = t.size := by
  induction t with
  | leaf i sym => rfl
  | node i l r hl hr => simp [Tree.tokens, hl, hr]

/-- R115: a tree of L leaves serializes to 11L - 1 bits. -/
theorem Tree.bits_length (t : Tree) : t.bits.length + 1 = 11 * t.leaves.length := by
  induction t with
  | leaf i sym => simp [Tree.bits, Tree.leaves]
  | node i l r hl hr => simp [Tree.bits, Tree.leaves]; omega

@[simp] theorem Tree.renumber_size (k : Nat) (t : Tree) : (t.renumber k).size = t.size := by
  induction t generalizing k with
  | leaf i sym => rfl
  | node i l r hl hr => simp [Tree.renumber, hl, hr]

/-- Renumbering numbers the nodes in preorder (R223, R224). -/
theorem Tree.renumber_indices (k : Nat) (t : Tree) : (t.renumber k).indices = List.range' k t.size := by
  induction t generalizing k with
  | leaf i sym => rfl
  | node i l r hl hr =>
    simp only [Tree.renumber, Tree.indices, hl, hr, Tree.size_node]
    rw [List.range'_append_1 (s := k + 1), ← List.range'_succ]

/-- A tree's node at its own index is the entry it was read from. -/
theorem treeAt_step {nodes : Vector Node nodeCap} {d i : Nat} {t : Tree} (h : treeAt nodes (d + 1) i = some t) :
    ∃ e, nodes[i]? = some e ∧
      ((e.leaf = true ∧ t = .leaf i e.sym) ∨
        (e.leaf = false ∧ ∃ l r, treeAt nodes d e.left.toNat = some l ∧ treeAt nodes d e.right.toNat = some r ∧
          t = .node i l r)) := by
  unfold treeAt at h
  split at h
  · simp at h
  · next e he =>
    refine ⟨e, he, ?_⟩
    split at h
    · next hl => exact .inl ⟨hl, by simpa using h.symm⟩
    · next hl =>
      split at h
      · next l r h1 h2 => exact .inr ⟨by simpa using hl, l, r, h1, h2, by simpa using h.symm⟩
      · simp at h

/-- A tree fits a state through its node memory and its tree registers alone (R42). -/
theorem TreeFits.congr {s s' : State} {t : Tree} (h : TreeFits s t) (hn : s'.nodes = s.nodes)
    (hc : s'.nodeCount = s.nodeCount) (hr : s'.root = s.root) (hs : s'.treeSrc = s.treeSrc) : TreeFits s' t where
  rooted := by simpa [currentTree, hn, hr] using h.rooted
  exact := by simpa [hc] using h.exact
  entries := by simpa [hn, hc] using h.entries
  built := by simpa [hs, hr, hc] using h.built
  loaded := by simpa [hs, hr, hc] using h.loaded

end Sys2Proof
end

