-- ==== Sys2Proof/Tests/Slice0.lean ====
section
/-! SUPPORT. Tests: the assembler's checks, one step of each command on the vectors of 95_test_vectors.md, and for every obligation
with hypotheses a witness that meets them, clause by clause. -/

namespace Sys2Proof.Tests

open Machine

-- One theorem at a time: the kernel evaluations below wait for each other, and each waiting thread holds a large stack.
set_option Elab.async false

/-! ### Small states and readers -/

/-- The next state, if there is one. -/
def ended : Host.Outcome State Fault Refusal → Option State
  | .next s => some s
  | .fault _ => none
  | .refused _ => none

/-- The fault, if there is one. -/
def stopped : Host.Outcome State Fault Refusal → Option Fault
  | .next _ => none
  | .fault f => some f
  | .refused _ => none

theorem next_of_ended {o : Host.Outcome State Fault Refusal} {t : State} (h : ended o = some t) : o = .next t := by
  cases o <;> simp_all [ended]

theorem fault_of_stopped {o : Host.Outcome State Fault Refusal} {f : Fault} (h : stopped o = some f) : o = .fault f := by
  cases o <;> simp_all [stopped]

theorem ok_of_toOption {α : Type} {x : Except Fault α} {a : α} (h : x.toOption = some a) : x = .ok a := by
  cases x <;> simp_all [Except.toOption]

/-- `STATUS` after a command. -/
def statusAfter (i : Instr) (s : State) : Option Word := (ended (exec i s)).map statusWord

/-- `RESULT` after a command. -/
def resultAfter (i : Instr) (s : State) : Option Word := (ended (exec i s)).map State.result

/-- The bytes of OUT after a command. -/
def outAfter (i : Instr) (s : State) : Option (List Byte) := (ended (exec i s)).map fun t => outBytes t.out

/-- The input of V-L1. -/
def aaab : List Byte := [0x41#8, 0x41#8, 0x41#8, 0x42#8]

/-- The power-on state with these bytes in IN. -/
def holding (bytes : List Byte) : State := { State.reset with input := bytes }

/-- The histogram of V-L1. -/
def counted : State := setHist 0x42#8 1#32 (setHist 0x41#8 3#32 State.reset)

/-- The tree of V-L1. -/
def built : State := buildTree counted

/-- The same tree as a term. -/
def builtTree : Tree := .node 4 (.node 3 (.leaf 1 0x42#9) (.leaf 2 256#9)) (.leaf 0 0x41#9)

/-- A state with this code table. -/
def withCodes (codes : Vector CodeEntry symbolCount) (s : State) : State := { s with codes := codes, codesValid := true }

/-- A state with these bytes in IN. -/
def supplied (bytes : List Byte) (s : State) : State := { s with input := bytes }

/-- The code table of V-L1's tree. -/
def builtCodes : Vector CodeEntry symbolCount := (codeTable built.nodes built.root).toOption.getD noCodes

/-- The codes of V-L1: A "1", B "00", EOS "01". -/
def coded : State := withCodes builtCodes built

/-- A tree whose only leaf is EOS (V-L2). -/
def eosOnly : State := buildTree State.reset

/-- The same codes without that of EOS. -/
def noEos : State := withCodes (builtCodes.set 256 CodeEntry.none) built

/-- IN begins with the magic number, and goes on with these bytes. -/
def streamed (rest : List Byte) : State := holding (wordBytes Config.magicTree ++ rest)

/-- The bytes of V-L1's stream after the magic number. -/
def aaabTail : List Byte := [0x24#8, 0x2C#8, 0x02#8, 0x41#8, 0xE2#8]

/-- A tree with `n` internal nodes, each the left child of the one before. -/
def leftComb : Nat → Tree
  | 0 => .leaf 0 0#9
  | n + 1 => .node 0 (leftComb n) (.leaf 0 0#9)

/-- A state with a command word latched. -/
def latched (w : Word) (s : State) : State := { s with pending := w, busy := true }

/-- A state with one host action as its only turn. -/
def acting (a : HostAction) (s : State) : State := { s with turns := [.host a] }

/-- A state with the error of V-D7's first row latched. -/
def failed (s : State) : State := { s with errCode := 1#4, errOpc := 0x33#8 }

/-! ### The assembler's checks (R118): an ill-formed line for each -/

theorem test_illformed_byte : (⟨0x11#8, [256]⟩ : AsmLine).wellFormed = false := by decide
theorem test_illformed_symbol : (⟨0x21#8, [512]⟩ : AsmLine).wellFormed = false := by decide
theorem test_illformed_word : (⟨0x22#8, [0, 8]⟩ : AsmLine).wellFormed = false := by decide
theorem test_illformed_index : (⟨0x15#8, [1024]⟩ : AsmLine).wellFormed = false := by decide
theorem test_illformed_mode : (⟨0x23#8, [2]⟩ : AsmLine).wellFormed = false := by decide
theorem test_illformed_operand_count : (⟨0x00#8, [0]⟩ : AsmLine).wellFormed = false := by decide
theorem test_illformed_opcode : (⟨0x05#8, []⟩ : AsmLine).wellFormed = false := by decide
theorem test_wellformed_limits :
    (⟨0x11#8, [255]⟩ : AsmLine).wellFormed = true ∧ (⟨0x22#8, [511, 7]⟩ : AsmLine).wellFormed = true ∧
    (⟨0x15#8, [1023]⟩ : AsmLine).wellFormed = true ∧ (⟨0x27#8, []⟩ : AsmLine).wellFormed = true := by decide

/-- V-X1 and R118: lines of text. -/
theorem test_assemble_text :
    assemble "CODE_BITS 256, 1" = some 0x22000300#32 ∧ assemble "COMPRESS counts ; c" = some 0x27000001#32 ∧
    assemble "HIST_COUNT 0x41" = some 0x11000041#32 ∧ assemble "HIST_COUNT 256" = none := by decide +kernel

/-! ### Decoding: a word of each family, written out from the formats, and the illegal words of V-X2 -/

theorem test_decode_families :
    decode (0x04#8 ++ 0#24) = .command .outFlush ∧ decode (0x13#8 ++ 0#16 ++ 0xA5#8) = .command (.histRead 0xA5#8) ∧
    decode (0x22#8 ++ 0#12 ++ 5#3 ++ 0x101#9) = .command (.codeBits 0x101#9 5#3) ∧
    decode (0x31#8 ++ 0#24) = .command .decodeSym := by decide

theorem test_decode_illegal :
    decode 0x34000000#32 = .illegal (.reservedOpcode 0x34#8) ∧ decode 0x15000400#32 = .illegal (.reservedBits 0x15#8) ∧
    decode 0x22001000#32 = .illegal (.reservedBits 0x22#8) ∧ decode 0x10800000#32 = .illegal (.reservedBits 0x10#8) := by decide

/-- What the host asks of the decoder: a row's word, its bits numbered from bit 0 of the one word. -/
theorem test_decodeTableWord : decodeTableWord 32 0x15000004 = some (.nodeRead 4#10) ∧ decodeTableWord 32 0x05000000 = none := by
  decide

/-- The placed word is the next thing the machine executes. -/
theorem test_withFetchWord :
    (ended (step (State.reset.withFetchWord 32 0x11000041))).map (fun t => (histAt t 0x41#8, t.busy)) = some (1#32, false) := by
  decide +kernel

/-! ### Control commands (V-C1 to V-C4) -/

theorem test_nop : exec .nop coded = .next coded := rfl

theorem test_errClear : statusWord (failed State.reset) = 0x00330102#32 ∧
    statusAfter .errClear { failed State.reset with ovr := true } = some 0#32 := by decide +kernel

theorem test_softReset :
    (ended (exec .softReset { coded with input := aaab, inPos := 9, out := [true] })).map (fun t =>
      (statusWord t, treeInfoWord t, histAt t 0x41#8, t.inPos, t.input.length, t.out.length)) =
    some (0#32, 0#32, 0#32, 0, 4, 1) := by decide +kernel

theorem test_srcRewind : (ended (exec .srcRewind { holding aaab with inPos := 32 })).map State.inPos = some 0 := by
  decide +kernel

theorem test_outFlush : (ended (exec .outFlush { State.reset with out := List.replicate 71 true })).map (fun t =>
    (t.out.length, t.out.getLast?)) = some (72, some false) := by decide +kernel

theorem test_outFlush_aligned : outAfter .outFlush { State.reset with out := List.replicate 8 true } = some [0xFF#8] := by
  decide +kernel

/-! ### Tree builder commands (V-T1 to V-T5) -/

theorem test_histClear : (ended (exec .histClear counted)).map (fun t => histAt t 0x41#8) = some 0#32 := by decide +kernel

theorem test_histCount : (ended (exec (.histCount 0x41#8) counted)).map (fun t => (histAt t 0x41#8, histAt t 0x42#8)) =
    some (4#32, 1#32) := by decide +kernel

theorem test_histCount_overflow : statusAfter (.histCount 0x41#8) (setHist 0x41#8 0xFFFFFFFF#32 State.reset) =
    some 0x00110802#32 := by decide +kernel

/-- V-T3: units are taken from the cursor, whatever its place in a byte. -/
theorem test_histCountStream : (ended (exec .histCountStream { holding [0xF0#8, 0x0F#8] with inPos := 4 })).map (fun t =>
    (histAt t 0x00#8, t.inPos)) = some (1#32, 16) := by decide +kernel

theorem test_histCountStream_short : (ended (exec .histCountStream { holding [0xAB#8] with inPos := 3 })).map (fun t =>
    (t.hist.toList.all (· = 0#32), t.inPos)) = some (true, 8) := by decide +kernel

theorem test_histRead : resultAfter (.histRead 0x41#8) counted = some 3#32 := by decide +kernel

/-- V-L1, V-T5: ties go to the lower index; the first removed is the left child. -/
theorem test_buildTree : (ended (exec .buildTree counted)).map (fun t =>
    (treeInfoWord t, nodeWord 4#10 t, nodeWord 3#10 t, weightAt t.nodes 4)) =
    some (0x00040005#32, 0x1FF00C00#32, 0x1FF00402#32, 5) := by decide +kernel

theorem test_buildTree_empty : (ended (exec .buildTree State.reset)).map (fun t => (treeInfoWord t, nodeWord 0#10 t)) =
    some (0x00000001#32, 0x900FFFFF#32) := by decide +kernel

theorem test_nodeRead : resultAfter (.nodeRead 0#10) built = some 0x841FFFFF#32 := by decide +kernel

theorem test_nodeRead_absent : resultAfter (.nodeRead 5#10) built = some 0#32 := by decide +kernel

/-! ### Encoder commands (V-E1 to V-E9) -/

theorem test_genCodes : (ended (exec .genCodes built)).map (fun t =>
    (statusWord t, symbolBits t 0x41#9, symbolBits t 0x42#9, symbolBits t 256#9)) =
    some (0x00000018#32, [true], [false, false], [false, true]) := by decide +kernel

theorem test_genCodes_noTree : statusAfter .genCodes State.reset = some 0x00200502#32 := by decide +kernel

theorem test_codeLen : resultAfter (.codeLen 0x42#9) coded = some 0x80000002#32 ∧
    resultAfter (.codeLen 300#9) coded = some 0#32 := by decide +kernel

theorem test_codeBits : resultAfter (.codeBits 256#9 0#3) coded = some 1#32 ∧
    resultAfter (.codeBits 256#9 7#3) coded = some 0#32 := by decide +kernel

theorem test_emitHeader_bits : (serializeTree built.nodes nodeCap built.root).toOption.map outBytes =
    some [0x24#8, 0x2C#8, 0x02#8, 0x41#8] := by decide +kernel

theorem test_emitHeader_counts : statusAfter (.emitHeader .counts) State.reset = some 0x00230402#32 := by decide +kernel

theorem test_encodeByte : (ended (exec (.encodeByte 0x42#8) coded)).map State.out = some [false, false] := by decide +kernel

theorem test_encodeByte_unmapped : statusAfter (.encodeByte 0x43#8) coded = some 0x0024071A#32 := by decide +kernel

theorem test_encodeEos : (ended (exec .encodeEos coded)).map State.out = some [false, true] := by decide +kernel

theorem test_encodeStream : (ended (exec .encodeStream (supplied aaab coded))).map (fun t => (t.out, t.inPos)) =
    some ([true, true, true, false, false, false, true], 32) := by decide +kernel

theorem test_encodeStream_unmapped : (ended (exec .encodeStream (supplied [0x41#8, 0x43#8] coded))).map (fun t =>
    (statusWord t, t.out, t.inPos)) = some (0x0026071A#32, [true], 16) := by decide +kernel

/-- V-E1, for the magic number 0xDEADBEEF. -/
theorem test_compress : (ended (finish 0x27#8 (compressTree 0xDEADBEEF#32 (holding aaab)))).map (fun t =>
    (statusWord t, treeInfoWord t, t.inPos, outBytes t.out)) =
    some (0x00000018#32, 0x00040005#32, 32,
      [0xDE#8, 0xAD#8, 0xBE#8, 0xEF#8, 0x24#8, 0x2C#8, 0x02#8, 0x41#8, 0xE2#8]) := by decide +kernel

theorem test_compress_counts : statusAfter (.compress .counts) (holding aaab) = some 0x00270402#32 := by decide +kernel

/-! ### Decoder commands (V-D1 to V-D7), for the magic numbers 0xDEADBEEF and 0xDEADBEF0 -/

/-- READ_HEADER on these bytes after the magic number 0xDEADBEEF. -/
def loadedFrom (rest : List Byte) : Option State :=
  ended (finish 0x30#8 (readHeaderWith 0xDEADBEEF#32 0xDEADBEF0#32 (holding ([0xDE#8, 0xAD#8, 0xBE#8, 0xEF#8] ++ rest))))

theorem test_readHeader : (loadedFrom aaabTail).map (fun t =>
    (statusWord t, treeInfoWord t, t.inPos, nodeWord 0#10 t, nodeWord 1#10 t, nodeWord 4#10 t)) =
    some (0x00000048#32, 0x00000005#32, 64, 0x1FF00404#32, 0x1FF00803#32, 0x841FFFFF#32) := by decide +kernel

theorem test_readHeader_badSymbol : (loadedFrom [0xC0#8, 0x40#8]).map (fun t => (statusWord t, treeInfoWord t, t.inPos)) =
    some (0x00300A02#32, 0#32, 42) := by decide +kernel

theorem test_decodeSym : ((loadedFrom aaabTail).bind fun s => ended (exec .decodeSym s)).map (fun t =>
    (t.result, t.inPos, statusWord t, outBytes t.out)) = some (0x41#32, 65, 0x00000048#32, [0x41#8]) := by decide +kernel

theorem test_decodeSym_pastEos : ((loadedFrom aaabTail).bind fun s =>
    ended (exec .decodeSym { s with inPos := 71, result := 0x100#32, eos := true })).map (fun t =>
    (t.result, t.inPos, statusWord t)) = some (0x100#32, 72, 0x0031026A#32) := by decide +kernel

theorem test_decodeStream_truncated : ((loadedFrom [0x48#8, 0x32#8, 0x08#8]).bind fun s =>
    ended (exec .decodeStream s)).map (fun t => (statusWord t, t.inPos, outBytes t.out)) =
    some (0x0032024A#32, 56, [0x41#8, 0x41#8, 0x41#8]) := by decide +kernel

theorem test_decompress :
    (ended (finish 0x33#8 (decompressWith 0xDEADBEEF#32 0xDEADBEF0#32
      (holding ([0xDE#8, 0xAD#8, 0xBE#8, 0xEF#8] ++ aaabTail))))).map (fun t =>
      (statusWord t, t.inPos, t.result, outBytes t.out)) = some (0x00000068#32, 71, 0x100#32, aaab) := by decide +kernel

theorem test_decompress_rootLeaf :
    (ended (finish 0x33#8 (decompressWith 0xDEADBEEF#32 0xDEADBEF0#32
      (holding [0xDE#8, 0xAD#8, 0xBE#8, 0xEF#8, 0x90#8, 0x40#8])))).map (fun t => (statusWord t, t.inPos, outBytes t.out)) =
    some (0x0033024A#32, 48, List.replicate 6 0x41#8) := by decide +kernel

/-! ### The host interface (V-C5 to V-C7) -/

theorem test_overrun :
    (ended (step (acting (.write 0#4 0x11000002#32) (latched 0x11000001#32 State.reset)))).map (fun t =>
      (t.pending, t.busy, t.ovr, t.errCode)) = some (0x11000001#32, true, true, 0#4) := by decide +kernel

theorem test_hwReset : (ended (step (acting .hwReset (latched 0x12000000#32 (holding [0x41#8]))))).map (fun t =>
    (statusWord t, t.hist.toList.all (· = 0#32), t.inPos, t.input)) = some (0#32, true, 0, [0x41#8]) := by decide +kernel

theorem test_illegal_latches : (ended (engineStep (latched 0x05000000#32 State.reset))).map statusWord = some 0x00050302#32 := by
  decide +kernel

/-! ### Witnesses: for every obligation with hypotheses, a state and operands that meet them -/

/-! Encoding -/

theorem witness_EncodeOfDecode : decode 0x11000041#32 = .command (.histCount 0x41#8) := by decide

theorem witness_OpcodeRowsAreDisjoint : ∃ r ∈ opTable, r.fits 0x15000004#32 = true :=
  ⟨⟨0x15000000#32, 0xFFFFFC00#32, fun w => .nodeRead (field w 0 10)⟩, by simp [opTable, treeBuilderRows], by decide⟩

theorem witness_IllegalWordsAndTheirEffect : ∃ why, decode 0x05000000#32 = .illegal why := ⟨_, rfl⟩

/-- An illegal word latched, without and with an error latched before. -/
theorem witness_IllegalWordsAndTheirEffect_step :
    (latched 0x00000001#32 State.reset).busy = true ∧ (∃ why, decode (latched 0x00000001#32 State.reset).pending = .illegal why) ∧
    (latched 0x00000001#32 State.reset).errCode = 0#4 ∧ (latched 0x00000001#32 (failed State.reset)).errCode ≠ 0#4 :=
  ⟨rfl, ⟨_, rfl⟩, rfl, by decide⟩

/-- The least operand out of each range, and the reserved opcode bytes at the ends of their ranges. -/
theorem witness_AssemblerGivesTheWord_ranges :
    assembleLine ⟨0x11#8, [256]⟩ = none ∧ assembleLine ⟨0x11#8, [255]⟩ = some 0x110000FF#32 ∧
    assembleLine ⟨0x21#8, [512]⟩ = none ∧ assembleLine ⟨0x21#8, [511]⟩ = some 0x210001FF#32 ∧
    assembleLine ⟨0x22#8, [0, 8]⟩ = none ∧ assembleLine ⟨0x22#8, [512, 0]⟩ = none ∧
    assembleLine ⟨0x22#8, [511, 7]⟩ = some 0x22000FFF#32 ∧ assembleLine ⟨0x15#8, [1024]⟩ = none ∧
    assembleLine ⟨0x15#8, [1023]⟩ = some 0x150003FF#32 ∧ assembleLine ⟨0x23#8, [2]⟩ = none ∧
    assembleLine ⟨0x05#8, []⟩ = none ∧ assembleLine ⟨0x16#8, [0]⟩ = none ∧ assembleLine ⟨0x2F#8, []⟩ = none ∧
    assembleLine ⟨0x34#8, []⟩ = none := by decide

/-- Lines with a wrong number of operands. -/
theorem witness_AssemblerGivesTheWord_counts :
    assembleLine ⟨0x11#8, []⟩ = none ∧ assembleLine ⟨0x22#8, [1]⟩ = none ∧ assembleLine ⟨0x27#8, [0, 0]⟩ = none ∧
    assembleLine ⟨0x33#8, [0]⟩ = none := by decide

theorem witness_AssemblerGivesTheWord : ({ op := 0x11#8, args := [256] } : AsmLine).wellFormed = false := by decide

/-! The engine step -/

theorem witness_StepTakesTheNextTurn_none : State.reset.turns = [] ∧ State.reset.busy = false := ⟨rfl, rfl⟩

theorem witness_StepTakesTheNextTurn_engine : ({ State.reset with turns := [.engine] } : State).turns = .engine :: [] := rfl

theorem witness_StepTakesTheNextTurn_host : (acting (.read 1#4) State.reset).turns = .host (.read 1#4) :: [] := rfl

/-- With the engine's turn listed and no error. -/
theorem witness_StepExecutesTheDecodedCommand :
    let s : State := { latched 0x03000000#32 State.reset with turns := [.engine] }
    s.busy = true ∧ decode s.pending = .command .srcRewind ∧ s.errCode = 0#4 ∧ s.turns = .engine :: [] ∧
    exec .srcRewind { s with turns := [] } = .next { s with turns := [], inPos := 0 } := ⟨rfl, by decide, rfl, rfl, rfl⟩

/-- With no turn listed, an error latched, and ERR_CLEAR. -/
theorem witness_StepExecutesTheDecodedCommand_latched :
    let s : State := latched 0x01000000#32 (failed State.reset)
    s.busy = true ∧ decode s.pending = .command .errClear ∧ s.errCode ≠ 0#4 ∧ s.turns = [] ∧
    exec .errClear { s with turns := [] } = .next { s with errCode := 0#4, errOpc := 0#8, ovr := false, turns := [] } :=
  ⟨rfl, by decide, by decide, rfl, rfl⟩

/-- The fault clause: a state that breaks R42. -/
theorem witness_StepExecutesTheDecodedCommand_fault :
    let s : State := latched 0x20000000#32 { State.reset with treeValid := true, root := 600#10 }
    s.busy = true ∧ decode s.pending = .command .genCodes ∧ s.errCode = 0#4 ∧ s.turns = [] ∧
    exec .genCodes { s with turns := [] } = .fault .nodeIndexOutOfRange :=
  ⟨rfl, by decide, rfl, rfl, fault_of_stopped (by decide +kernel)⟩

theorem witness_LatchedErrorBlocksCommands_blocked :
    let s : State := latched 0x14000000#32 (failed State.reset)
    s.busy = true ∧ s.errCode ≠ 0#4 ∧ decode s.pending ≠ .command .errClear ∧ decode s.pending ≠ .command .softReset := by
  decide

theorem witness_LatchedErrorBlocksCommands_errClear :
    let s : State := latched 0x01000000#32 (failed State.reset)
    s.busy = true ∧ s.errCode ≠ 0#4 ∧ decode s.pending = .command .errClear := by decide

theorem witness_LatchedErrorBlocksCommands_softReset :
    let s : State := latched 0x02000000#32 (failed State.reset)
    s.busy = true ∧ s.errCode ≠ 0#4 ∧ decode s.pending = .command .softReset := by decide

theorem witness_LatchedErrorBlocksCommands_step :
    ∃ t, step (latched 0x14000000#32 (failed State.reset)) = .next t ∧
      (latched 0x14000000#32 (failed State.reset)).errCode ≠ 0#4 :=
  ⟨_, rfl, by decide⟩

/-! Reset and invariants -/

/-- The node memory of V-L1 holds its tree. -/
theorem built_fits : TreeFits built builtTree where
  rooted := by decide +kernel
  exact := by decide +kernel
  entries := by decide +kernel
  built := fun _ => by decide +kernel
  loaded := fun h => absurd h (by decide +kernel)

/-- Only IN changes. -/
theorem fits_supplied {s : State} {t : Tree} (bytes : List Byte) (h : TreeFits s t) : TreeFits (supplied bytes s) t :=
  h.congr rfl rfl rfl rfl

/-- The invariants say nothing of a latched command. -/
theorem inv_latched {s : State} (w : Word) (h : Inv s) : Inv (latched w s) :=
  ⟨⟨h.registers.treeCount, h.registers.countRange, h.registers.codesNeedTree, h.registers.noErrorNoOpcode,
    h.registers.errorRange, h.registers.cursor⟩, fun hv => (h.tree hv).imp fun _ ht => ht.congr rfl rfl rfl rfl, h.codes⟩

/-- Nor of the turns. -/
theorem inv_acting {s : State} (a : HostAction) (w : Word) (h : Inv s) : Inv (acting a (latched w s)) :=
  ⟨⟨h.registers.treeCount, h.registers.countRange, h.registers.codesNeedTree, h.registers.noErrorNoOpcode,
    h.registers.errorRange, h.registers.cursor⟩, fun hv => (h.tree hv).imp fun _ ht => ht.congr rfl rfl rfl rfl, h.codes⟩

theorem codesOk_withCodes {s : State} {codes : Vector CodeEntry symbolCount} (h : codeTable s.nodes s.root = .ok codes) :
    CodesOk (withCodes codes s) := fun _ => h

/-- GEN_CODES in a state whose tree has this code table. -/
theorem exec_genCodes {s : State} {codes : Vector CodeEntry symbolCount} (hv : s.treeValid = true)
    (h : codeTable s.nodes s.root = .ok codes) : exec .genCodes s = .next (withCodes codes s) := by
  show finish 0x20#8 (genCodes s) = _
  rw [genCodes, needTree_valid hv, h]
  rfl

theorem codeTable_built : codeTable built.nodes built.root = .ok builtCodes := by
  have h : (codeTable built.nodes built.root).toOption.isSome = true := by decide +kernel
  obtain ⟨c, hc⟩ := Option.isSome_iff_exists.mp h
  rw [builtCodes, hc, ok_of_toOption hc]
  rfl

theorem built_registers : RegistersOk built where
  treeCount := by decide +kernel
  countRange := by decide +kernel
  codesNeedTree := by decide +kernel
  noErrorNoOpcode := by decide +kernel
  errorRange := by decide +kernel
  cursor := by decide +kernel

theorem witness_Inv : Inv built :=
  ⟨built_registers, fun _ => ⟨builtTree, built_fits⟩, fun h => absurd h (by decide +kernel)⟩

theorem witness_StepKeepsRegistersOk : RegistersOk built ∧ ∃ t, step built = .next t := ⟨built_registers, _, rfl⟩

theorem witness_StepKeepsTreeOk : TreeOk built ∧ built.treeValid = true ∧ ∃ t, step built = .next t :=
  ⟨fun _ => ⟨builtTree, built_fits⟩, rfl, _, rfl⟩

theorem witness_StepKeepsCodesOk : CodesOk coded ∧ coded.codesValid = true ∧ ∃ t, step coded = .next t :=
  ⟨codesOk_withCodes codeTable_built, rfl, _, rfl⟩

theorem witness_CommandsNeverStop : Inv built ∧ ∃ t, step built = .next t := ⟨witness_Inv, _, rfl⟩

/-- The clause of a host action that is not enabled. -/
theorem witness_CommandsNeverStop_host : Inv (acting .drainOut (latched 0#32 built)) ∧
    step (acting .drainOut (latched 0#32 built)) = .fault .hostActionNotEnabled := ⟨inv_acting _ _ witness_Inv, rfl⟩

/-- Other `PENDING` while idle, other code entries, another unused node entry. -/
theorem witness_UnspecifiedStateIsUnobservable : Inv built ∧ SameVisible built
    { built with pending := 5#32, codes := builtCodes, nodes := built.nodes.set 5 (leafNode 7#9 9#40) } :=
  ⟨witness_Inv, rfl, fun h => absurd h (by decide +kernel), fun h => absurd h (by decide +kernel), by decide +kernel⟩

/-! The host interface -/

theorem witness_WriteCmdLatches :
    (acting (.write 0#4 0x05000000#32) State.reset).turns = .host (.write 0#4 0x05000000#32) :: [] ∧
    (acting (.write 0#4 0x05000000#32) State.reset).busy = false := ⟨rfl, rfl⟩

theorem witness_OverrunIsDropped :
    let s := acting (.write 0#4 0x11000002#32) (latched 0x11000001#32 State.reset)
    s.turns = .host (.write 0#4 0x11000002#32) :: [] ∧ s.busy = true := ⟨rfl, rfl⟩

theorem witness_OverrunIsDropped_goesOn :
    let s : State := { latched 0x03000000#32 State.reset with ovr := true }
    s.ovr = true ∧ s.errCode = 0#4 ∧ s.busy = true ∧ decode s.pending = .command .srcRewind ∧ s.turns = [] ∧
    ∃ t, exec .srcRewind s = .next t := ⟨rfl, rfl, rfl, by decide, rfl, _, rfl⟩

theorem witness_OverrunIsDropped_sticky : ∃ t, step { latched 0#32 State.reset with ovr := true } = .next t ∧
    ({ latched 0#32 State.reset with ovr := true } : State).ovr = true := ⟨_, rfl, rfl⟩

theorem witness_RegisterPortActions_read : (acting (.read 15#4) State.reset).turns = .host (.read 15#4) :: [] ∧
    7 ≤ (15#4 : BitVec 4).toNat ∧ 7 ≤ (7#4 : BitVec 4).toNat := ⟨rfl, by decide, by decide⟩

theorem witness_RegisterPortActions_write :
    (acting (.write 1#4 0xFFFFFFFF#32) State.reset).turns = .host (.write 1#4 0xFFFFFFFF#32) :: [] ∧ 1#4 ≠ 0#4 :=
  ⟨rfl, by decide⟩

theorem witness_LoadInWhileIdle : (acting (.loadIn aaab) State.reset).turns = .host (.loadIn aaab) :: [] ∧
    (acting (.loadIn aaab) State.reset).busy = false ∧ (acting (.loadIn aaab) (latched 0#32 State.reset)).busy = true :=
  ⟨rfl, rfl, rfl⟩

theorem witness_DrainOutWhileIdle : (acting .drainOut State.reset).turns = .host .drainOut :: [] ∧
    (acting .drainOut State.reset).busy = false ∧ (acting .drainOut (latched 0#32 State.reset)).busy = true := ⟨rfl, rfl, rfl⟩

theorem witness_HardwareReset : (acting .hwReset (latched 0x12000000#32 State.reset)).turns = .host .hwReset :: [] ∧
    (acting .hwReset (latched 0x12000000#32 State.reset)).input = [] ∧
    (acting .hwReset (latched 0x12000000#32 State.reset)).out = [] := ⟨rfl, rfl, rfl⟩

/-- The later READ STATUS, after a run with and without an error. -/
theorem witness_EndOfRun_read :
    (acting (.read 1#4) State.reset).turns = .host (.read 1#4) :: List.replicate 0 .engine ∧
    (acting (.read 1#4) State.reset).busy = false ∧ (acting (.read 1#4) (failed State.reset)).errCode ≠ 0#4 :=
  ⟨rfl, rfl, by decide⟩

/-- No end: an action is left in an idle block, or the block is busy. -/
theorem witness_EndOfRun_none : Turn.host .drainOut ∈ (acting .drainOut State.reset).turns ∧
    runEnd (acting .drainOut State.reset) = none ∧ (latched 0#32 State.reset).busy = true ∧
    runEnd (latched 0#32 State.reset) = none := ⟨by simp [acting], by decide +kernel, rfl, by decide +kernel⟩

/-- Both ends; a failed end is not a missing one. -/
theorem witness_EndOfRun_ends : runEnd State.reset = some .succeeded ∧ runEnd (failed State.reset) = some .failed := by
  decide +kernel

theorem witness_EndOfRun_pending : Inv (latched 0x03000000#32 built) ∧ (latched 0x03000000#32 built).turns = [] ∧
    (latched 0x03000000#32 built).busy = true := ⟨inv_latched _ witness_Inv, rfl, rfl⟩

theorem witness_NopChangesNothing : (latched 0x00000000#32 (failed State.reset)).busy = true ∧
    (latched 0x00000000#32 (failed State.reset)).pending = 0x00000000#32 := ⟨rfl, rfl⟩

/-! Tree builder commands -/

/-- The greatest counter that still counts. -/
theorem witness_HistCountCounts : (histAt (setHist 0xFF#8 0xFFFFFFFE#32 State.reset) 0xFF#8).toNat ≠ 2 ^ 32 - 1 := by
  rw [histAt_setHist_same]; decide

theorem witness_HistCountCounts_overflow : (histAt (setHist 0x00#8 0xFFFFFFFF#32 State.reset) 0x00#8).toNat = 2 ^ 32 - 1 := by
  rw [histAt_setHist_same]; decide

/-- A counter that ends at exactly 2^32 - 1. -/
theorem witness_HistCountStreamCounts :
    let s := { setHist 0x41#8 0xFFFFFFFE#32 (holding [0x41#8]) with inPos := 0 }
    unitsFrom s = [0x41#8] ∧ ∀ b : Byte, (histAt s b).toNat + (unitsFrom s).count b < 2 ^ 32 := by decide +kernel

/-- The second unit overflows. -/
theorem witness_HistCountStreamCounts_overflow :
    let s := setHist 0x41#8 0xFFFFFFFE#32 (holding [0x41#8, 0x41#8])
    ∃ hk : 1 < (unitsFrom s).length, (∀ b : Byte, (histAt s b).toNat + ((unitsFrom s).take 1).count b < 2 ^ 32) ∧
      (histAt s (unitsFrom s)[1]).toNat + ((unitsFrom s).take 1).count (unitsFrom s)[1] = 2 ^ 32 - 1 := by decide +kernel

/-- The clauses over leaves, entries at or above `NODE_COUNT`, and merged nodes have instances in V-L1's tree. -/
theorem witness_BuildTree : 1 < (occurring counted).length ∧ built.nodeCount.toNat ≤ 5 ∧ leafCount counted = 3 ∧
    4 < built.nodeCount.toNat ∧ Queued built.nodes 3 3 0 ∧ Queued built.nodes 3 4 0 ∧ Queued built.nodes 3 4 3 := by
  refine ⟨by decide +kernel, by decide +kernel, by decide +kernel, by decide +kernel, ⟨by decide, fun _ _ _ _ => ?_⟩,
    ⟨by decide, ?_⟩, ⟨by decide, ?_⟩⟩
  · omega
  all_goals
    intro m e h3 h4 he
    obtain rfl : m = 3 := by omega
    have h : built.nodes[3]? = some (internalNode 2#40 1#10 2#10) := by decide +kernel
    rw [h] at he
    cases he
    decide

theorem witness_BuildTreeDependsOnHistOnly : counted.hist = ({ counted with result := 7#32, nodeCount := 9#10 } : State).hist := rfl

theorem witness_NodeReadReads : built.nodeCount.toNat ≤ 513 ∧ 4#10 < built.nodeCount ∧ (built.nodes[4]?).isSome = true ∧
    EntryOk built.nodes[4] ∧ built.nodeCount ≤ 5#10 ∧ built.nodeCount ≤ 1023#10 := by decide +kernel

/-! Encoder commands -/

theorem witness_GenCodesWritesTheCodes_noTree : State.reset.treeValid = false := rfl

theorem witness_GenCodesWritesTheCodes : built.treeValid = true ∧ TreeFits built builtTree ∧
    (0x41#9, [true]) ∈ builtTree.codes := ⟨rfl, built_fits, by decide⟩

/-- The degenerate tree of R141: the root is the one leaf. -/
theorem witness_GenCodesWritesTheCodes_rootLeaf : eosOnly.treeValid = true ∧ TreeFits eosOnly (.leaf 0 256#9) :=
  ⟨rfl, by decide +kernel, by decide +kernel, by decide +kernel, fun _ => by decide +kernel,
    fun h => absurd h (by decide +kernel)⟩

theorem witness_CodesArePrefixFree : built.treeValid = true ∧ TreeFits built builtTree ∧
    (builtTree.leaves.map Prod.fst).Nodup ∧ (0x41 : Nat) ≠ 0x42 ∧ (coded.codes[0x41]).valid = true ∧
    (coded.codes[0x42]).valid = true := ⟨rfl, built_fits, by decide, by decide, by decide +kernel, by decide +kernel⟩

theorem witness_CodeReads_noCodes : State.reset.codesValid = false := rfl

theorem witness_CodeReads_mapped : coded.codesValid = true ∧ coded.codes[(256#9 : Sym).toNat]? = some coded.codes[256] ∧
    coded.codes[256].valid = true := ⟨rfl, by decide +kernel, by decide +kernel⟩

theorem witness_CodeReads_unmapped : coded.codesValid = true ∧ coded.codes[(0x43#9 : Sym).toNat]? = some coded.codes[0x43] ∧
    coded.codes[0x43].valid = false ∧ 256 < (257#9 : Sym).toNat := ⟨rfl, by decide +kernel, by decide +kernel, by decide⟩

theorem witness_EmitHeaderWritesTheHeader : State.reset.treeValid = false ∧ built.treeValid = true ∧ TreeFits built builtTree :=
  ⟨rfl, rfl, built_fits⟩

theorem witness_EncodeByteEmits : State.reset.codesValid = false ∧ coded.codesValid = true ∧
    coded.codes[(0x42#8 : Byte).toNat]? = some coded.codes[0x42] ∧ coded.codes[0x42].valid = true ∧
    coded.codes[(0xFF#8 : Byte).toNat]? = some coded.codes[0xFF] ∧ coded.codes[0xFF].valid = false :=
  ⟨rfl, rfl, by decide +kernel, by decide +kernel, by decide +kernel, by decide +kernel⟩

theorem witness_EncodeEosEmits : State.reset.codesValid = false ∧ coded.codesValid = true ∧
    coded.codes[256]? = some coded.codes[256] ∧ coded.codes[256].valid = true ∧ noEos.codesValid = true ∧
    noEos.codes[256]? = some CodeEntry.none ∧ CodeEntry.none.valid = false :=
  ⟨rfl, rfl, by decide +kernel, by decide +kernel, rfl, by decide +kernel, rfl⟩

theorem witness_EncodeStreamEmits :
    let s := supplied aaab coded
    s.codesValid = true ∧ unitsFrom s = aaab ∧ (∀ b ∈ unitsFrom s, (codeOf s (byteSym b)).isSome = true) ∧
    (codeOf s 256#9).isSome = true := ⟨rfl, by decide +kernel, by decide +kernel, by decide +kernel⟩

theorem witness_EncodeStreamEmits_noEos :
    let s := supplied aaab noEos
    s.codesValid = true ∧ (∀ b ∈ unitsFrom s, (codeOf s (byteSym b)).isSome = true) ∧ codeOf s 256#9 = none :=
  ⟨rfl, by decide +kernel, by decide +kernel⟩

theorem witness_EncodeStreamEmits_unmapped :
    let s := supplied [0x41#8, 0x43#8] coded
    ∃ hk : 1 < (unitsFrom s).length, s.codesValid = true ∧
      (∀ b ∈ (unitsFrom s).take 1, (codeOf s (byteSym b)).isSome = true) ∧ codeOf s (byteSym (unitsFrom s)[1]) = none := by
  decide +kernel

theorem witness_CompressWritesTheStream : ∀ b : Byte, (holding aaab).input.count b < 2 ^ 32 := by decide +kernel

/-- `n + 1` equal bytes: the last one is the byte before which `n` of its value were counted. -/
theorem count_equal_bytes (b : Byte) (n : Nat) : ∃ hk : n < (List.replicate (n + 1) b).length,
    ((List.replicate (n + 1) b).take n).count (List.replicate (n + 1) b)[n] = n ∧
    ∀ c : Byte, ((List.replicate (n + 1) b).take n).count c ≤ n := by
  refine ⟨by simp, by simp [List.take_replicate], fun c => ?_⟩
  calc _ ≤ _ := List.count_le_length
    _ ≤ n := by simp

/-- The last byte overflows its counter: here with `n` in place of 2^32 - 1. -/
theorem overflowing_input (n : Nat) : ∃ (s : State) (k : Nat) (hk : k < s.input.length),
    (s.input.take k).count s.input[k] = n ∧ ∀ b : Byte, (s.input.take k).count b ≤ n := by
  obtain ⟨hk, h1, h2⟩ := count_equal_bytes 0x41#8 n
  exact ⟨holding (List.replicate (n + 1) 0x41#8), n, hk, h1, h2⟩

/-- 2^32 equal bytes: the last one overflows its counter. -/
theorem witness_CompressWritesTheStream_overflow : ∃ (s : State) (k : Nat) (hk : k < s.input.length),
    (s.input.take k).count s.input[k] = 2 ^ 32 - 1 ∧ ∀ b : Byte, (s.input.take k).count b < 2 ^ 32 := by
  obtain ⟨s, k, hk, h1, h2⟩ := overflowing_input (2 ^ 32 - 1)
  exact ⟨s, k, hk, h1, fun b => lt_of_le_of_lt (h2 b) (by norm_num)⟩

/-- A loaded tree of one leaf, not EOS (V-D5), before GEN_CODES. -/
def loneLeaf : State := { State.reset with
  nodes := State.reset.nodes.set 0 (leafNode 0x41#9 0#40), nodeCount := 1#10, treeValid := true, treeSrc := true }

/-- The code table of that tree. -/
def loneCodes : Vector CodeEntry symbolCount := noCodes.set 0x41 ⟨true, 1#9, 0#256⟩

theorem loneLeaf_fits : TreeFits (withCodes loneCodes loneLeaf) (.leaf 0 0x41#9) :=
  ⟨by decide +kernel, by decide +kernel, by decide +kernel, fun h => absurd h (by decide +kernel), fun _ => by decide +kernel⟩

theorem witness_EncodeEosEmits_loaded : Inv (withCodes loneCodes loneLeaf) ∧ (withCodes loneCodes loneLeaf).codesValid = true ∧
    TreeFits (withCodes loneCodes loneLeaf) (.leaf 0 0x41#9) ∧ codeOf (withCodes loneCodes loneLeaf) 256#9 = none := by
  refine ⟨⟨⟨?_, ?_, ?_, ?_, ?_, ?_⟩, fun _ => ⟨_, loneLeaf_fits⟩, codesOk_withCodes ?_⟩, rfl, loneLeaf_fits, by decide +kernel⟩
  · decide +kernel
  · decide +kernel
  · decide +kernel
  · decide +kernel
  · decide +kernel
  · decide +kernel
  · rfl

/-! Decoder commands. The magic numbers are opaque, so the streams are put together from their bytes. -/

theorem inBits_word (m : Word) (rest : List Byte) : inBits (holding (wordBytes m ++ rest)) = 32 + 8 * rest.length := by
  simp [inBits, holding, wordBytes]; omega

/-- A header of a magic number and bits that the following bytes begin with. -/
theorem headerAt_word (m : Word) (rest : List Byte) (bits : List Bool) (hl : bits.length ≤ 8 * rest.length)
    (hb : streamBits rest 0 bits.length = bits) : HeaderAt (holding (wordBytes m ++ rest)) (msbBits 32 m ++ bits) := by
  have hp : (holding (wordBytes m ++ rest)).inPos = 0 := rfl
  have hi : (holding (wordBytes m ++ rest)).input = wordBytes m ++ rest := rfl
  refine ⟨?_, ?_⟩
  · rw [inBits_word, hp, List.length_append, msbBits_length]; omega
  · rw [hp, hi, List.length_append, msbBits_length, streamBits_word_append, hb]

/-- All of IN is a magic number and the bits of the following bytes. -/
theorem tail_word (m : Word) (rest : List Byte) :
    tailBits (holding (wordBytes m ++ rest)) = msbBits 32 m ++ streamBits rest 0 (8 * rest.length) := by
  have h : bitsLeft (holding (wordBytes m ++ rest)) = 32 + 8 * rest.length := by
    rw [bitsLeft, inBits_word]; rfl
  rw [tailBits, h]
  exact streamBits_word_append m rest _

theorem headerAt_magic (m : Word) : HeaderAt (holding (wordBytes m)) (msbBits 32 m) := by
  have h := headerAt_word m [] [] (by simp) rfl
  simpa using h

/-- Three words have one that is neither magic number. -/
theorem other_magic : ∃ m : Word, m ≠ Config.magicTree ∧ m ≠ Config.magicCounts := by
  by_contra h
  push Not at h
  have key : ∀ m : Word, m = Config.magicTree ∨ m = Config.magicCounts := fun m => by
    by_cases e : m = Config.magicTree
    · exact .inl e
    · exact .inr (h m e)
  rcases key 0#32 with h0 | h0 <;> rcases key 1#32 with h1 | h1 <;> rcases key 2#32 with h2 | h2
  all_goals
    first
    | exact absurd (h0.trans h1.symm) (by decide)
    | exact absurd (h0.trans h2.symm) (by decide)
    | exact absurd (h1.trans h2.symm) (by decide)

/-- IN one bit-byte short of a magic number, and empty. -/
theorem witness_ReadHeaderChecksTheMagic_short : inBits (holding [0#8, 0#8, 0#8]) < (holding [0#8, 0#8, 0#8]).inPos + 32 ∧
    inBits State.reset < State.reset.inPos + 32 := by decide

theorem witness_ReadHeaderChecksTheMagic_counts :
    HeaderAt (holding (wordBytes Config.magicCounts)) (msbBits 32 Config.magicCounts) := headerAt_magic _

theorem witness_ReadHeaderChecksTheMagic_tree :
    HeaderAt (holding (wordBytes Config.magicTree)) (msbBits 32 Config.magicTree) := headerAt_magic _

theorem witness_ReadHeaderChecksTheMagic_other : ∃ (s : State) (m : Word), m ≠ Config.magicTree ∧ m ≠ Config.magicCounts ∧
    HeaderAt s (msbBits 32 m) := by
  obtain ⟨m, h1, h2⟩ := other_magic
  exact ⟨_, m, h1, h2, headerAt_magic m⟩

theorem witness_ReadHeaderLoadsTheTree : builtTree.size ≤ 513 ∧ (∀ x ∈ builtTree.leaves, x.1.toNat ≤ 256) ∧
    HeaderAt (streamed aaabTail) (msbBits 32 Config.magicTree ++ builtTree.bits) :=
  ⟨by decide, by decide, headerAt_word _ _ _ (by decide) (by decide)⟩

theorem leftComb_size (n : Nat) : (leftComb n).size = 2 * n + 1 := by
  induction n with
  | zero => rfl
  | succ n ih => simp [leftComb, ih]; omega

theorem leftComb_tokens (n : Nat) : ∃ rest, (leftComb n).tokens = List.replicate n none ++ some 0#9 :: rest := by
  induction n with
  | zero => exact ⟨[], rfl⟩
  | succ n ih =>
    obtain ⟨rest, h⟩ := ih
    exact ⟨rest ++ [some 0#9], by simp [leftComb, Tree.tokens, h, List.replicate_succ]⟩

/-- The first tokens of a comb are internal nodes. -/
theorem leftComb_take {n k : Nat} (h : k ≤ n) : (leftComb n).tokens.take k = List.replicate k none := by
  obtain ⟨rest, e⟩ := leftComb_tokens n
  rw [e, List.take_append_of_le_length (by simpa using h), List.take_replicate, Nat.min_eq_left h]

/-- Internal nodes serialize to 0 bits, as zero bytes hold them (R115). -/
theorem internal_tokens_bits (k m : Nat) : (List.replicate k none).flatMap tokenBits = streamBits (List.replicate m 0#8) 0 k := by
  rw [streamBits_zeros]
  induction k with
  | zero => rfl
  | succ k ih => simp [List.replicate_succ, tokenBits, ih]

theorem internal_tokens_ok (k : Nat) : ∀ x ∈ List.replicate k (none : Option Sym), TokenOk x := by
  intro x hx sym e
  rw [List.eq_of_mem_replicate hx] at e
  cases e

/-- V-D7: 65 zero bytes after the magic number, 514 internal nodes. -/
theorem witness_ReadHeaderRejectsBadHeaders_overflow : 513 < (leftComb 514).size ∧
    (∀ x ∈ (leftComb 514).tokens.take 513, TokenOk x) ∧
    HeaderAt (streamed (List.replicate 65 0#8))
      (msbBits 32 Config.magicTree ++ ((leftComb 514).tokens.take 513).flatMap tokenBits) := by
  rw [leftComb_size, leftComb_take (by decide), internal_tokens_bits 513 65]
  exact ⟨by decide, internal_tokens_ok 513, headerAt_word _ _ _ (by rw [streamBits_length, List.length_replicate]; decide)
    (by rw [streamBits_length])⟩

/-- V-D7: the header [C0 40], a root leaf 257. -/
theorem witness_ReadHeaderRejectsBadHeaders_badSymbol :
    (Tree.leaf 0 257#9).tokens[0]? = some (some 257#9) ∧ 256 < (257#9 : Sym).toNat ∧
    (∀ x ∈ (Tree.leaf 0 257#9).tokens.take 0, TokenOk x) ∧
    HeaderAt (streamed [0xC0#8, 0x40#8])
      (msbBits 32 Config.magicTree ++ ((Tree.leaf 0 257#9).tokens.take (0 + 1)).flatMap tokenBits) :=
  ⟨rfl, by decide, by simp, headerAt_word _ _ _ (by decide) (by decide)⟩

/-- V-D7: 64 zero bytes after the magic number; IN ends at the 513th node. -/
theorem witness_ReadHeaderRejectsBadHeaders_truncated :
    (leftComb 514).tokens[512]? = some none ∧ (∀ y ∈ (leftComb 514).tokens.take 512, TokenOk y) ∧
    ([] : List Bool) <+: tokenBits none ∧ [] ≠ tokenBits none ∧
    (streamed (List.replicate 64 0#8)).inPos ≤ inBits (streamed (List.replicate 64 0#8)) ∧
    tailBits (streamed (List.replicate 64 0#8)) =
      msbBits 32 Config.magicTree ++ ((leftComb 514).tokens.take 512).flatMap tokenBits ++ [] := by
  have h : (leftComb 514).tokens[512]? = some none := by
    obtain ⟨rest, e⟩ := leftComb_tokens 514
    rw [e, List.getElem?_append_left (by rw [List.length_replicate]; decide), List.getElem?_replicate]
    rfl
  rw [leftComb_take (by decide), internal_tokens_bits 512 64, List.append_nil]
  refine ⟨h, internal_tokens_ok 512, by simp, by simp [tokenBits], Nat.zero_le _, ?_⟩
  rw [streamed, tail_word, List.length_replicate]

/-- The built tree of V-L1, with a payload in IN, with one bit that reaches no leaf, and with nothing left. -/
theorem witness_DecodeSymDecodesOne : State.reset.treeValid = false ∧ built.treeValid = true ∧
    TreeFits (supplied [0x3A#8] built) builtTree ∧
    builtTree.decodeOne (tailBits (supplied [0x3A#8] built)) = some (0x42#9, 2) ∧
    builtTree.decodeOne (tailBits built) = none :=
  ⟨rfl, rfl, fits_supplied _ built_fits,
    by decide +kernel, by decide +kernel⟩

theorem witness_DecodeStreamDecodesToEos : State.reset.treeValid = false ∧ built.treeValid = true ∧
    TreeFits (supplied [0x3A#8] built) builtTree ∧
    (let s := supplied [0x3A#8] built
     builtTree.decodeMany (bitsLeft s + 1) (tailBits s) = ([0x42#9, 0x41#9, 0x41#9, 0x41#9], 7, true)) ∧
    builtTree.decodeMany (bitsLeft built + 1) (tailBits built) = ([], 0, false) :=
  ⟨rfl, rfl, fits_supplied _ built_fits,
    by decide +kernel, by decide +kernel⟩

theorem streamed_bits (rest : List Byte) : streamBits (streamed rest).input 0 (inBits (streamed rest)) =
    msbBits 32 Config.magicTree ++ streamBits rest 0 (8 * rest.length) := by
  rw [streamed, inBits_word]
  exact streamBits_word_append _ _ _

/-- V-E1's stream. -/
theorem witness_DecompressDecodesTheStream : builtTree.size ≤ 513 ∧ (∀ x ∈ builtTree.leaves, x.1.toNat ≤ 256) ∧
    streamBits (streamed aaabTail).input 0 (inBits (streamed aaabTail)) =
      msbBits 32 Config.magicTree ++ builtTree.bits ++ msbBits 8 0xE2#8 ∧
    builtTree.decodeMany ((msbBits 8 0xE2#8).length + 1) (msbBits 8 0xE2#8) =
      ([0x41#9, 0x41#9, 0x41#9, 0x42#9], 7, true) := by
  refine ⟨by decide, by decide, ?_, by decide +kernel⟩
  rw [streamed_bits, List.append_assoc]
  exact congrArg _ (by decide +kernel)

/-- V-L8: the same without its last byte. -/
theorem witness_DecompressDecodesTheStream_truncated :
    streamBits (streamed [0x24#8, 0x2C#8, 0x02#8, 0x41#8]).input 0 (inBits (streamed [0x24#8, 0x2C#8, 0x02#8, 0x41#8])) =
      msbBits 32 Config.magicTree ++ builtTree.bits ++ [] ∧
    builtTree.decodeMany (([] : List Bool).length + 1) [] = ([], 0, false) := by
  refine ⟨?_, by decide⟩
  rw [streamed_bits, List.append_assoc]
  exact congrArg _ (by decide +kernel)

/-- An error of READ_HEADER: IN is empty. -/
theorem witness_DecompressDecodesTheStream_headerError :
    ∃ t, exec .readHeader { State.reset with inPos := 0 } = .next t ∧ t.treeValid = false := ⟨_, rfl, rfl⟩

theorem witness_DecompressRejectsUnknownMagic : inBits (holding [0#8, 0#8, 0#8]) < 32 ∧
    ∃ (s : State) (m : Word), 32 ≤ inBits s ∧ streamBits s.input 0 32 = msbBits 32 m ∧ m ≠ Config.magicTree ∧
      m ≠ Config.magicCounts := by
  obtain ⟨m, h1, h2⟩ := other_magic
  refine ⟨by decide, holding (wordBytes m), m, ?_, streamBits_wordBytes m, h1, h2⟩
  simp [inBits, holding, wordBytes]

/-! Whole-machine rules and end-to-end properties -/

theorem witness_OnlyTheseCommandsWrite : exec .genCodes built = .next (withCodes builtCodes built) ∧
    (withCodes builtCodes built).codesValid ≠ built.codesValid := ⟨exec_genCodes rfl codeTable_built, by decide +kernel⟩

theorem witness_CommandsOnlyAppendToOut : exec .nop coded = .next coded := rfl

theorem witness_CompressIsDeterministic : (holding aaab).input = (supplied aaab coded).input ∧
    (holding aaab).out = [] ∧ (supplied aaab coded).out = [] := ⟨rfl, rfl, rfl⟩

theorem witness_HeaderDescribesItsTree : built.treeValid = true ∧ TreeFits built builtTree ∧ built.out = [] :=
  ⟨rfl, built_fits, rfl⟩

theorem witness_RoundTripIsIdentity : (∀ b : Byte, aaab.count b < 2 ^ 32) ∧ State.reset.errCode = 0#4 ∧
    State.reset.busy = false ∧ State.reset.out = [] := ⟨by decide +kernel, rfl, rfl, rfl⟩

end Sys2Proof.Tests
end

section
/-! SUPPORT. The trees in the node memory, and the tree that BUILD_TREE makes (10_state.md rule R42, 41_tree_builder.md). -/

namespace Sys2Proof
open Machine

/-! ### Trees in the node memory -/

/-- The node index of a tree's root. -/
def Tree.index : Tree → Nat
  | .leaf i _ => i
  | .node i _ _ => i

@[simp] theorem Tree.index_leaf (i : Nat) (sym : Sym) : (Tree.leaf i sym).index = i := rfl
@[simp] theorem Tree.index_node (i : Nat) (l r : Tree) : (Tree.node i l r).index = i := rfl
@[simp] theorem Tree.indices_leaf (i : Nat) (sym : Sym) : (Tree.leaf i sym).indices = [i] := rfl
@[simp] theorem Tree.indices_node (i : Nat) (l r : Tree) : (Tree.node i l r).indices = i :: (l.indices ++ r.indices) := rfl

/-- The symbols of a tree's leaves, in preorder. -/
def Tree.symbols (t : Tree) : List Sym := t.leaves.map Prod.fst

@[simp] theorem Tree.symbols_leaf (i : Nat) (sym : Sym) : (Tree.leaf i sym).symbols = [sym] := rfl

@[simp] theorem Tree.symbols_node (i : Nat) (l r : Tree) : (Tree.node i l r).symbols = l.symbols ++ r.symbols := by
  simp [Tree.symbols, Tree.leaves, List.map_map, Function.comp_def]

theorem Tree.index_mem_indices (t : Tree) : t.index ∈ t.indices := by
  cases t <;> simp

/-- A full tree of L leaves has 2L - 1 nodes (R140, R224). -/
theorem Tree.size_symbols (t : Tree) : t.size + 1 = 2 * t.symbols.length := by
  rw [Tree.symbols, List.length_map, t.size_leaves]

variable {nodes nodes' : Vector Node nodeCap}

theorem treeAt_leaf {i : Nat} {e : Node} (d : Nat) (he : nodes[i]? = some e) (hl : e.leaf = true) :
    treeAt nodes (d + 1) i = some (.leaf i e.sym) := by
  simp [treeAt, he, hl]

theorem treeAt_node {d i : Nat} {e : Node} {l r : Tree} (he : nodes[i]? = some e) (hl : e.leaf = false)
    (hleft : treeAt nodes d e.left.toNat = some l) (hright : treeAt nodes d e.right.toNat = some r) :
    treeAt nodes (d + 1) i = some (.node i l r) := by
  simp [treeAt, he, hl, hleft, hright]

/-- A tree stays the same under a greater bound and in a node memory with the same entries at its indices. -/
theorem treeAt_transfer {d d' i : Nat} {t : Tree} (h : treeAt nodes d i = some t) (hd : d ≤ d')
    (hn : ∀ j ∈ t.indices, nodes'[j]? = nodes[j]?) : treeAt nodes' d' i = some t := by
  induction d generalizing d' i t with
  | zero => simp [treeAt] at h
  | succ d ih =>
    obtain ⟨d', rfl⟩ : ∃ k, d' = k + 1 := ⟨d' - 1, by omega⟩
    obtain ⟨e, he, ⟨hl, rfl⟩ | ⟨hl, l, r, hleft, hright, rfl⟩⟩ := treeAt_step h
    · exact treeAt_leaf d' ((hn i (by simp)).trans he) hl
    · exact treeAt_node ((hn i (by simp)).trans he) hl
        (ih hleft (by omega) fun j hj => hn j (by simp [hj])) (ih hright (by omega) fun j hj => hn j (by simp [hj]))

theorem treeAt_index {d i : Nat} {t : Tree} (h : treeAt nodes d i = some t) : t.index = i := by
  cases d with
  | zero => simp [treeAt] at h
  | succ d => obtain ⟨e, he, ⟨hl, rfl⟩ | ⟨hl, l, r, hleft, hright, rfl⟩⟩ := treeAt_step h <;> rfl

/-- The nodes of a tree are entries of the node memory (R41). -/
theorem treeAt_indices_lt {d i : Nat} {t : Tree} (h : treeAt nodes d i = some t) : ∀ j ∈ t.indices, j < nodeCap := by
  induction d generalizing i t with
  | zero => simp [treeAt] at h
  | succ d ih =>
    obtain ⟨e, he, hcase⟩ := treeAt_step h
    have hi : i < nodeCap := (Vector.getElem?_eq_some_iff.mp he).1
    obtain ⟨hl, rfl⟩ | ⟨hl, l, r, hleft, hright, rfl⟩ := hcase
    · simpa using hi
    · intro j hj
      simp only [Tree.indices_node, List.mem_cons, List.mem_append] at hj
      rcases hj with rfl | hj | hj
      · exact hi
      · exact ih hleft j hj
      · exact ih hright j hj

/-- R42: a state that holds a tree has 1 to 513 nodes. -/
theorem TreeFits.nodeCount_range {s : State} {t : Tree} (h : TreeFits s t) :
    1 ≤ s.nodeCount.toNat ∧ s.nodeCount.toNat ≤ nodeCap := by
  have hpos : t.index < s.nodeCount.toNat := List.mem_range.mp (h.exact.mem_iff.mp t.index_mem_indices)
  have hlast : s.nodeCount.toNat - 1 ∈ t.indices := h.exact.mem_iff.mpr (List.mem_range.mpr (by omega))
  have := treeAt_indices_lt h.rooted _ hlast
  omega

/-! ### The trees of BUILD_TREE -/

/-- What BUILD_TREE has made so far (R137, R138): `trees` are the trees rooted at the queued indices, over all the nodes made,
with the leaf symbols `syms`. -/
structure Forest (b : Builder) (trees : List Tree) (syms : List Sym) : Prop where
  roots : (trees.map Tree.index).Perm b.queue
  stored : ∀ t ∈ trees, treeAt b.nodes t.size t.index = some t
  exact : (trees.flatMap Tree.indices).Perm (List.range b.next)
  symbols : (trees.flatMap Tree.symbols).Perm syms
  entries : ∀ i, i < b.next → ∃ e, b.nodes[i]? = some e ∧ EntryOk e
  last : b.queue ≠ [] → b.next - 1 ∈ b.queue

theorem forest_empty (nodes : Vector Node nodeCap) : Forest ⟨nodes, 0, []⟩ [] [] where
  roots := .refl _
  stored := by simp
  exact := .refl _
  symbols := .refl _
  entries := by simp
  last := by simp

theorem Tree.sum_sizes (trees : List Tree) : (trees.flatMap Tree.indices).length + trees.length =
    2 * (trees.flatMap Tree.symbols).length := by
  induction trees with
  | nil => rfl
  | cons t trees ih =>
    have ht : t.indices.length + 1 = 2 * t.symbols.length := t.size_symbols
    simp only [List.flatMap_cons, List.length_append, List.length_cons]
    omega

variable {b b' : Builder} {trees trees' : List Tree} {syms : List Sym}

/-- R138, R139: each merge makes one node more and leaves one tree fewer. -/
theorem Forest.next_add_length (h : Forest b trees syms) : b.next + b.queue.length = 2 * syms.length := by
  rw [← h.roots.length_eq, ← h.symbols.length_eq, List.length_map, ← Tree.sum_sizes, h.exact.length_eq,
    List.length_range]

theorem Forest.perm (h : Forest b trees syms) (hp : trees'.Perm trees) : Forest b trees' syms where
  roots := (hp.map _).trans h.roots
  stored := fun t ht => h.stored t (hp.mem_iff.mp ht)
  exact := (hp.flatMap_right _).trans h.exact
  symbols := (hp.flatMap_right _).trans h.symbols
  entries := h.entries
  last := h.last

theorem Forest.indices_lt (h : Forest b trees syms) {t : Tree} (ht : t ∈ trees) : ∀ j ∈ t.indices, j < b.next :=
  fun _ hj => List.mem_range.mp (h.exact.mem_iff.mp (List.mem_flatMap.mpr ⟨t, ht, hj⟩))

@[simp] theorem addNode_next (e : Node) (b : Builder) : (addNode e b).next = b.next + 1 := rfl
@[simp] theorem addNode_queue (e : Node) (b : Builder) : (addNode e b).queue = b.queue ++ [b.next] := rfl
@[simp] theorem addNode_nodes (e : Node) (b : Builder) : (addNode e b).nodes = setNode b.next e b.nodes := rfl

theorem getElem?_setNode_same {i : Nat} (h : i < nodeCap) (e : Node) : (setNode i e nodes)[i]? = some e := by
  rw [Vector.getElem?_eq_getElem h, setNode_same h]

theorem getElem?_setNode_ne {i j : Nat} (h : j ≠ i) (e : Node) : (setNode i e nodes)[j]? = nodes[j]? := by
  simp [setNode, h.symm]

/-- A tree below the next free index is still stored when the next node is made. -/
theorem Forest.stored_addNode (h : Forest b trees syms) (e : Node) {t : Tree} (ht : t ∈ trees) {d : Nat} (hd : t.size ≤ d) :
    treeAt (setNode b.next e b.nodes) d t.index = some t :=
  treeAt_transfer (h.stored t ht) hd fun j hj => getElem?_setNode_ne (by have := h.indices_lt ht j hj; omega) e

theorem Forest.entries_addNode (h : Forest b trees syms) (hn : b.next < nodeCap) {e : Node} (he : EntryOk e) :
    ∀ i, i < b.next + 1 → ∃ e', (setNode b.next e b.nodes)[i]? = some e' ∧ EntryOk e' := by
  intro i hi
  by_cases hlast : i = b.next
  · subst hlast
    exact ⟨e, getElem?_setNode_same hn e, he⟩
  · rw [getElem?_setNode_ne hlast]
    exact h.entries i (by omega)

theorem entryOk_leafNode {sym : Sym} (h : sym.toNat ≤ 256) (w : Weight) : EntryOk (leafNode sym w) :=
  ⟨fun _ => ⟨h, rfl, rfl⟩, nofun⟩

theorem entryOk_internalNode (w : Weight) (l r : NodeIdx) : EntryOk (internalNode w l r) :=
  ⟨nofun, fun _ => rfl⟩

/-- R137: a new leaf is a tree of its own. -/
theorem Forest.addLeaf (h : Forest b trees syms) (hn : b.next < nodeCap) {sym : Sym} (hs : sym.toNat ≤ 256) (w : Weight) :
    Forest (addNode (leafNode sym w) b) (trees ++ [.leaf b.next sym]) (syms ++ [sym]) where
  roots := by simpa using h.roots.append_right [b.next]
  stored := by
    intro t ht
    rcases List.mem_append.mp ht with ht | ht
    · exact h.stored_addNode _ ht le_rfl
    · obtain rfl := List.mem_singleton.mp ht
      exact treeAt_leaf 0 (getElem?_setNode_same hn _) rfl
  exact := by simpa [List.range_succ] using h.exact.append_right [b.next]
  symbols := by simpa using h.symbols.append_right [sym]
  entries := h.entries_addNode hn (entryOk_leafNode hs w)
  last := by simp

/-- One of the queued trees taken out of the forest. -/
theorem exists_tree_of_mem_queue {q : List Nat} {i : Nat} (h : (trees.map Tree.index).Perm q) (hi : i ∈ q) :
    ∃ t rest, trees.Perm (t :: rest) ∧ t.index = i ∧ (rest.map Tree.index).Perm (q.erase i) := by
  obtain ⟨t, ht, rfl⟩ := List.mem_map.mp (h.mem_iff.mpr hi)
  have hp : trees.Perm (t :: trees.erase t) := List.perm_cons_erase ht
  refine ⟨t, trees.erase t, hp, rfl, ?_⟩
  have := ((hp.map Tree.index).symm.trans h).erase t.index
  simpa using this

/-- R138: one round of the merge loop takes two indices out of the queue and makes one node with them as children. -/
theorem mergeStep_some (h : mergeStep b = some b') : ∃ i j w, i ∈ b.queue ∧ j ∈ b.queue.erase i ∧
    b' = addNode (internalNode w (BitVec.ofNat 10 i) (BitVec.ofNat 10 j)) { b with queue := (b.queue.erase i).erase j } := by
  unfold mergeStep at h
  split at h
  · simp at h
  · next i q hi =>
    obtain ⟨hmem, rfl, -⟩ := removeMin_spec hi
    split at h
    · simp at h
    · next j q' hj =>
      obtain ⟨hmem', rfl, -⟩ := removeMin_spec hj
      exact ⟨i, j, _, hmem, hmem', by simpa using h.symm⟩

/-- R139: the merge loop ends when fewer than two indices are left. -/
theorem mergeStep_none (h : mergeStep b = none) : b.queue.length ≤ 1 := by
  by_contra hlen
  obtain ⟨i, q, hi⟩ := removeMin_some (nodes := b.nodes) (q := b.queue) (by rintro hq; simp [hq] at hlen)
  obtain ⟨hmem, rfl, -⟩ := removeMin_spec hi
  obtain ⟨j, q', hj⟩ := removeMin_some (nodes := b.nodes) (q := b.queue.erase i) (by
    intro hq
    have := List.length_erase_of_mem hmem
    simp only [hq, List.length_nil] at this
    omega)
  simp [mergeStep, hi, hj] at h

/-- R138: a merge makes one tree of two. -/
theorem Forest.merge (h : Forest b trees syms) (hs : syms.length ≤ symbolCount) (hm : mergeStep b = some b') :
    ∃ trees', Forest b' trees' syms := by
  obtain ⟨i, j, w, hi, hj, rfl⟩ := mergeStep_some hm
  obtain ⟨l, rest, hl, rfl, hrest⟩ := exists_tree_of_mem_queue h.roots hi
  obtain ⟨r, rest, hr, rfl, hroots⟩ := exists_tree_of_mem_queue hrest hj
  have hf := h.perm (hl.trans (hr.cons l)).symm
  have hn : b.next < nodeCap := by
    have h2 := hf.next_add_length
    have h3 := hf.roots.length_eq
    simp only [List.length_map, List.length_cons, symbolCount, nodeCap] at h2 h3 hs ⊢
    omega
  have hindex : ∀ t ∈ l :: r :: rest, (BitVec.ofNat 10 t.index).toNat = t.index := fun t ht => by
    have := hf.indices_lt ht _ t.index_mem_indices
    simp only [BitVec.toNat_ofNat, nodeCap] at hn ⊢
    omega
  refine ⟨.node b.next l r :: rest, ?_, ?_, ?_, ?_, hf.entries_addNode hn (entryOk_internalNode _ _ _), by simp⟩
  · simpa using (hroots.cons b.next).trans (List.perm_append_singleton _ _).symm
  · intro t ht
    rcases List.mem_cons.mp ht with rfl | ht
    · rw [Tree.size_node]
      refine treeAt_node (getElem?_setNode_same hn _) rfl ?_ ?_
      · rw [internalNode, hindex l (by simp)]
        exact hf.stored_addNode _ (by simp) (by omega)
      · rw [internalNode, hindex r (by simp)]
        exact hf.stored_addNode _ (by simp) (by omega)
    · exact hf.stored_addNode _ (by simp [ht]) le_rfl
  · have := (hf.exact.cons b.next).trans (List.perm_append_singleton _ _).symm
    simpa [List.range_succ] using this
  · simpa using hf.symbols

theorem Forest.one_tree (h : Forest b trees syms) (hq : b.queue ≠ []) (hlen : b.queue.length ≤ 1) :
    ∃ t, Forest b [t] syms := by
  have hpos := List.length_pos_iff.mpr hq
  have htrees : trees.length = 1 := by
    rw [← List.length_map (f := Tree.index), h.roots.length_eq]
    omega
  obtain ⟨t, rfl⟩ := List.length_eq_one_iff.mp htrees
  exact ⟨t, h⟩

/-- R138, R139: the merge loop, with rounds enough, ends with one tree. -/
theorem Forest.mergeLoop (hs : syms.length ≤ symbolCount) : ∀ (n : Nat) {b : Builder} {trees : List Tree},
    Forest b trees syms → b.queue ≠ [] → b.queue.length ≤ n + 1 → ∃ t, Forest (mergeLoop n b) [t] syms
  | 0, b, trees, h, hq, hlen => by
    exact h.one_tree hq hlen
  | n + 1, b, trees, h, hq, hlen => by
    unfold Machine.mergeLoop
    split
    · next hm =>
      exact h.one_tree hq (mergeStep_none hm)
    · next b' hm =>
      obtain ⟨trees', h'⟩ := h.merge hs hm
      have h1 := h.next_add_length
      have h2 := h'.next_add_length
      obtain ⟨i, j, w, hi, hj, rfl⟩ := mergeStep_some hm
      simp only [addNode_next] at h2
      exact Forest.mergeLoop hs n h' (by simp) (by omega)

/-- R137: the leaves of the byte values that occur among these entries. -/
theorem Forest.addByteLeaves : ∀ (xs : List (Byte × Word)) {b : Builder} {trees : List Tree} {syms : List Sym},
    Forest b trees syms → b.next + xs.length < nodeCap →
    (∃ trees', Forest (xs.foldl addByteLeaf b) trees' (syms ++ (xs.filter (·.2 ≠ 0#32)).map (byteSym ·.1))) ∧
      (xs.foldl addByteLeaf b).next ≤ b.next + xs.length
  | [], b, trees, syms, h, _ => ⟨⟨trees, by simpa using h⟩, le_rfl⟩
  | x :: xs, b, trees, syms, h, hn => by
    simp only [List.length_cons] at hn
    by_cases hx : x.2 = 0#32
    · obtain ⟨hf, hle⟩ := Forest.addByteLeaves xs h (by omega)
      simp only [List.foldl_cons, addByteLeaf, hx, if_true, List.length_cons]
      exact ⟨by simpa [hx] using hf, by omega⟩
    · have hsym : (byteSym x.1).toNat ≤ 256 := by simp [byteSym]; omega
      obtain ⟨hf, hle⟩ := Forest.addByteLeaves xs (h.addLeaf (by omega) hsym (x.2.setWidth 40)) (by simp; omega)
      simp only [List.foldl_cons, addByteLeaf, hx, if_false, List.length_cons]
      simp only [addNode_next] at hle
      exact ⟨by simpa [hx] using hf, by omega⟩

/-- The leaf symbols of a built tree (R137): the byte values that occur, in ascending order, then EOS. -/
def builtSymbols (s : State) : List Sym := (occurring s).map byteSym ++ [eosSym]

theorem allBytes_length : allBytes.length = 256 := by
  simp [allBytes]

theorem builtSymbols_length_le (s : State) : (builtSymbols s).length ≤ symbolCount := by
  have := List.length_filter_le (fun b => decide (histAt s b ≠ 0#32)) allBytes
  rw [allBytes_length] at this
  simp only [builtSymbols, occurring, List.length_append, List.length_map, List.length_singleton, symbolCount]
  omega

theorem byteSym_injective : Function.Injective byteSym := fun a b h => by
  have := congrArg BitVec.toNat h
  simp only [byteSym, BitVec.toNat_setWidth] at this
  exact BitVec.eq_of_toNat_eq (by omega)

theorem allBytes_nodup : allBytes.Nodup := by
  refine List.Nodup.map_on (fun x hx y hy h => ?_) List.nodup_range
  have := congrArg BitVec.toNat h
  simp only [List.mem_range, byteValues, BitVec.toNat_ofNat] at hx hy this
  omega

theorem builtSymbols_nodup (s : State) : (builtSymbols s).Nodup := by
  refine List.nodup_append.mpr ⟨(allBytes_nodup.filter _).map byteSym_injective, List.nodup_singleton _, ?_⟩
  intro a ha b hb h
  obtain ⟨c, -, rfl⟩ := List.mem_map.mp ha
  have := congrArg BitVec.toNat (h.trans (List.mem_singleton.mp hb))
  simp [byteSym] at this
  omega

/-- R137: the leaves of BUILD_TREE. -/
theorem forest_buildLeaves (s : State) : ∃ trees, Forest (buildLeaves s) trees (builtSymbols s) := by
  have hlen : (histEntries s).length = 256 := by rw [histEntries_eq, List.length_map, allBytes_length]
  have hlt : 0 + (histEntries s).length < nodeCap := by rw [hlen]; decide
  obtain ⟨⟨trees, h⟩, hle⟩ := Forest.addByteLeaves (histEntries s) (forest_empty s.nodes) hlt
  refine ⟨_, Eq.mp (congrArg _ ?_) (h.addLeaf (hle.trans_lt hlt) (by decide) eosWeight)⟩
  simp [builtSymbols, occurring, histEntries_eq, List.filter_map, Function.comp_def]

/-- R138, R139: the merged queue of BUILD_TREE roots one tree. -/
theorem forest_buildMerged (s : State) : ∃ t, Forest (buildMerged s) [t] (builtSymbols s) := by
  obtain ⟨trees, h⟩ := forest_buildLeaves s
  exact h.mergeLoop (builtSymbols_length_le s) _ (by simp [buildLeaves]) (by omega)

/-- R140: BUILD_TREE leaves one full binary tree in the node memory, with the symbols that occur, and EOS. -/
theorem buildTree_fits (s : State) : ∃ t, TreeFits (buildTree s) t ∧ t.symbols.Perm (builtSymbols s) := by
  obtain ⟨t, h⟩ := forest_buildMerged s
  have hqueue : (buildMerged s).queue = [t.index] := List.perm_singleton.mp h.roots.symm
  have hexact : t.indices.Perm (List.range (buildMerged s).next) := by simpa using h.exact
  have hsyms : t.symbols.Perm (builtSymbols s) := by simpa using h.symbols
  have hlast : (buildMerged s).next - 1 = t.index := by simpa [hqueue] using h.last
  have hnext : (buildMerged s).next + 1 = 2 * (builtSymbols s).length := by simpa [hqueue] using h.next_add_length
  have hcount : (buildTree s).nodeCount.toNat = (buildMerged s).next := by
    have := builtSymbols_length_le s
    simp only [buildTree_nodeCount, BitVec.toNat_ofNat, symbolCount] at this ⊢
    omega
  have hroot : (buildTree s).root.toNat = t.index := by
    have := (buildTree s).nodeCount.isLt
    simp only [buildTree_root, hqueue, List.headD_cons, BitVec.toNat_ofNat]
    omega
  refine ⟨t, ⟨?_, ?_, ?_, fun _ => ⟨?_, ?_, ?_⟩, nofun⟩, hsyms⟩
  · rw [currentTree, hroot]
    refine treeAt_transfer (h.stored t (by simp)) ?_ fun _ _ => rfl
    have := builtSymbols_length_le s
    have := t.size_symbols
    rw [hsyms.length_eq] at this
    simp only [symbolCount, nodeCap] at *
    omega
  · rwa [hcount]
  · intro i hi hlt
    obtain ⟨e, he, hok⟩ := h.entries i (hcount ▸ hlt)
    rwa [buildTree_nodes, (Vector.getElem?_eq_some_iff.mp he).2]
  · omega
  · exact hsyms.nodup_iff.mpr (builtSymbols_nodup s)
  · exact hsyms.mem_iff.mpr (by simp [builtSymbols])

end Sys2Proof
end

section
/-! SUPPORT. The tree that READ_HEADER loads (43_decoder.md rules R221 to R224). -/

namespace Sys2Proof.Machine

/-! ### The tree of READ_HEADER -/

theorem bind_eq_ok {α β : Type} {x : Run α} {k : α → State → Run β} {b : β} {t : State} :
    x.bind k = .ok b t ↔ ∃ a s, x = .ok a s ∧ k a s = .ok b t := by
  cases x <;> simp

/-- A read changes the cursor only (R73, R74). -/
theorem readBits_nodes {n : Nat} {s t : State} {x : Option (BitVec n)} (h : readBits n s = (x, t)) : t.nodes = s.nodes := by
  have hstate := congrArg State.nodes (readBits_state n s)
  rwa [h] at hstate

/-- R221: a leaf of the header. -/
theorem readLeaf_ok {k : Nat} {s t : State} {r : Nat × Nat} (h : readLeaf k s = .ok r t) :
    ∃ sym s', sym.toNat ≤ 256 ∧ s'.nodes = s.nodes ∧ r = (k, k + 1) ∧ t = storeNode k (leafNode sym 0#40) s' := by
  unfold readLeaf at h
  split at h
  · simp at h
  · next sym s' hread =>
    split at h
    · simp at h
    · next hsym =>
      simp only [Run.ok.injEq] at h
      exact ⟨sym, s', by omega, readBits_nodes hread, h.1.symm, h.2.symm⟩

/-- R221, R223: a node of the header is a leaf, or a node stored after its two subtrees. -/
theorem readNode_ok {d k : Nat} {s t : State} {r : Nat × Nat} (h : readNode (d + 1) k s = .ok r t) :
    k ≠ nodeCap ∧ ∃ s1, s1.nodes = s.nodes ∧
      (readLeaf k s1 = .ok r t ∨ ∃ left right s2 s3,
        readNode d (k + 1) s1 = .ok left s2 ∧ readNode d left.2 s2 = .ok right s3 ∧ r = (k, right.2) ∧
        t = storeNode k (internalNode 0#40 (BitVec.ofNat 10 left.1) (BitVec.ofNat 10 right.1)) s3) := by
  unfold readNode at h
  split at h
  · simp at h
  · next hk =>
    refine ⟨hk, ?_⟩
    split at h
    · simp at h
    · next flag s1 hread =>
      refine ⟨s1, readBits_nodes hread, ?_⟩
      split at h
      · exact .inl h
      · obtain ⟨left, s2, hleft, h⟩ := bind_eq_ok.mp h
        obtain ⟨right, s3, hright, h⟩ := bind_eq_ok.mp h
        simp only [Run.ok.injEq] at h
        exact .inr ⟨left, right, s2, s3, hleft, hright, h.1.symm, h.2.symm⟩

/-- What a successful `ReadNode` with `k` nodes allocated before has done to the node memory (R221, R223): it holds a tree
with the indices from `r.1 = k` to `r.2` in preorder, and no other entry has changed. -/
structure ReadsTree (d k : Nat) (nodes : Vector Node nodeCap) (r : Nat × Nat) (nodes' : Vector Node nodeCap) : Prop where
  index : r.1 = k
  advances : k < r.2
  bounded : r.2 ≤ nodeCap
  tree : ∃ t, treeAt nodes' d k = some t ∧ t.indices = List.range' k (r.2 - k)
  entries : ∀ i, k ≤ i → i < r.2 → ∃ e, nodes'[i]? = some e ∧ EntryOk e
  kept : ∀ i, i < k ∨ r.2 ≤ i → nodes'[i]? = nodes[i]?

theorem readsTree_leaf {k : Nat} (d : Nat) (hk : k < nodeCap) (nodes : Vector Node nodeCap) {sym : Sym}
    (hs : sym.toNat ≤ 256) : ReadsTree (d + 1) k nodes (k, k + 1) (setNode k (leafNode sym 0#40) nodes) where
  index := rfl
  advances := by simp
  bounded := hk
  tree := ⟨.leaf k sym, treeAt_leaf d (getElem?_setNode_same hk _) rfl, by simp⟩
  entries := fun i h1 h2 => by
    obtain rfl : i = k := by simp at h2; omega
    exact ⟨_, getElem?_setNode_same hk _, entryOk_leafNode hs _⟩
  kept := fun i hi => getElem?_setNode_ne (by simp at hi; omega) _

theorem readsTree_node {d k : Nat} {nodes nodes2 nodes3 : Vector Node nodeCap} {left right : Nat × Nat}
    (hl : ReadsTree d (k + 1) nodes left nodes2) (hr : ReadsTree d left.2 nodes2 right nodes3) :
    ReadsTree (d + 1) k nodes (k, right.2)
      (setNode k (internalNode 0#40 (BitVec.ofNat 10 left.1) (BitVec.ofNat 10 right.1)) nodes3) := by
  have h1 := hl.advances
  have h2 := hr.advances
  have h3 := hr.bounded
  obtain ⟨l, hltree, hlindices⟩ := hl.tree
  obtain ⟨r, hrtree, hrindices⟩ := hr.tree
  have hk : k < nodeCap := by omega
  have hleft : (BitVec.ofNat 10 left.1).toNat = k + 1 := by
    rw [hl.index, BitVec.toNat_ofNat]; simp only [nodeCap] at h3; omega
  have hright : (BitVec.ofNat 10 right.1).toNat = left.2 := by
    rw [hr.index, BitVec.toNat_ofNat]; simp only [nodeCap] at h3; omega
  refine ⟨rfl, by simp; omega, h3, ⟨.node k l r, ?_, ?_⟩, ?_, ?_⟩
  · refine treeAt_node (getElem?_setNode_same hk _) rfl ?_ ?_
    · rw [internalNode, hleft]
      refine treeAt_transfer hltree le_rfl fun j hj => ?_
      rw [hlindices, List.mem_range'_1] at hj
      exact (getElem?_setNode_ne (by omega) _).trans (hr.kept j (by omega))
    · rw [internalNode, hright]
      refine treeAt_transfer hrtree le_rfl fun j hj => getElem?_setNode_ne ?_ _
      rw [hrindices, List.mem_range'_1] at hj
      omega
  · have happend := List.range'_append_1 (s := k + 1) (m := left.2 - (k + 1)) (n := right.2 - left.2)
    rw [Tree.indices_node, hlindices, hrindices, show right.2 - k = (left.2 - (k + 1) + (right.2 - left.2)) + 1 by omega,
      List.range'_succ, ← happend, show k + 1 + (left.2 - (k + 1)) = left.2 by omega]
  · intro i hi1 hi2
    by_cases hik : i = k
    · subst hik
      exact ⟨_, getElem?_setNode_same hk _, entryOk_internalNode _ _ _⟩
    · rw [getElem?_setNode_ne hik]
      by_cases hil : i < left.2
      · rw [hr.kept i (.inl hil)]
        exact hl.entries i (by omega) hil
      · exact hr.entries i (by omega) hi2
  · intro i hi
    simp only at hi
    rw [getElem?_setNode_ne (by omega), hr.kept i (by omega), hl.kept i (by omega)]

/-- R223, R224: `ReadNode` stores one full binary tree, numbered in preorder. -/
theorem readNode_readsTree : ∀ (d : Nat) {k : Nat} {s t : State} {r : Nat × Nat}, k ≤ nodeCap →
    readNode d k s = .ok r t → ReadsTree d k s.nodes r t.nodes
  | 0, k, s, t, r, hk, h => by simp [readNode] at h
  | d + 1, k, s, t, r, hk, h => by
    obtain ⟨hne, s1, hs1, hleaf | ⟨left, right, s2, s3, hleft, hright, rfl, rfl⟩⟩ := readNode_ok h
    · obtain ⟨sym, s2, hsym, hs2, rfl, rfl⟩ := readLeaf_ok hleaf
      rw [storeNode_nodes, hs2, hs1]
      exact readsTree_leaf d (by omega) _ hsym
    · have hl := hs1 ▸ readNode_readsTree d (by omega) hleft
      exact readsTree_node hl (readNode_readsTree d hl.bounded hright)

/-- READ_HEADER's last line (R221): the tree registers of a header that was read. -/
def setLoaded (r : Nat × Nat) (s : State) : State :=
  { s with nodeCount := BitVec.ofNat 10 r.2, root := BitVec.ofNat 10 r.1, treeValid := true, treeSrc := true }

theorem loadTree_eq (s : State) :
    loadTree s = (readNode nodeCap 0 s).bind fun r s' => .ok () (setLoaded r s') := rfl

/-- R224: a header that was read leaves one full binary tree in the node memory. -/
theorem setLoaded_fits {s s' : State} {r : Nat × Nat} (h : readNode nodeCap 0 s = .ok r s') :
    ∃ t, TreeFits (setLoaded r s') t := by
  have hr := readNode_readsTree nodeCap (Nat.zero_le _) h
  obtain ⟨t, htree, hindices⟩ := hr.tree
  have hbound := hr.bounded
  have hcount : (setLoaded r s').nodeCount.toNat = r.2 := by
    simp only [setLoaded, BitVec.toNat_ofNat, nodeCap] at hbound ⊢
    omega
  have hroot : (setLoaded r s').root.toNat = 0 := by simp [setLoaded, hr.index]
  have hrange : t.indices = List.range r.2 := by rw [hindices, Nat.sub_zero, List.range_eq_range']
  refine ⟨t, ⟨?_, ?_, ?_, nofun, fun _ => ⟨hroot, ?_⟩⟩⟩
  · rw [currentTree, hroot]
    exact htree
  · rw [hcount, hrange]
  · intro i hi hlt
    obtain ⟨e, he, hok⟩ := hr.entries i (Nat.zero_le _) (hcount ▸ hlt)
    exact (Vector.getElem?_eq_some_iff.mp he).2 ▸ hok
  · rw [hcount, hrange]

end Sys2Proof.Machine
end

section
/-! SUPPORT. Every command as its run, and what a run can do, said once: a sequence of elementary changes that the command is a
listed writer for. -/

namespace Sys2Proof.Machine

/-! ### The run of a command -/

/-- `perform c by its rule` (R109), before an error it raises is latched. -/
def commandRun : Instr → State → Run Unit
  | .nop, s => .ok () s
  | .errClear, s => .ok () (clearError s)
  | .softReset, s => .ok () (setResetValues s)
  | .srcRewind, s => .ok () (rewind s)
  | .outFlush, s => .ok () (flush s)
  | .histClear, s => .ok () (clearHist s)
  | .histCount b, s => countByte b s
  | .histCountStream, s => countStream s
  | .histRead b, s => .ok () { s with result := histAt s b }
  | .buildTree, s => .ok () (buildTree s)
  | .nodeRead n, s => .ok () { s with result := nodeWord n s }
  | .genCodes, s => genCodes s
  | .codeLen c, s => needCodes s fun s => .ok () { s with result := codeLenWord c s }
  | .codeBits c w, s => needCodes s fun s => .ok () { s with result := codeBitsWord c w s }
  | .emitHeader m, s => emitHeader m s
  | .encodeByte b, s => needCodes s (encodeSym (byteSym b))
  | .encodeEos, s => needCodes s (encodeSym eosSym)
  | .encodeStream, s => encodeStream s
  | .compress m, s => compress m s
  | .readHeader, s => readHeader s
  | .decodeSym, s => decodeSymbol s
  | .decodeStream, s => decodeStream s
  | .decompress, s => decompress s

/-- R109, R312: executing a command is its run, whose error is latched under the command's opcode byte. -/
theorem exec_eq_finish (i : Instr) (s : State) : exec i s = finish (opcodeOf i) (commandRun i s) := by
  cases i <;> rfl

/-! ### What a command can do -/

/-- One elementary change that a command makes to the state. Each carries the lists of writers that its command stands in (R34,
R36, R40, R42 to R45, R48, R73, R272), and the conditions under which it is made. -/
inductive Effect (i : Instr) : State → State → Prop where
  /-- The cursor is moved, within IN (R73 to R75). -/
  | cursor {s : State} {p : Nat} (w : movesCursor i = true) (h : p ≤ inBits s) : Effect i s { s with inPos := p }
  /-- Counters are written (R131 to R133). -/
  | count {s : State} (h : Vector Word byteValues) (w : writesHist i = true) : Effect i s { s with hist := h }
  /-- Bits are appended to OUT (R76, R77). -/
  | append {s : State} (bits : List Bool) (w : writesOut i = true) : Effect i s (appendOut bits s)
  /-- `RESULT` is set (R36). -/
  | result {s : State} (v : Word) (w : writesResult i = true) : Effect i s { s with result := v }
  /-- `RESULT` and `EOS` are set (R230). -/
  | symbol {s : State} (v : Word) (b : Bool) (w : writesResult i = true) (w' : writesEos i = true) :
      Effect i s { s with result := v, eos := b }
  /-- BUILD_TREE's work (R135). -/
  | build {s : State} (w : writesTree i = true) (w' : writesCodesValid i = true) : Effect i s (buildTree s)
  /-- GEN_CODES's work (R171). -/
  | genCodes {s : State} {codes : Vector CodeEntry symbolCount} (w : writesCodes i = true) (w' : writesCodesValid i = true)
      (hv : s.treeValid = true) (h : codeTable s.nodes s.root = .ok codes) :
      Effect i s { s with codes := codes, codesValid := true }
  /-- The first line of READ_HEADER (R221). -/
  | dropTree {s : State} (w : writesTree i = true) (w' : writesCodesValid i = true) (w'' : writesEos i = true) :
      Effect i s (invalidateTree s)
  /-- A node entry is stored while there is no tree (R221). -/
  | store {s : State} (k : Nat) (e : Node) (w : writesTree i = true) (hv : s.treeValid = false) (hc : s.codesValid = false) :
      Effect i s (storeNode k e s)
  /-- The last line of READ_HEADER (R221): the entries stored are a tree. -/
  | load {s : State} {t : Tree} {r : Nat × Nat} (w : writesTree i = true) (hc : s.codesValid = false)
      (h : TreeFits (setLoaded r s) t) : Effect i s (setLoaded r s)
  /-- SOFT_RESET's work (R272). -/
  | reset {s : State} (w : i = .softReset) : Effect i s (setResetValues s)
  /-- ERR_CLEAR's work (R271). -/
  | clearError {s : State} (w : i = .errClear) : Effect i s (clearError s)

/-- The elementary changes of a command, one after another. -/
abbrev Effects (i : Instr) : State → State → Prop := Relation.ReflTransGen (Effect i)

variable {i : Instr} {s : State}

theorem Effect.readBits {u : State} (w : movesCursor i = true) (k : Nat) : Effect i u (readBits k u).2 := by
  rw [readBits_state]
  refine .cursor w ?_
  unfold Machine.readBits
  split
  · exact le_rfl
  · simp only; omega

/-! The parts of commands, as changes from the state `s` in which the command began. -/

theorem effects_countStream (wc : movesCursor i = true) (wh : writesHist i = true) {u : State} (h : Effects i s u) :
    Run.All (Effects i s) (countStream u) :=
  all_countLoop (fun k _ h => h.tail (.readBits wc k)) (fun _ _ _ h => h.tail (.count _ wh)) _ _ h

theorem effects_encodeSym (wo : writesOut i = true) (sym : Sym) {u : State} (h : Effects i s u) :
    Run.All (Effects i s) (encodeSym sym u) :=
  all_encodeSym (fun bits _ h => h.tail (.append bits wo)) _ _ h

theorem effects_encodeStream (wc : movesCursor i = true) (wo : writesOut i = true) {u : State} (h : Effects i s u) :
    Run.All (Effects i s) (encodeStream u) :=
  all_needCodes h (all_bind
    (all_encodeLoop (fun k _ h => h.tail (.readBits wc k)) (fun bits _ h => h.tail (.append bits wo)) _ _ h)
    fun _ _ h => effects_encodeSym wo _ h)

theorem effects_genCodes (wc : writesCodes i = true) (wv : writesCodesValid i = true) {u : State} (h : Effects i s u) :
    Run.All (Effects i s) (genCodes u) := by
  by_cases hv : u.treeValid = true
  · rw [genCodes, needTree_valid hv]
    split
    · trivial
    · next hcodes => exact h.tail (.genCodes wc wv hv hcodes)
  · rw [genCodes, needTree_invalid (by simpa using hv)]
    exact h

theorem effects_writeHeader (wo : writesOut i = true) (magic : Word) {u : State} (h : Effects i s u) :
    Run.All (Effects i s) (writeHeader magic u) := by
  refine all_needTree h ?_
  split
  · trivial
  · exact (h.tail (.append _ wo)).tail (.append _ wo)

theorem effects_compressTree (wc : movesCursor i = true) (wh : writesHist i = true) (wt : writesTree i = true)
    (wcodes : writesCodes i = true) (wv : writesCodesValid i = true) (wo : writesOut i = true) (magic : Word) :
    Run.All (Effects i s) (compressTree magic s) := by
  have hrewind {u : State} (h : Effects i s u) : Effects i s (rewind u) := h.tail (.cursor wc (Nat.zero_le _))
  refine all_bind (effects_countStream wc wh ((hrewind .refl).tail (.count _ wh))) fun _ u h => ?_
  refine all_bind (effects_genCodes wcodes wv (h.tail (.build wt wv))) fun _ u h => ?_
  refine all_bind (effects_writeHeader wo magic h) fun _ u h => ?_
  exact all_bind (effects_encodeStream wc wo (hrewind h)) fun _ u h => h.tail (.append _ wo)

/-- The state of READ_HEADER while it reads the nodes: no tree, no codes (R221). -/
structure Untreed (i : Instr) (s u : State) : Prop where
  effects : Effects i s u
  noTree : u.treeValid = false
  noCodes : u.codesValid = false

theorem Untreed.readBits {u : State} (wc : movesCursor i = true) (k : Nat) (h : Untreed i s u) :
    Untreed i s (readBits k u).2 where
  effects := h.effects.tail (.readBits wc k)
  noTree := by rw [readBits_state]; exact h.noTree
  noCodes := by rw [readBits_state]; exact h.noCodes

theorem Untreed.storeNode {u : State} (wt : writesTree i = true) (k : Nat) (e : Node) (h : Untreed i s u) :
    Untreed i s (storeNode k e u) where
  effects := h.effects.tail (.store k e wt h.noTree h.noCodes)
  noTree := h.noTree
  noCodes := h.noCodes

theorem effects_loadTree (wc : movesCursor i = true) (wt : writesTree i = true) {u : State} (h : Untreed i s u) :
    Run.All (Effects i s) (loadTree u) := by
  have hall := all_readNode (fun k _ h => Untreed.readBits wc k h) (fun k e _ h => h.storeNode wt k e) nodeCap 0 u h
  rw [loadTree_eq]
  cases hread : readNode nodeCap 0 u with
  | ok r t =>
    rw [hread] at hall
    obtain ⟨tree, hfits⟩ := setLoaded_fits hread
    exact hall.effects.tail (.load wt hall.noCodes hfits)
  | raised e t =>
    rw [hread] at hall
    exact hall.effects
  | stuck f => trivial

theorem effects_readHeaderWith (wc : movesCursor i = true) (wt : writesTree i = true) (wv : writesCodesValid i = true)
    (we : writesEos i = true) (magicTree magicCounts : Word) {u : State} (h : Effects i s u) :
    Run.All (Effects i s) (readHeaderWith magicTree magicCounts u) := by
  have hread := Untreed.readBits wc 32 ⟨h.tail (.dropTree wt wv we), rfl, rfl⟩
  unfold readHeaderWith
  split
  · next heq => rw [heq] at hread; exact hread.effects
  · next heq =>
    rw [heq] at hread
    split
    · exact hread.effects
    · split
      · exact effects_loadTree wc wt hread
      · exact hread.effects

theorem effects_decodeOne (wc : movesCursor i = true) (wo : writesOut i = true) (wr : writesResult i = true)
    (we : writesEos i = true) {u : State} (h : Effects i s u) : Run.All (Effects i s) (decodeOne u) :=
  all_decodeOne (fun k _ h => h.tail (.readBits wc k)) (fun _ h => h.tail (.cursor wc le_rfl))
    (fun bits _ h => h.tail (.append bits wo)) (fun v b _ h => h.tail (.symbol v b wr we)) _ h

theorem effects_decodeStream (wc : movesCursor i = true) (wo : writesOut i = true) (wr : writesResult i = true)
    (we : writesEos i = true) {u : State} (h : Effects i s u) : Run.All (Effects i s) (decodeStream u) :=
  all_needTree h (all_decodeLoop (fun k _ h => h.tail (.readBits wc k)) (fun _ h => h.tail (.cursor wc le_rfl))
    (fun bits _ h => h.tail (.append bits wo)) (fun v b _ h => h.tail (.symbol v b wr we)) _ _ h)

/-- R18: a command's run is a sequence of elementary changes that the command is a listed writer for. -/
theorem effects_commandRun (i : Instr) (s : State) : Run.All (Effects i s) (commandRun i s) := by
  cases i with
  | nop => exact .refl
  | errClear => exact .single (.clearError rfl)
  | softReset => exact .single (.reset rfl)
  | srcRewind => exact .single (.cursor rfl (Nat.zero_le _))
  | outFlush => exact .single (.append _ rfl)
  | histClear => exact .single (.count _ rfl)
  | histCount b =>
    simp only [commandRun, countByte]
    split
    · exact .refl
    · exact .single (.count _ rfl)
  | histCountStream => exact effects_countStream rfl rfl .refl
  | histRead b => exact .single (.result _ rfl)
  | buildTree => exact .single (.build rfl rfl)
  | nodeRead n => exact .single (.result _ rfl)
  | genCodes => exact effects_genCodes rfl rfl .refl
  | codeLen c =>
    rw [commandRun]
    exact all_needCodes .refl (.single (.result _ rfl))
  | codeBits c w =>
    rw [commandRun]
    exact all_needCodes .refl (.single (.result _ rfl))
  | emitHeader m =>
    cases m with
    | tree => exact effects_writeHeader rfl _ .refl
    | counts => exact .refl
  | encodeByte b => exact all_needCodes .refl (effects_encodeSym rfl _ .refl)
  | encodeEos => exact all_needCodes .refl (effects_encodeSym rfl _ .refl)
  | encodeStream => exact effects_encodeStream rfl rfl .refl
  | compress m =>
    cases m with
    | tree => exact effects_compressTree rfl rfl rfl rfl rfl rfl _
    | counts => exact .refl
  | readHeader => exact effects_readHeaderWith rfl rfl rfl rfl _ _ .refl
  | decodeSym =>
    rw [commandRun, decodeSymbol]
    exact all_needTree .refl (all_bind (effects_decodeOne rfl rfl rfl rfl .refl) fun _ _ h => h)
  | decodeStream => exact effects_decodeStream rfl rfl rfl rfl .refl
  | decompress =>
    exact all_bind (effects_readHeaderWith rfl rfl rfl rfl _ _ (.single (.cursor rfl (Nat.zero_le _))))
      fun _ _ h => effects_decodeStream rfl rfl rfl rfl h

/-- What every command does: elementary changes that it is a listed writer for, then an error it raised is latched. -/
theorem exec_effects {t : State} (h : exec i s = .next t) :
    ∃ u, Effects i s u ∧ (t = u ∨ ∃ e, t = latchError e (opcodeOf i) u) := by
  have hall := effects_commandRun i s
  rw [exec_eq_finish] at h
  rcases finish_next h with hrun | ⟨e, u, hrun, rfl⟩
  · exact ⟨t, (hrun ▸ hall :), .inl rfl⟩
  · exact ⟨u, (hrun ▸ hall :), .inr ⟨e, rfl⟩⟩

end Sys2Proof.Machine
end

section
/-! PROOFS. The frame of every command, and the invariants of 10_state.md section 7, from the elementary changes. -/

namespace Sys2Proof.Machine

/-! ### What a command leaves unchanged -/

/-- A piece of state has its old value unless the command is a listed writer of it. -/
def Keeps {α : Type} (writes : Bool) (old new : α) : Prop := writes = true ∨ new = old

theorem Keeps.refl {α : Type} (w : Bool) (x : α) : Keeps w x x := .inr rfl

theorem Keeps.trans {α : Type} {w : Bool} {x y z : α} (h : Keeps w x y) (h' : Keeps w y z) : Keeps w x z := by
  rcases h with h | rfl
  · exact .inl h
  · exact h'

theorem Keeps.writes_of_ne {α : Type} {w : Bool} {x y : α} (h : Keeps w x y) (hne : y ≠ x) : w = true :=
  h.resolve_right hne

/-- The node memory and the tree registers (R42). -/
def treeState (s : State) := (s.nodes, s.nodeCount, s.root, s.treeValid, s.treeSrc)

/-- What no command changes: IN (R47), `BUSY` and `PENDING` (R32), and the model's own fields. -/
def hostState (s : State) := (s.input, s.busy, s.pending, s.turns, s.seen, s.draws)

/-- The frame of a command (R34, R36, R40, R42 to R45, R47, R48, R73). -/
structure Frame (i : Instr) (s t : State) : Prop where
  hist : Keeps (writesHist i) s.hist t.hist
  tree : Keeps (writesTree i) (treeState s) (treeState t)
  codes : Keeps (writesCodes i) s.codes t.codes
  codesValid : Keeps (writesCodesValid i) s.codesValid t.codesValid
  result : Keeps (writesResult i) s.result t.result
  eos : Keeps (writesEos i) s.eos t.eos
  inPos : Keeps (movesCursor i) s.inPos t.inPos
  out : Keeps (writesOut i) s.out t.out
  ovr : Keeps (runsWhileLatched i) s.ovr t.ovr
  host : hostState t = hostState s
  grows : s.out <+: t.out

theorem Frame.refl (i : Instr) (s : State) : Frame i s s :=
  ⟨.refl _ _, .refl _ _, .refl _ _, .refl _ _, .refl _ _, .refl _ _, .refl _ _, .refl _ _, .refl _ _, rfl, List.prefix_rfl⟩

variable {i : Instr} {s t u : State}

theorem Frame.trans (h : Frame i s t) (h' : Frame i t u) : Frame i s u where
  hist := h.hist.trans h'.hist
  tree := h.tree.trans h'.tree
  codes := h.codes.trans h'.codes
  codesValid := h.codesValid.trans h'.codesValid
  result := h.result.trans h'.result
  eos := h.eos.trans h'.eos
  inPos := h.inPos.trans h'.inPos
  out := h.out.trans h'.out
  ovr := h.ovr.trans h'.ovr
  host := h'.host.trans h.host
  grows := h.grows.trans h'.grows

/-- An elementary change changes only what its command is a listed writer of. -/
theorem Effect.frame (h : Effect i s t) : Frame i s t := by
  cases h with
  | cursor w _ => exact { Frame.refl i s with inPos := .inl w }
  | count _ w => exact { Frame.refl i s with hist := .inl w }
  | append bits w => exact { Frame.refl i s with out := .inl w, grows := List.prefix_append _ _ }
  | result _ w => exact { Frame.refl i s with result := .inl w }
  | symbol _ _ w w' => exact { Frame.refl i s with result := .inl w, eos := .inl w' }
  | build w w' => exact { Frame.refl i s with tree := .inl w, codesValid := .inl w' }
  | genCodes w w' _ _ => exact { Frame.refl i s with codes := .inl w, codesValid := .inl w' }
  | dropTree w w' w'' => exact { Frame.refl i s with tree := .inl w, codesValid := .inl w', eos := .inl w'' }
  | store _ _ w _ _ => exact { Frame.refl i s with tree := .inl w }
  | load w _ _ => exact { Frame.refl i s with tree := .inl w }
  | reset w =>
    subst w
    exact { Frame.refl .softReset s with
      hist := .inl rfl, tree := .inl rfl, codesValid := .inl rfl, result := .inl rfl, eos := .inl rfl, inPos := .inl rfl,
      ovr := .inl rfl }
  | clearError w =>
    subst w
    exact { Frame.refl .errClear s with ovr := .inl rfl }

theorem Effects.frame (h : Effects i s t) : Frame i s t := by
  induction h with
  | refl => exact .refl i s
  | tail _ he ih => exact ih.trans he.frame

/-- Every command keeps its frame; latching an error changes the error registers only (R312). -/
theorem exec_frame (h : exec i s = .next t) : Frame i s t := by
  obtain ⟨u, hu, rfl | ⟨e, rfl⟩⟩ := exec_effects h
  · exact hu.frame
  · exact { hu.frame with }

/-- R313: the commands that run while an error is latched. -/
theorem runsWhileLatched_iff : runsWhileLatched i = true ↔ i = .errClear ∨ i = .softReset := by
  cases i <;> simp [runsWhileLatched]

/-- Settles O55: each piece of state stands in the frame of every command under the list of its writers. -/
theorem onlyTheseCommandsWrite : Obligations.OnlyTheseCommandsWrite := by
  intro i s t h
  have hf := exec_frame h
  refine ⟨hf.hist.writes_of_ne, fun hne => hf.tree.writes_of_ne fun heq => ?_, hf.codes.writes_of_ne,
    hf.codesValid.writes_of_ne, hf.result.writes_of_ne, hf.eos.writes_of_ne, hf.inPos.writes_of_ne, hf.out.writes_of_ne,
    fun hne => runsWhileLatched_iff.mp (hf.ovr.writes_of_ne hne)⟩
  simp only [treeState, Prod.mk.injEq] at heq
  tauto

/-- Settles O56: IN and the host's side are in the frame of every command, and OUT only grows. -/
theorem commandsOnlyAppendToOut : Obligations.CommandsOnlyAppendToOut := by
  intro i s t h
  have hf := exec_frame h
  have hhost := hf.host
  simp only [hostState, Prod.mk.injEq] at hhost
  obtain ⟨hinput, hbusy, hpending, hturns, hseen, hdraws⟩ := hhost
  exact ⟨hinput, hf.grows, hbusy, hpending, hturns, hseen, hdraws⟩

/-! ### Invariants of every step -/

/-- A property that every transition keeps: it does not depend on the latch, `OVR`, OUT and the model's own fields, and
LOAD_IN, a latched error and every elementary change of a command keep it. -/
structure Invariant (P : State → Prop) : Prop where
  control : ∀ (s : State) (busy : Bool) (pending : Word) (ovr : Bool) (out : List Bool) (turns : List Turn) (seen : List Seen)
    (draws : Nat), P s →
    P { s with busy := busy, pending := pending, ovr := ovr, out := out, turns := turns, seen := seen, draws := draws }
  load : ∀ (bytes : List Byte) (s : State), P s → P (loadIn bytes s)
  latch : ∀ (e : ErrorKind) (opc : Byte) (s : State), P s → P (latchError e opc s)
  effect : ∀ (i : Instr) (s t : State), Effect i s t → P s → P t

variable {P : State → Prop}

theorem Invariant.effects (hP : Invariant P) (hs : P s) (h : Effects i s t) : P t := by
  induction h with
  | refl => exact hs
  | tail _ he ih => exact hP.effect i _ _ he ih

theorem Invariant.exec (hP : Invariant P) (hs : P s) (h : exec i s = .next t) : P t := by
  obtain ⟨u, hu, rfl | ⟨e, rfl⟩⟩ := exec_effects h
  · exact hP.effects hs hu
  · exact hP.latch e _ u (hP.effects hs hu)

/-- R109: executing a word is executing its command, or latching ILLEGAL_CMD, or nothing. -/
theorem execute_next {w : Word} (h : execute w s = .next t) :
    (∃ i, exec i s = .next t) ∨ t = latchError .illegalCmd (opcodeByte w) s ∨ t = s := by
  unfold execute at h
  split at h
  · split at h
    · exact .inl ⟨_, h⟩
    · exact .inr (.inr (Host.Outcome.next.inj h).symm)
  · split at h
    · exact .inr (.inl (Host.Outcome.next.inj h).symm)
    · exact .inr (.inr (Host.Outcome.next.inj h).symm)

/-- R32: the engine's step is an execution, and `BUSY` is 0 after it; or the block was idle. -/
theorem engineStep_next (h : engineStep s = .next t) :
    (s.busy = true ∧ ∃ u, execute s.pending s = .next u ∧ t = { u with busy := false }) ∨ (s.busy = false ∧ t = s) := by
  unfold engineStep at h
  split at h
  · next hb =>
    cases hx : execute s.pending s with
    | next u => exact .inl ⟨hb, u, rfl, by simpa [hx, clearBusy] using h.symm⟩
    | fault f => simp [hx, clearBusy] at h
    | refused r => simp [hx, clearBusy] at h
  · next hb => exact .inr ⟨by simpa using hb, (Host.Outcome.next.inj h).symm⟩

theorem Invariant.engineStep (hP : Invariant P) (hs : P s) (h : engineStep s = .next t) : P t := by
  obtain ⟨-, u, hx, rfl⟩ | ⟨-, rfl⟩ := engineStep_next h
  · refine hP.control u _ _ _ _ _ _ _ ?_
    obtain ⟨i, hi⟩ | rfl | rfl := execute_next hx
    · exact hP.exec hs hi
    · exact hP.latch _ _ s hs
    · exact hs
  · exact hs

theorem whileIdle_next (h : whileIdle s u = .next t) : s.busy = false ∧ t = u := by
  unfold whileIdle at h
  split at h
  · simp at h
  · next hb => exact ⟨by simpa using hb, (Host.Outcome.next.inj h).symm⟩

theorem Invariant.hostStep (hP : Invariant P) (hs : P s) {a : HostAction} (h : hostStep a s = .next t) : P t := by
  cases a with
  | write r v =>
    obtain rfl := Host.Outcome.next.inj h
    unfold writeRegister writeCmd
    split
    · split
      · exact hP.control s _ _ _ _ _ _ _ hs
      · exact hP.control s _ _ _ _ _ _ _ hs
    · exact hs
  | read r =>
    obtain rfl := Host.Outcome.next.inj h
    exact hP.control s _ _ _ _ _ _ _ hs
  | loadIn bytes =>
    obtain ⟨-, rfl⟩ := whileIdle_next h
    exact hP.load bytes s hs
  | drainOut =>
    obtain ⟨-, rfl⟩ := whileIdle_next h
    exact hP.control s _ _ _ _ _ _ _ hs
  | hwReset =>
    obtain rfl := Host.Outcome.next.inj h
    exact hP.control (setResetValues s) _ _ _ _ _ _ _ (hP.effect .softReset s _ (.reset rfl) hs)
  | wait =>
    obtain rfl := Host.Outcome.next.inj h
    unfold hostWait
    split
    · exact hP.control s _ _ _ _ _ _ _ hs
    · exact hP.control s _ _ _ _ _ _ _ hs
  | check =>
    obtain rfl := Host.Outcome.next.inj h
    unfold hostCheck
    split
    · exact hP.control s _ _ _ _ _ _ _ hs
    · exact hP.control s _ _ _ _ _ _ _ hs

/-- R32, R83: every step keeps such a property. -/
theorem Invariant.step (hP : Invariant P) (hs : P s) (h : step s = .next t) : P t := by
  unfold Machine.step nextTurn at h
  split at h
  · exact hP.engineStep hs h
  · exact hP.engineStep (hP.control s _ _ _ _ _ _ _ hs) h
  · exact hP.hostStep (hP.control s _ _ _ _ _ _ _ hs) h

/-! ### The invariants of R51 -/

theorem registersOk_effect (h : Effect i s t) (hs : RegistersOk s) : RegistersOk t := by
  cases h with
  | cursor _ hp => exact { hs with cursor := hp }
  | count _ _ => exact { hs with }
  | append _ _ => exact { hs with }
  | result _ _ => exact { hs with }
  | symbol _ _ _ _ => exact { hs with }
  | build _ _ =>
    obtain ⟨tr, hfits, -⟩ := buildTree_fits s
    obtain ⟨hpos, hcap⟩ := hfits.nodeCount_range
    exact { hs with treeCount := ⟨fun _ => hpos, fun _ => rfl⟩, countRange := hcap, codesNeedTree := nofun }
  | genCodes _ _ hv _ => exact { hs with codesNeedTree := fun _ => hv }
  | dropTree _ _ _ => exact { hs with treeCount := by simp, countRange := by simp, codesNeedTree := nofun }
  | store _ _ _ _ _ => exact { hs with }
  | load _ hc hfits =>
    obtain ⟨hpos, hcap⟩ := hfits.nodeCount_range
    exact { hs with treeCount := ⟨fun _ => hpos, fun _ => rfl⟩, countRange := hcap, codesNeedTree := fun _ => rfl }
  | reset _ =>
    exact ⟨by simp, by simp, nofun, fun _ => rfl, by simp, Nat.zero_le _⟩
  | clearError _ => exact { hs with noErrorNoOpcode := fun _ => rfl, errorRange := by simp }

theorem registersOk_latchError (e : ErrorKind) (opc : Byte) (hs : RegistersOk s) : RegistersOk (latchError e opc s) :=
  have hcode := errorCode_range e
  { hs with
    noErrorNoOpcode := fun h => by
      have h0 : (errorCode e).toNat = 0 := congrArg BitVec.toNat h
      omega
    errorRange := hcode.2 }

theorem registersOk_invariant : Invariant RegistersOk where
  control _ _ _ _ _ _ _ _ hs := { hs with }
  load _ _ hs := { hs with cursor := Nat.zero_le _ }
  latch e opc _ hs := registersOk_latchError e opc hs
  effect _ _ _ := registersOk_effect

/-- Settles O12: each transition keeps the register invariants; a tree, built or loaded, has 1 to 513 nodes. -/
theorem stepKeepsRegistersOk : Obligations.StepKeepsRegistersOk :=
  fun _ _ hs h => registersOk_invariant.step hs h

theorem treeOk_congr (hs : TreeOk s) (h : treeState t = treeState s) : TreeOk t := by
  simp only [treeState, Prod.mk.injEq] at h
  obtain ⟨hnodes, hcount, hroot, hvalid, hsrc⟩ := h
  intro hv
  obtain ⟨tr, hfits⟩ := hs (hvalid ▸ hv)
  exact ⟨tr, hfits.congr hnodes hcount hroot hsrc⟩

theorem treeOk_effect (h : Effect i s t) (hs : TreeOk s) : TreeOk t := by
  cases h with
  | cursor _ _ => exact treeOk_congr hs rfl
  | count _ _ => exact treeOk_congr hs rfl
  | append _ _ => exact treeOk_congr hs rfl
  | result _ _ => exact treeOk_congr hs rfl
  | symbol _ _ _ _ => exact treeOk_congr hs rfl
  | build _ _ =>
    obtain ⟨tr, hfits, -⟩ := buildTree_fits s
    exact fun _ => ⟨tr, hfits⟩
  | genCodes _ _ _ _ => exact treeOk_congr hs rfl
  | dropTree _ _ _ => exact nofun
  | store _ _ _ hv _ => exact fun hv' => absurd hv' (by simp [hv])
  | load _ _ hfits => exact fun _ => ⟨_, hfits⟩
  | reset _ => exact nofun
  | clearError _ => exact treeOk_congr hs rfl

theorem treeOk_invariant : Invariant TreeOk where
  control _ _ _ _ _ _ _ _ hs := treeOk_congr hs rfl
  load _ _ hs := treeOk_congr hs rfl
  latch _ _ _ hs := treeOk_congr hs rfl
  effect _ _ _ := treeOk_effect

/-- Settles O13: a transition that leaves `TREE_VALID = 1` keeps the tree, or builds or loads one. -/
theorem stepKeepsTreeOk : Obligations.StepKeepsTreeOk :=
  fun _ _ hs h => treeOk_invariant.step hs h

/-- `CODES_VALID`, and what GEN_CODES reads and writes (R44, R171). -/
def codesState (s : State) := (s.codesValid, s.nodes, s.root, s.codes)

theorem codesOk_congr (hs : CodesOk s) (h : codesState t = codesState s) : CodesOk t := by
  simp only [codesState, Prod.mk.injEq] at h
  obtain ⟨hvalid, hnodes, hroot, hcodes⟩ := h
  simpa only [CodesOk, hvalid, hnodes, hroot, hcodes] using hs

theorem codesOk_effect (h : Effect i s t) (hs : CodesOk s) : CodesOk t := by
  cases h with
  | cursor _ _ => exact codesOk_congr hs rfl
  | count _ _ => exact codesOk_congr hs rfl
  | append _ _ => exact codesOk_congr hs rfl
  | result _ _ => exact codesOk_congr hs rfl
  | symbol _ _ _ _ => exact codesOk_congr hs rfl
  | build _ _ => exact nofun
  | genCodes _ _ _ hcodes => exact fun _ => hcodes
  | dropTree _ _ _ => exact nofun
  | store _ _ _ _ hc => exact fun hc' => absurd hc' (by simp [hc])
  | load _ hc _ => exact fun hc' => absurd hc' (by simp [setLoaded, hc])
  | reset _ => exact nofun
  | clearError _ => exact codesOk_congr hs rfl

theorem codesOk_invariant : Invariant CodesOk where
  control _ _ _ _ _ _ _ _ hs := codesOk_congr hs rfl
  load _ _ hs := codesOk_congr hs rfl
  latch _ _ _ hs := codesOk_congr hs rfl
  effect _ _ _ := codesOk_effect

/-- Settles O14: a transition that leaves `CODES_VALID = 1` keeps the tree and the codes, or is GEN_CODES. -/
theorem stepKeepsCodesOk : Obligations.StepKeepsCodesOk :=
  fun _ _ hs h => codesOk_invariant.step hs h

end Sys2Proof.Machine
end

section
/-! PROOFS. The next turn, the executed command, the state after power-on, and the registers. -/

namespace Sys2Proof.Machine

/-! ### Which transition a step is -/

theorem step_of_noTurns {s : State} (h : s.turns = []) : step s = engineStep s := by
  simp [step, nextTurn, h]

theorem step_of_engineTurn {s : State} {rest : List Turn} (h : s.turns = .engine :: rest) :
    step s = engineStep { s with turns := rest } := by
  simp [step, nextTurn, h]

theorem step_of_hostTurn {s : State} {a : HostAction} {rest : List Turn} (h : s.turns = .host a :: rest) :
    step s = hostStep a { s with turns := rest } := by
  simp [step, nextTurn, h]

theorem engineStep_idle {s : State} (h : s.busy = false) : engineStep s = .next s := by
  simp [engineStep, h]

theorem engineStep_busy {s : State} (h : s.busy = true) : engineStep s = clearBusy (execute s.pending s) := by
  simp [engineStep, h]

/-- Settles O7: the three forms of the list of turns, and the idle block. -/
theorem stepTakesTheNextTurn : Obligations.StepTakesTheNextTurn :=
  ⟨fun _ => step_of_noTurns, fun _ _ => step_of_engineTurn, fun _ _ _ => step_of_hostTurn,
    fun _ hb ht => (step_of_noTurns ht).trans (engineStep_idle hb)⟩

/-- R109, R313: a command that no latched error blocks is executed. -/
theorem execute_command {s : State} {w : Word} {i : Instr} (hd : decode w = .command i)
    (h : s.errCode = 0#4 ∨ i = .errClear ∨ i = .softReset) : execute w s = exec i s := by
  have hruns : s.errCode = 0#4 ∨ runsWhileLatched i = true := h.imp_right runsWhileLatched_iff.mpr
  simp [execute, hd, hruns]

/-- Settles O8: with no turn listed the state is its own rest, so both forms are the engine's step after the turn. -/
theorem stepExecutesTheDecodedCommand : Obligations.StepExecutesTheDecodedCommand := by
  intro s i rest hb hd herr hturns
  have hstep : step s = engineStep { s with turns := rest } := by
    rcases hturns with h | ⟨h, rfl⟩
    · exact step_of_engineTurn h
    · exact (step_of_noTurns h).trans (congrArg (fun l => engineStep { s with turns := l }) h)
  have hexec : step s = clearBusy (exec i { s with turns := rest }) := by
    rw [hstep, engineStep_busy (s := { s with turns := rest }) hb,
      execute_command (s := { s with turns := rest }) hd herr]
  exact ⟨fun t ht => by rw [hexec, ht]; rfl, fun f hf => by rw [hexec, hf]; rfl⟩

/-! ### Power-on -/

theorem readRegister_reset (r : BitVec 4) : readRegister r State.reset = 0#32 := by
  unfold readRegister
  split <;> decide

/-- Settles O10: the values of R52, the registers, and what a later reset keeps. -/
theorem powerOnState : Obligations.PowerOnState := by
  refine ⟨rfl, fun b => ?_, rfl, rfl, rfl, rfl, rfl, rfl, rfl, rfl, rfl, rfl, rfl, rfl, rfl, readRegister_reset,
    fun s => ⟨rfl, rfl, rfl, rfl⟩⟩
  simp [histAt, State.reset]

/-- Settles O11: there is no tree and there are no codes after power-on, so only the registers matter. -/
theorem powerOnMeetsInvariants : Obligations.PowerOnMeetsInvariants :=
  ⟨⟨by decide, by decide, nofun, fun _ => rfl, by decide, Nat.zero_le _⟩, nofun, nofun⟩

/-! ### The registers -/

/-- R34: the flags of `STATUS`, from bit 0 up. -/
theorem getLsbD_statusWord (s : State) : (statusWord s).getLsbD 0 = s.busy ∧ (statusWord s).getLsbD 1 = errFlag s ∧
    (statusWord s).getLsbD 2 = s.ovr ∧ (statusWord s).getLsbD 3 = s.treeValid ∧ (statusWord s).getLsbD 4 = s.codesValid ∧
    (statusWord s).getLsbD 5 = s.eos ∧ (statusWord s).getLsbD 6 = s.treeSrc ∧ (statusWord s).getLsbD 7 = false := by
  have low {w : Nat} (x : BitVec w) (b : Bool) := (getLsbD_append_ofBool x b 0).1
  have high {w : Nat} (x : BitVec w) (b : Bool) (k : Nat) := (getLsbD_append_ofBool x b k).2
  simp only [statusWord, low, high, true_and]
  exact low _ false

/-- A field of the high part of a word put together from two parts. -/
theorem extractLsb'_append_add (v : Nat) {w : Nat} (x : BitVec w) (y : BitVec v) (k n : Nat) :
    (x ++ y).extractLsb' (k + v) n = x.extractLsb' k n := by
  rw [BitVec.extractLsb'_append_eq_of_le (Nat.le_add_left v k), Nat.add_sub_cancel]

/-- The low part of a word put together from two parts. -/
theorem extractLsb'_append_zero (v : Nat) {w : Nat} (x : BitVec w) (y : BitVec v) : (x ++ y).extractLsb' 0 v = y :=
  BitVec.extractLsb'_append_eq_right

/-- R34: the fields of `STATUS` above its flags. -/
theorem extractLsb'_statusWord (s : State) : (statusWord s).extractLsb' 8 4 = s.errCode ∧
    (statusWord s).extractLsb' 12 4 = 0#4 ∧ (statusWord s).extractLsb' 16 8 = s.errOpc ∧
    (statusWord s).extractLsb' 24 8 = 0#8 := by
  simp [statusWord, extractLsb'_append_add 1, extractLsb'_append_add 4, extractLsb'_append_add 8,
    extractLsb'_append_zero 4, extractLsb'_append_zero 8]

/-- R37: the fields of `TREE_INFO`. -/
theorem extractLsb'_treeInfoWord (s : State) : (treeInfoWord s).extractLsb' 0 10 = s.nodeCount ∧
    (treeInfoWord s).extractLsb' 10 6 = 0#6 ∧ (treeInfoWord s).extractLsb' 16 10 = s.root ∧
    (treeInfoWord s).extractLsb' 26 6 = 0#6 := by
  simp [treeInfoWord, extractLsb'_append_add 10, extractLsb'_append_add 6, extractLsb'_append_zero 10,
    extractLsb'_append_zero 6]

/-- Settles O20: each register by its own lemma; lengths are shown modulo 2^32 (R38). -/
theorem registerValues : Obligations.RegisterValues := by
  intro s
  obtain ⟨hbusy, herr, hflags⟩ := getLsbD_statusWord s
  obtain ⟨hovr, htree, hcodes, heos, hsrc, hzero⟩ := hflags
  have hflag : (statusWord s).getLsbD 1 = true ↔ s.errCode ≠ 0#4 := by
    rw [herr]
    exact bne_iff_ne
  exact ⟨rfl, rfl, BitVec.toNat_ofNat _ _, BitVec.toNat_ofNat _ _, BitVec.toNat_ofNat _ _, extractLsb'_treeInfoWord s,
    hbusy, hflag, hovr, htree, hcodes, heos, hsrc, hzero, extractLsb'_statusWord s⟩

end Sys2Proof.Machine
end

section
/-! SUPPORT. What the code table, the header and BUILD_TREE do not depend on: weights, and entries no node of the tree reaches. -/

namespace Sys2Proof.Machine

/-! ### Trees that agree but for weights -/

variable {nodes nodes' : Vector Node nodeCap}

/-- Below index `m` two node memories are equal but for weights. -/
def NodesAlike (m : Nat) (nodes nodes' : Vector Node nodeCap) : Prop :=
  ∀ i, ∀ h : i < nodeCap, i < m → { nodes[i] with weight := 0#40 } = { nodes'[i] with weight := 0#40 }

theorem nodesAlike_of_eq {m : Nat} (h : ∀ i, i < m → nodes[i]? = nodes'[i]?) : NodesAlike m nodes nodes' := by
  intro i hi hm
  have := h i hm
  simp only [Vector.getElem?_eq_getElem hi, Option.some.injEq] at this
  rw [this]

/-- Two node memories that agree below index `m` but for weights, where no node below `m` has a child above. -/
structure SameTree (m : Nat) (nodes nodes' : Vector Node nodeCap) : Prop where
  bounded : m ≤ nodeCap
  alike : NodesAlike m nodes nodes'
  closed : ∀ i e, i < m → nodes[i]? = some e → e.leaf = false → e.left.toNat < m ∧ e.right.toNat < m

/-- The children of a tree's node are in the tree. -/
theorem treeAt_closed {d i : Nat} {t : Tree} (h : treeAt nodes d i = some t) {j : Nat} {e : Node} (hj : j ∈ t.indices)
    (he : nodes[j]? = some e) (hl : e.leaf = false) : e.left.toNat ∈ t.indices ∧ e.right.toNat ∈ t.indices := by
  induction d generalizing i t with
  | zero => simp [treeAt] at h
  | succ d ih =>
    obtain ⟨e', he', ⟨hl', rfl⟩ | ⟨-, l, r, hleft, hright, rfl⟩⟩ := treeAt_step h
    · obtain rfl := List.mem_singleton.mp hj
      obtain rfl := Option.some.inj (he.symm.trans he')
      exact absurd hl' (by simp [hl])
    · simp only [Tree.indices_node, List.mem_cons, List.mem_append] at hj ⊢
      rcases hj with rfl | hj | hj
      · obtain rfl := Option.some.inj (he.symm.trans he')
        exact ⟨.inr (.inl (treeAt_index hleft ▸ l.index_mem_indices)),
          .inr (.inr (treeAt_index hright ▸ r.index_mem_indices))⟩
      · obtain ⟨h1, h2⟩ := ih hleft hj
        exact ⟨.inr (.inl h1), .inr (.inl h2)⟩
      · obtain ⟨h1, h2⟩ := ih hright hj
        exact ⟨.inr (.inr h1), .inr (.inr h2)⟩

variable {m : Nat}

/-- R42: a state's tree, and a node memory like the state's. -/
theorem sameTree_of_treeFits {s : State} {t : Tree} (h : TreeFits s t) (ha : NodesAlike s.nodeCount.toNat s.nodes nodes') :
    SameTree s.nodeCount.toNat s.nodes nodes' where
  bounded := h.nodeCount_range.2
  alike := ha
  closed i e hi he hl := by
    have hmem : ∀ j, j ∈ t.indices ↔ j < s.nodeCount.toNat := fun j => h.exact.mem_iff.trans List.mem_range
    obtain ⟨hleft, hright⟩ := treeAt_closed h.rooted ((hmem i).mpr hi) he hl
    exact ⟨(hmem _).mp hleft, (hmem _).mp hright⟩

/-- R42: the root is one of the nodes. -/
theorem root_lt_of_treeFits {s : State} {t : Tree} (h : TreeFits s t) : s.root.toNat < s.nodeCount.toNat := by
  have hroot := h.exact.mem_iff.mp t.index_mem_indices
  rwa [treeAt_index h.rooted, List.mem_range] at hroot

/-- A pointer that a walk follows leads to entries that are equal but for the weight. -/
theorem SameTree.nodeAt (h : SameTree m nodes nodes') {i : NodeIdx} (hi : i.toNat < m) :
    ∃ e w, nodeAt nodes i = .ok e ∧ nodeAt nodes' i = .ok { e with weight := w } ∧
      (e.leaf = false → e.left.toNat < m ∧ e.right.toNat < m) := by
  have hcap : i.toNat < nodeCap := hi.trans_le h.bounded
  have heq : nodes'[i.toNat] = { nodes[i.toNat] with weight := nodes'[i.toNat].weight } :=
    congrArg (fun e : Node => { e with weight := nodes'[i.toNat].weight }) (h.alike _ hcap hi).symm
  exact ⟨_, _, nodeAt_ok hcap _, (nodeAt_ok hcap _).trans (congrArg Except.ok heq),
    h.closed _ _ hi (Vector.getElem?_eq_getElem hcap)⟩

/-- R171: the codes do not depend on weights. -/
theorem visitCodes_congr (h : SameTree m nodes nodes') : ∀ (d : Nat) {i : NodeIdx} (len : Nat) (bits : PathBits)
    (codes : Vector CodeEntry symbolCount), i.toNat < m →
    visitCodes nodes' d i len bits codes = visitCodes nodes d i len bits codes
  | 0, _, _, _, _, _ => rfl
  | d + 1, i, len, bits, codes, hi => by
    obtain ⟨e, w, he, he', hchild⟩ := h.nodeAt hi
    unfold visitCodes
    rw [he, he']
    cases hl : e.leaf with
    | true => simp [hl]
    | false =>
      obtain ⟨hleft, hright⟩ := hchild hl
      simp only [hl, Bool.false_eq_true, if_false, visitCodes_congr h d _ _ _ hleft]
      split
      · rfl
      · exact visitCodes_congr h d _ _ _ hright

theorem codeTable_congr (h : SameTree m nodes nodes') {root : NodeIdx} (hroot : root.toNat < m) :
    codeTable nodes' root = codeTable nodes root := by
  obtain ⟨e, w, he, he', -⟩ := h.nodeAt hroot
  simp only [codeTable, he, he', visitCodes_congr h nodeCap _ _ _ hroot]

/-- R180: the header does not depend on weights. -/
theorem serializeTree_congr (h : SameTree m nodes nodes') : ∀ (d : Nat) {i : NodeIdx}, i.toNat < m →
    serializeTree nodes' d i = serializeTree nodes d i
  | 0, _, _ => rfl
  | d + 1, i, hi => by
    obtain ⟨e, w, he, he', hchild⟩ := h.nodeAt hi
    unfold serializeTree
    rw [he, he']
    cases hl : e.leaf with
    | true => simp [hl]
    | false =>
      obtain ⟨hleft, hright⟩ := hchild hl
      simp only [hl, Bool.false_eq_true, if_false, serializeTree_congr h d hleft, serializeTree_congr h d hright]

/-! ### Builders that agree on the nodes made -/

theorem getElem?_setNode_congr {i j : Nat} (e : Node) (h : j ≠ i → nodes[j]? = nodes'[j]?) :
    (setNode i e nodes)[j]? = (setNode i e nodes')[j]? := by
  by_cases hj : j = i
  · subst hj
    by_cases hcap : j < nodeCap
    · rw [getElem?_setNode_same hcap, getElem?_setNode_same hcap]
    · simp [hcap]
  · rw [getElem?_setNode_ne hj, getElem?_setNode_ne hj, h hj]

/-- Two builders that differ only in node entries not written yet. -/
structure BuilderAlike (b b' : Builder) : Prop where
  next : b'.next = b.next
  queue : b'.queue = b.queue
  nodes : ∀ i, i < b.next → b.nodes[i]? = b'.nodes[i]?
  queued : ∀ i ∈ b.queue, i < b.next

variable {b b' : Builder}

theorem BuilderAlike.addNode (h : BuilderAlike b b') (e : Node) : BuilderAlike (addNode e b) (addNode e b') where
  next := by simp [h.next]
  queue := by simp [h.next, h.queue]
  nodes i hi := by
    simp only [addNode_next, addNode_nodes, h.next] at hi ⊢
    exact getElem?_setNode_congr e fun hne => h.nodes i (by omega)
  queued i hi := by
    simp only [addNode_queue, addNode_next, List.mem_append, List.mem_singleton] at hi ⊢
    rcases hi with hi | rfl
    · have := h.queued i hi
      omega
    · omega

theorem addByteLeaves_alike : ∀ (xs : List (Byte × Word)) {b b' : Builder}, BuilderAlike b b' →
    BuilderAlike (xs.foldl addByteLeaf b) (xs.foldl addByteLeaf b')
  | [], _, _, h => h
  | x :: xs, b, b', h => by
    refine addByteLeaves_alike xs ?_
    unfold addByteLeaf
    split
    · exact h
    · exact h.addNode _

theorem BuilderAlike.weight_eq (h : BuilderAlike b b') {i : Nat} (hi : i < b.next) :
    weightAt b'.nodes i = weightAt b.nodes i := by
  rw [weightAt, weightAt, h.nodes i hi]

theorem leastOf_congr {i : Nat} {q : List Nat} (h : ∀ j ∈ i :: q, weightAt nodes' j = weightAt nodes j) :
    leastOf nodes' i q = leastOf nodes i q := by
  induction q generalizing i with
  | nil => rfl
  | cons j q ih =>
    have hlt : comesBefore nodes' j i = comesBefore nodes j i := by
      rw [comesBefore, comesBefore, h i (by simp), h j (by simp)]
    simp only [leastOf, List.foldl_cons, hlt] at ih ⊢
    refine ih fun x hx => h x ?_
    rcases List.mem_cons.mp hx with rfl | hx
    · split <;> simp
    · simp [hx]

/-- R136: the queue's order depends on the weights of the queued nodes only. -/
theorem removeMin_congr {q : List Nat} (h : ∀ j ∈ q, weightAt nodes' j = weightAt nodes j) :
    removeMin nodes' q = removeMin nodes q := by
  cases q with
  | nil => rfl
  | cons i q => simp only [removeMin, leastOf_congr h]

theorem BuilderAlike.mergeStep (h : BuilderAlike b b') :
    (mergeStep b = none ∧ mergeStep b' = none) ∨
      ∃ c c', mergeStep b = some c ∧ mergeStep b' = some c' ∧ BuilderAlike c c' := by
  have hw : ∀ i ∈ b.queue, weightAt b'.nodes i = weightAt b.nodes i := fun i hi => h.weight_eq (h.queued i hi)
  simp only [Machine.mergeStep, h.queue, removeMin_congr hw]
  cases hi : removeMin b.nodes b.queue with
  | none => simp
  | some p =>
    obtain ⟨i, q⟩ := p
    obtain ⟨hmem, rfl, -⟩ := removeMin_spec hi
    have hq : ∀ j ∈ b.queue.erase i, j ∈ b.queue := fun j => List.mem_of_mem_erase
    simp only [removeMin_congr fun j hj => hw j (hq j hj)]
    cases hj : removeMin b.nodes (b.queue.erase i) with
    | none => simp
    | some p =>
      obtain ⟨j, q'⟩ := p
      obtain ⟨hmem', rfl, -⟩ := removeMin_spec hj
      have hrest : BuilderAlike { b with queue := (b.queue.erase i).erase j }
          { b' with queue := (b.queue.erase i).erase j } :=
        ⟨h.next, rfl, h.nodes, fun x hx => h.queued x (hq x (List.mem_of_mem_erase hx))⟩
      refine .inr ⟨_, _, rfl, rfl, ?_⟩
      rw [mergedWeight, mergedWeight, hw i hmem, hw j (hq j hmem')]
      exact hrest.addNode _

theorem BuilderAlike.mergeLoop : ∀ (n : Nat) {b b' : Builder}, BuilderAlike b b' →
    BuilderAlike (mergeLoop n b) (mergeLoop n b')
  | 0, _, _, h => h
  | n + 1, b, b', h => by
    unfold Machine.mergeLoop
    obtain ⟨hb, hb'⟩ | ⟨c, c', hc, hc', hcc⟩ := h.mergeStep
    · rw [hb, hb']
      exact h
    · rw [hc, hc']
      exact BuilderAlike.mergeLoop n hcc

/-- R147: the nodes BUILD_TREE makes depend on the histogram only. -/
theorem buildMerged_alike {s s' : State} (h : s'.hist = s.hist) : BuilderAlike (buildMerged s) (buildMerged s') := by
  have hentries : histEntries s' = histEntries s := by rw [histEntries, h, histEntries]
  have hempty : BuilderAlike ⟨s.nodes, 0, []⟩ ⟨s'.nodes, 0, []⟩ := ⟨rfl, rfl, by simp, by simp⟩
  have hleaves : BuilderAlike (buildLeaves s) (buildLeaves s') := by
    rw [buildLeaves, buildLeaves, hentries]
    exact (addByteLeaves_alike _ hempty).addNode _
  rw [buildMerged, buildMerged, hleaves.queue]
  exact hleaves.mergeLoop _

end Sys2Proof.Machine
end

section
/-! SUPPORT. Two states that no host can tell apart, the updates that keep them so, and two runs from them: the tree builder and
the encoder. -/

namespace Sys2Proof.Machine

/-! ### Two states that no host can tell apart -/

/-- The second of two such states: another `PENDING`, another code table, another node memory. -/
def withUnseen (pending : Word) (codes : Vector CodeEntry symbolCount) (nodes : Vector Node nodeCap) (s : State) : State :=
  { s with pending := pending, codes := codes, nodes := nodes }

variable {s s' : State}

theorem sameVisible_iff : SameVisible s s' ↔ ∃ pending codes nodes, s' = withUnseen pending codes nodes s ∧
    (s.busy = true → s.pending = pending) ∧ (s.codesValid = true → s.codes = codes) ∧
    NodesAlike s.nodeCount.toNat s.nodes nodes := by
  constructor
  · intro h
    refine ⟨s'.pending, s'.codes, s'.nodes, ?_, h.pending, h.codes, h.nodes⟩
    exact (congrArg (withUnseen s'.pending s'.codes s'.nodes) h.rest.symm :)
  · rintro ⟨pending, codes, nodes, rfl, hpending, hcodes, hnodes⟩
    exact ⟨rfl, hpending, hcodes, hnodes⟩

/-- An update of the state that neither reads nor writes what no host sees, and that makes none of it visible. -/
structure Blind (f : State → State) : Prop where
  comm : ∀ pending codes nodes s, f (withUnseen pending codes nodes s) = withUnseen pending codes nodes (f s)
  busy : ∀ s, (f s).busy = true → s.busy = true
  codesValid : ∀ s, (f s).codesValid = true → s.codesValid = true
  nodeCount : ∀ s, (f s).nodeCount.toNat ≤ s.nodeCount.toNat
  tree : ∀ s, (f s).treeValid = true → treeState (f s) = treeState s

/-- An update that keeps `BUSY`, `CODES_VALID` and the tree registers makes nothing visible. -/
theorem blind_of_kept {f : State → State}
    (comm : ∀ pending codes nodes s, f (withUnseen pending codes nodes s) = withUnseen pending codes nodes (f s) := by
      intros; rfl)
    (kept : ∀ s, (f s).busy = s.busy ∧ (f s).codesValid = s.codesValid ∧ treeState (f s) = treeState s := by
      intros; exact ⟨rfl, rfl, rfl⟩) : Blind f := by
  refine ⟨comm, fun s hb => ?_, fun s hc => ?_, fun s => ?_, fun s _ => ?_⟩ <;> obtain ⟨hbusy, hcodes, htree⟩ := kept s
  · exact hbusy ▸ hb
  · exact hcodes ▸ hc
  · simp only [treeState, Prod.mk.injEq] at htree
    obtain ⟨-, hcount, -⟩ := htree
    rw [hcount]
  · exact htree

theorem Blind.sameVisible {f : State → State} (hf : Blind f) (h : SameVisible s s') : SameVisible (f s) (f s') := by
  obtain ⟨pending, codes, nodes, rfl, hpending, hcodes, hnodes⟩ := sameVisible_iff.mp h
  have hkeeps := hf.comm s.pending s.codes s.nodes s
  have hp : (f s).pending = s.pending := (congrArg State.pending hkeeps :)
  have hc : (f s).codes = s.codes := (congrArg State.codes hkeeps :)
  have hn : (f s).nodes = s.nodes := (congrArg State.nodes hkeeps :)
  refine sameVisible_iff.mpr ⟨pending, codes, nodes, hf.comm _ _ _ s, fun hb => ?_, fun hv => ?_, ?_⟩
  · exact hp.trans (hpending (hf.busy s hb))
  · exact hc.trans (hcodes (hf.codesValid s hv))
  · rw [hn]
    exact fun i hi hlt => hnodes i hi (hlt.trans_le (hf.nodeCount s))

/-- The flags that say which part of the unseen state a command may read. -/
structure Flags where
  treeValid : Bool
  codesValid : Bool
  nodeCount : NodeIdx

/-- The flags of a state. -/
def flagsOf (s : State) : Flags := ⟨s.treeValid, s.codesValid, s.nodeCount⟩

/-- Two such states with flags in `q`, the node memory of the first one a tree where `TREE_VALID = 1` (R42). -/
structure Twin (q : Flags → Prop) (s s' : State) : Prop where
  visible : SameVisible s s'
  tree : TreeOk s
  flags : q (flagsOf s)

/-- No condition on the flags. -/
def anyFlags (_ : Flags) : Prop := True

/-- `TREE_VALID = 1`. -/
def hasTree (fl : Flags) : Prop := fl.treeValid = true

/-- `CODES_VALID = 1`. -/
def hasCodes (fl : Flags) : Prop := fl.codesValid = true

/-- The flags while READ_HEADER reads the nodes (R221). -/
def hasNothing (fl : Flags) : Prop := fl.treeValid = false ∧ fl.codesValid = false ∧ fl.nodeCount = 0#10

variable {q : Flags → Prop}

theorem Twin.any (h : Twin q s s') : Twin anyFlags s s' := ⟨h.visible, h.tree, trivial⟩

theorem Blind.treeOk {f : State → State} (hf : Blind f) (h : TreeOk s) : TreeOk (f s) :=
  fun hv => treeOk_congr h (hf.tree s hv) hv

theorem Blind.any {f : State → State} (hf : Blind f) (h : Twin q s s') : Twin anyFlags (f s) (f s') :=
  ⟨hf.sameVisible h.visible, hf.treeOk h.tree, trivial⟩

theorem Blind.twin {f : State → State} (hf : Blind f) (h : Twin q s s') (hflags : flagsOf (f s) = flagsOf s) :
    Twin q (f s) (f s') :=
  ⟨hf.sameVisible h.visible, hf.treeOk h.tree, hflags ▸ h.flags⟩

/-! ### Blind updates -/

theorem readBits_withUnseen (k : Nat) (pending : Word) (codes : Vector CodeEntry symbolCount)
    (nodes : Vector Node nodeCap) (s : State) : readBits k (withUnseen pending codes nodes s) =
      ((readBits k s).1, withUnseen pending codes nodes (readBits k s).2) := by
  by_cases h : s.inPos + k ≤ inBits s
  · rw [readBits_full h, readBits_full (s := withUnseen pending codes nodes s) h]
    rfl
  · rw [readBits_short (not_le.mp h), readBits_short (s := withUnseen pending codes nodes s) (not_le.mp h)]
    rfl

theorem blind_readBits (k : Nat) : Blind fun s => (readBits k s).2 :=
  blind_of_kept (fun _ _ _ _ => by rw [readBits_withUnseen]) fun s => by rw [readBits_state]; exact ⟨rfl, rfl, rfl⟩

theorem blind_appendOut (bits : List Bool) : Blind (appendOut bits) := blind_of_kept

theorem blind_flush : Blind flush := blind_of_kept

theorem blind_cursorEnd : Blind fun s => { s with inPos := inBits s } := blind_of_kept

theorem blind_rewind : Blind rewind := blind_of_kept

theorem blind_setHist (b : Byte) (v : Word) : Blind (setHist b v) := blind_of_kept

theorem blind_clearHist : Blind clearHist := blind_of_kept

theorem blind_result (v : Word) : Blind fun s => { s with result := v } := blind_of_kept

theorem blind_symbol (v : Word) (b : Bool) : Blind fun s => { s with result := v, eos := b } := blind_of_kept

theorem blind_latchError (e : ErrorKind) (opc : Byte) : Blind (latchError e opc) := blind_of_kept

theorem blind_clearError : Blind clearError := blind_of_kept

theorem blind_setResetValues : Blind setResetValues :=
  ⟨fun _ _ _ _ => rfl, fun _ h => h, nofun, fun _ => Nat.zero_le _, nofun⟩

theorem blind_invalidateTree : Blind invalidateTree :=
  ⟨fun _ _ _ _ => rfl, fun _ h => h, nofun, fun _ => Nat.zero_le _, nofun⟩

theorem blind_clearBusy : Blind fun s => { s with busy := false } :=
  ⟨fun _ _ _ _ => rfl, nofun, fun _ h => h, fun _ => le_rfl, fun _ _ => rfl⟩

theorem blind_turns (turns : List Turn) : Blind fun s => { s with turns := turns } := blind_of_kept

theorem blind_overrun : Blind fun s => { s with ovr := true } := blind_of_kept

theorem blind_loadIn (bytes : List Byte) : Blind (loadIn bytes) := blind_of_kept

theorem blind_drainOut : Blind drainOut := blind_of_kept

theorem blind_hostRead (r : BitVec 4) : Blind (hostRead r) := blind_of_kept

/-! ### What two such states have in common -/

theorem eq_of_sameVisible {α : Type} (h : SameVisible s s') (f : State → α)
    (hf : ∀ pending codes nodes s, f (withUnseen pending codes nodes s) = f s := by intros; rfl) : f s' = f s := by
  obtain ⟨pending, codes, nodes, rfl, -⟩ := sameVisible_iff.mp h
  exact hf _ _ _ s

/-- Both read the same bits. -/
theorem Twin.readBits (h : Twin q s s') (k : Nat) :
    ∃ x t t', readBits k s = (x, t) ∧ readBits k s' = (x, t') ∧ Twin q t t' := by
  have hx : (Machine.readBits k s').1 = (Machine.readBits k s).1 :=
    eq_of_sameVisible h.visible (fun s => (Machine.readBits k s).1) fun _ _ _ _ => by rw [readBits_withUnseen]
  have hflags : flagsOf (Machine.readBits k s).2 = flagsOf s := by rw [readBits_state]; rfl
  exact ⟨_, _, (Machine.readBits k s').2, rfl, Prod.ext hx rfl, (blind_readBits k).twin h hflags⟩

/-- Both have the same codes where they have codes (R44). -/
theorem Twin.codeOf (h : Twin hasCodes s s') (sym : Sym) : codeOf s' sym = codeOf s sym := by
  rw [Machine.codeOf, Machine.codeOf, h.visible.codes h.flags]

/-- Both have the same tree where they have a tree (R42). -/
theorem Twin.sameTree (h : Twin hasTree s s') :
    SameTree s.nodeCount.toNat s.nodes s'.nodes ∧ s.root.toNat < s.nodeCount.toNat := by
  obtain ⟨t, hfits⟩ := h.tree h.flags
  exact ⟨sameTree_of_treeFits hfits h.visible.nodes, root_lt_of_treeFits hfits⟩

/-- R142: NODE_READ shows no weight, and no entry at or above `NODE_COUNT`. -/
theorem nodeWord_congr (h : SameVisible s s') (i : NodeIdx) : nodeWord i s' = nodeWord i s := by
  unfold nodeWord
  rw [eq_of_sameVisible h State.nodeCount]
  split
  · next hlt =>
    by_cases hcap : i.toNat < nodeCap
    · have hpack := congrArg packNode (h.nodes i.toNat hcap hlt).symm
      simp only [Vector.getElem?_eq_getElem hcap]
      exact hpack
    · simp [hcap]
  · rfl

/-! ### Two runs -/

/-- Two runs end alike: with the same value in states related by `Q`, with the same error in states related by `R`, or stuck
for the same reason. -/
def Run.Rel {α : Type} (Q : α → State → State → Prop) (R : State → State → Prop) : Run α → Run α → Prop
  | .ok a s, .ok a' s' => a = a' ∧ Q a s s'
  | .raised e s, .raised e' s' => e = e' ∧ R s s'
  | .stuck f, .stuck f' => f = f'
  | _, _ => False

theorem rel_bind {α β : Type} {Q : α → State → State → Prop} {Q' : β → State → State → Prop} {R : State → State → Prop}
    {x x' : Run α} {k k' : α → State → Run β} (hx : Run.Rel Q R x x')
    (hk : ∀ a t t', x = .ok a t → Q a t t' → Run.Rel Q' R (k a t) (k' a t')) : Run.Rel Q' R (x.bind k) (x'.bind k') := by
  cases x <;> cases x' <;> simp only [Run.Rel] at hx
  case ok.ok a t a' t' =>
    obtain ⟨rfl, h⟩ := hx
    exact hk a t t' rfl h
  case raised.raised => exact hx
  case stuck.stuck => exact hx

theorem rel_mono {α : Type} {Q Q' : α → State → State → Prop} {R R' : State → State → Prop} {x x' : Run α}
    (hx : Run.Rel Q R x x') (hQ : ∀ a t t', Q a t t' → Q' a t t') (hR : ∀ t t', R t t' → R' t t') : Run.Rel Q' R' x x' := by
  cases x <;> cases x' <;> simp only [Run.Rel] at hx
  case ok.ok => exact ⟨hx.1, hQ _ _ _ hx.2⟩
  case raised.raised => exact ⟨hx.1, hR _ _ hx.2⟩
  case stuck.stuck => exact hx

/-- Two runs end alike, in states no host can tell apart. -/
abbrev Alike (q : Flags → Prop) {α : Type} (x x' : Run α) : Prop := Run.Rel (fun _ => Twin q) (Twin q) x x'

theorem Alike.any {α : Type} {x x' : Run α} (h : Alike q x x') : Alike anyFlags x x' :=
  rel_mono h (fun _ _ _ h => h.any) fun _ _ h => h.any

theorem alike_needTree {k k' : State → Run Unit} (h : Twin q s s')
    (hk : Twin hasTree s s' → Alike anyFlags (k s) (k' s')) :
    Alike anyFlags (needTree s k) (needTree s' k') := by
  have hv : s'.treeValid = s.treeValid := eq_of_sameVisible h.visible State.treeValid
  unfold needTree
  rw [hv]
  split
  · next ht => exact hk ⟨h.visible, h.tree, ht⟩
  · exact ⟨rfl, h.any⟩

theorem alike_needCodes {k k' : State → Run Unit} (h : Twin q s s')
    (hk : Twin hasCodes s s' → Alike anyFlags (k s) (k' s')) :
    Alike anyFlags (needCodes s k) (needCodes s' k') := by
  have hv : s'.codesValid = s.codesValid := eq_of_sameVisible h.visible State.codesValid
  unfold needCodes
  rw [hv]
  split
  · next hc => exact hk ⟨h.visible, h.tree, hc⟩
  · exact ⟨rfl, h.any⟩

/-! ### The tree builder -/

theorem alike_countByte (b : Byte) (h : Twin q s s') : Alike q (countByte b s) (countByte b s') := by
  have hb : histAt s' b = histAt s b := eq_of_sameVisible h.visible (histAt · b)
  unfold countByte
  rw [hb]
  split
  · exact ⟨rfl, h⟩
  · exact ⟨rfl, (blind_setHist b _).twin h rfl⟩

theorem alike_countLoop : ∀ (n : Nat) {s s' : State}, Twin q s s' → Alike q (countLoop n s) (countLoop n s')
  | 0, _, _, h => ⟨rfl, h⟩
  | n + 1, s, s', h => by
    obtain ⟨x, t, t', hs, hs', ht⟩ := h.readBits 8
    unfold countLoop
    rw [hs, hs']
    cases x with
    | none => exact ⟨rfl, ht⟩
    | some v => exact rel_bind (alike_countByte v ht) fun _ _ _ _ h => alike_countLoop n h

theorem alike_countStream (h : Twin q s s') : Alike q (countStream s) (countStream s') := by
  have hinput : s'.input = s.input := eq_of_sameVisible h.visible State.input
  rw [countStream, countStream, hinput]
  exact alike_countLoop _ h

/-- R147: BUILD_TREE reads the histogram only. -/
theorem twin_buildTree (h : Twin q s s') : Twin anyFlags (buildTree s) (buildTree s') := by
  have hb := buildMerged_alike (s := s) (s' := s') (eq_of_sameVisible h.visible State.hist)
  obtain ⟨tr, hfits, -⟩ := buildTree_fits s
  refine ⟨sameVisible_iff.mpr ?_, fun _ => ⟨tr, hfits⟩, trivial⟩
  refine ⟨s'.pending, s'.codes, (buildMerged s').nodes, ?_, h.visible.pending, nofun, nodesAlike_of_eq fun i hi => ?_⟩
  · obtain ⟨pending, codes, nodes, rfl, -⟩ := sameVisible_iff.mp h.visible
    rw [buildTree, hb.queue, hb.next]
    rfl
  · rw [buildTree_nodeCount, BitVec.toNat_ofNat] at hi
    exact hb.nodes i (by omega)

/-! ### The encoder -/

theorem alike_genCodes (h : Twin q s s') : Alike anyFlags (genCodes s) (genCodes s') := by
  refine alike_needTree h fun h => ?_
  obtain ⟨hsame, hroot⟩ := h.sameTree
  rw [eq_of_sameVisible h.visible State.root, codeTable_congr hsame hroot]
  split
  · rfl
  · next codes hcodes =>
    refine ⟨rfl, sameVisible_iff.mpr ?_, treeOk_congr h.tree rfl, trivial⟩
    obtain ⟨pending, _, nodes, rfl, hpending, -, hnodes⟩ := sameVisible_iff.mp h.visible
    exact ⟨pending, codes, nodes, rfl, hpending, fun _ => rfl, hnodes⟩

theorem alike_writeHeader (magic : Word) (h : Twin q s s') : Alike anyFlags (writeHeader magic s) (writeHeader magic s') := by
  refine alike_needTree h fun h => ?_
  obtain ⟨hsame, hroot⟩ := h.sameTree
  rw [eq_of_sameVisible h.visible State.root, serializeTree_congr hsame nodeCap hroot]
  split
  · rfl
  · exact ⟨rfl, (blind_appendOut _).any ((blind_appendOut _).any h)⟩

theorem alike_encodeSym (sym : Sym) (h : Twin hasCodes s s') : Alike hasCodes (encodeSym sym s) (encodeSym sym s') := by
  unfold encodeSym
  rw [h.codeOf]
  split
  · exact ⟨rfl, (blind_appendOut _).twin h rfl⟩
  · exact ⟨rfl, h⟩

theorem alike_encodeLoop : ∀ (n : Nat) {s s' : State}, Twin hasCodes s s' → Alike hasCodes (encodeLoop n s) (encodeLoop n s')
  | 0, _, _, h => ⟨rfl, h⟩
  | n + 1, s, s', h => by
    obtain ⟨x, t, t', hs, hs', ht⟩ := h.readBits 8
    unfold encodeLoop
    rw [hs, hs']
    cases x with
    | none => exact ⟨rfl, ht⟩
    | some v => exact rel_bind (alike_encodeSym (byteSym v) ht) fun _ _ _ _ h => alike_encodeLoop n h

theorem alike_encodeStream (h : Twin q s s') : Alike anyFlags (encodeStream s) (encodeStream s') := by
  refine alike_needCodes h fun h => ?_
  rw [eq_of_sameVisible h.visible State.input]
  exact Alike.any (rel_bind (alike_encodeLoop _ h) fun _ _ _ _ h => alike_encodeSym eosSym h)

theorem alike_compressTree (magic : Word) (h : Twin q s s') :
    Alike anyFlags (compressTree magic s) (compressTree magic s') := by
  refine rel_bind (alike_countStream (blind_clearHist.any (blind_rewind.any h))) fun _ _ _ _ h => ?_
  refine rel_bind (alike_genCodes (twin_buildTree h)) fun _ _ _ _ h => ?_
  refine rel_bind (alike_writeHeader magic h) fun _ _ _ _ h => ?_
  refine rel_bind (alike_encodeStream (blind_rewind.any h)) fun _ t t' _ h => ?_
  exact ⟨rfl, blind_flush.any h⟩

end Sys2Proof.Machine
end

section
/-! PROOFS. Two runs of the decoder, of any command, and of a step, from two states that no host can tell apart. -/

namespace Sys2Proof.Machine

variable {s s' : State} {q : Flags → Prop}

/-! ### Two runs of READ_HEADER -/

/-- A node stored while there is no tree is seen by no host. -/
theorem Twin.storeNode (h : Twin hasNothing s s') (k : Nat) (e : Node) :
    Twin hasNothing (storeNode k e s) (storeNode k e s') := by
  obtain ⟨hnoTree, hnoCodes, hnone⟩ := h.flags
  refine ⟨sameVisible_iff.mpr ?_, fun hv => absurd hv (by simpa [flagsOf] using hnoTree), h.flags⟩
  obtain ⟨pending, codes, nodes, rfl, hpending, hcodes, -⟩ := sameVisible_iff.mp h.visible
  refine ⟨pending, codes, setNode k e nodes, rfl, hpending, hcodes, nodesAlike_of_eq fun i hi => ?_⟩
  have hcount : s.nodeCount = 0#10 := hnone
  simp [hcount] at hi

/-- What two runs of `ReadNode` have in common (R221): the states are twins without a tree, entries that were equal are still
equal, and so are the entries of the nodes read. -/
structure ReadAlike (k : Nat) (s s' : State) (r : Nat × Nat) (t t' : State) : Prop where
  twin : Twin hasNothing t t'
  kept : ∀ i : Nat, s.nodes[i]? = s'.nodes[i]? → t.nodes[i]? = t'.nodes[i]?
  read : ∀ i : Nat, k ≤ i → i < r.2 → t.nodes[i]? = t'.nodes[i]?

theorem readAlike_readLeaf (k : Nat) (h : Twin hasNothing s s') :
    Run.Rel (ReadAlike k s s') (Twin hasNothing) (readLeaf k s) (readLeaf k s') := by
  obtain ⟨x, t, t', hs, hs', ht⟩ := h.readBits 9
  unfold readLeaf
  rw [hs, hs']
  cases x with
  | none => exact ⟨rfl, ht⟩
  | some sym =>
    simp only
    split
    · exact ⟨rfl, ht⟩
    · refine ⟨rfl, ht.storeNode _ _, fun i hi => ?_, fun i h1 h2 => ?_⟩
      · rw [storeNode_nodes, storeNode_nodes, readBits_nodes hs, readBits_nodes hs']
        exact getElem?_setNode_congr _ fun _ => hi
      · exact getElem?_setNode_congr _ fun hne => absurd h2 (by simp only; omega)

/-- A node stored after its two subtrees were read. -/
theorem readAlike_node {k : Nat} {left right : Nat × Nat} {t t' u u' : State} (e : Node)
    (hl : ReadAlike (k + 1) s s' left t t') (hr : ReadAlike left.2 t t' right u u') :
    ReadAlike k s s' (k, right.2) (storeNode k e u) (storeNode k e u') where
  twin := hr.twin.storeNode k e
  kept i hi := getElem?_setNode_congr e fun _ => hr.kept i (hl.kept i hi)
  read i h1 h2 := getElem?_setNode_congr e fun hne => by
    by_cases hleft : i < left.2
    · exact hr.kept i (hl.read i (by omega) hleft)
    · exact hr.read i (by omega) h2

theorem readAlike_readNode : ∀ (d k : Nat) {s s' : State}, Twin hasNothing s s' →
    Run.Rel (ReadAlike k s s') (Twin hasNothing) (readNode d k s) (readNode d k s')
  | 0, _, _, _, h => ⟨rfl, h⟩
  | d + 1, k, s, s', h => by
    obtain ⟨x, t, t', hs, hs', ht⟩ := h.readBits 1
    have hnodes := readBits_nodes hs
    have hnodes' := readBits_nodes hs'
    have hread {r : Nat × Nat} {u u' : State} (hu : ReadAlike k t t' r u u') : ReadAlike k s s' r u u' :=
      ⟨hu.twin, fun i hi => hu.kept i (by rwa [hnodes, hnodes']), hu.read⟩
    unfold readNode
    rw [hs, hs']
    split
    · exact ⟨rfl, h⟩
    · cases x with
      | none => exact ⟨rfl, ht⟩
      | some flag =>
        simp only
        split
        · exact rel_mono (readAlike_readLeaf k ht) (fun _ _ _ => hread) fun _ _ h => h
        · refine rel_bind (readAlike_readNode d (k + 1) ht) fun left u u' _ hl => ?_
          refine rel_bind (readAlike_readNode d left.2 hl.twin) fun right v v' _ hr => ?_
          exact ⟨rfl, hread (readAlike_node _ hl hr)⟩

/-- The loaded trees agree (R224). -/
theorem twin_setLoaded {r : Nat × Nat} {t t' : State} (hread : readNode nodeCap 0 s = .ok r t)
    (h : ReadAlike 0 s s' r t t') : Twin anyFlags (setLoaded r t) (setLoaded r t') := by
  refine ⟨sameVisible_iff.mpr ?_, fun _ => setLoaded_fits hread, trivial⟩
  have hnodes : NodesAlike (setLoaded r t).nodeCount.toNat t.nodes t'.nodes :=
    nodesAlike_of_eq fun i hi => h.read i (Nat.zero_le _) (by simp only [setLoaded, BitVec.toNat_ofNat] at hi; omega)
  obtain ⟨pending, codes, nodes, rfl, hpending, hcodes, -⟩ := sameVisible_iff.mp h.twin.visible
  exact ⟨pending, codes, nodes, rfl, hpending, hcodes, hnodes⟩

theorem alike_loadTree (h : Twin hasNothing s s') : Alike anyFlags (loadTree s) (loadTree s') := by
  have hread := readAlike_readNode nodeCap 0 h
  rw [loadTree_eq, loadTree_eq]
  refine rel_bind (R := Twin anyFlags) (rel_mono hread (fun _ _ _ h => h) fun _ _ h => h.any) ?_
  exact fun r t t' hok h => ⟨rfl, twin_setLoaded hok h⟩

theorem alike_readHeaderWith (magicTree magicCounts : Word) (h : Twin q s s') :
    Alike anyFlags (readHeaderWith magicTree magicCounts s) (readHeaderWith magicTree magicCounts s') := by
  have hdrop : Twin hasNothing (invalidateTree s) (invalidateTree s') :=
    ⟨blind_invalidateTree.sameVisible h.visible, nofun, rfl, rfl, rfl⟩
  obtain ⟨x, t, t', hs, hs', ht⟩ := hdrop.readBits 32
  unfold readHeaderWith
  rw [hs, hs']
  cases x with
  | none => exact ⟨rfl, ht.any⟩
  | some magic =>
    simp only
    split
    · exact ⟨rfl, ht.any⟩
    · split
      · exact alike_loadTree ht
      · exact ⟨rfl, ht.any⟩

/-! ### Two runs of the decoder -/

/-- R230: the walk follows equal pointers. -/
theorem alike_walkToLeaf : ∀ (n : Nat) {e : Node} (w : Weight) {s s' : State}, Twin hasTree s s' →
    e.left.toNat < s.nodeCount.toNat ∧ e.right.toNat < s.nodeCount.toNat →
    Alike hasTree (walkToLeaf n e s) (walkToLeaf n { e with weight := w } s')
  | 0, _, _, _, _, h, _ => ⟨rfl, blind_cursorEnd.twin h rfl⟩
  | n + 1, e, w, s, s', h, hchild => by
    obtain ⟨x, t, t', hs, hs', ht⟩ := h.readBits 1
    unfold walkToLeaf
    rw [hs, hs']
    cases x with
    | none => exact ⟨rfl, ht⟩
    | some b =>
      have hcount : t.nodeCount = s.nodeCount := by
        have := congrArg State.nodeCount (readBits_state 1 s)
        rwa [hs] at this
      have hlt : (childOf e b).toNat < t.nodeCount.toNat := by
        rw [childOf, hcount]
        split
        · exact hchild.1
        · exact hchild.2
      have hchild' : childOf { e with weight := w } b = childOf e b := rfl
      obtain ⟨c, w', hc, hc', hnext⟩ := ht.sameTree.1.nodeAt hlt
      simp only [hchild', hc, hc']
      split
      · exact ⟨rfl, ht⟩
      · next hl => exact alike_walkToLeaf n w' ht (hnext (by simpa using hl))

theorem alike_emitSym (sym : Sym) (h : Twin q s s') : Alike q (emitSym sym s) (emitSym sym s') := by
  unfold emitSym
  split
  · exact ⟨rfl, (blind_symbol _ _).twin h rfl⟩
  · exact ⟨rfl, (blind_appendOut _).twin ((blind_symbol _ _).twin h rfl) rfl⟩

theorem alike_decodeOne (h : Twin hasTree s s') : Alike hasTree (decodeOne s) (decodeOne s') := by
  obtain ⟨hsame, hroot⟩ := h.sameTree
  obtain ⟨e, w, he, he', hchild⟩ := hsame.nodeAt hroot
  have hleft : bitsLeft s' = bitsLeft s := eq_of_sameVisible h.visible bitsLeft
  unfold decodeOne
  rw [eq_of_sameVisible h.visible State.root, he, he', hleft]
  cases hl : e.leaf with
  | true =>
    obtain ⟨x, t, t', hs, hs', ht⟩ := h.readBits 1
    simp only [hl, if_true, hs, hs']
    cases x with
    | none => exact ⟨rfl, ht⟩
    | some b => exact alike_emitSym e.sym ht
  | false =>
    simp only [hl, Bool.false_eq_true, if_false]
    exact rel_bind (alike_walkToLeaf _ w h (hchild hl)) fun sym _ _ _ h => alike_emitSym sym h

theorem alike_decodeLoop : ∀ (n : Nat) {s s' : State}, Twin hasTree s s' → Alike hasTree (decodeLoop n s) (decodeLoop n s')
  | 0, _, _, h => ⟨rfl, blind_cursorEnd.twin h rfl⟩
  | n + 1, s, s', h => by
    unfold decodeLoop
    refine rel_bind (alike_decodeOne h) fun sym t t' _ h => ?_
    split
    · exact ⟨rfl, h⟩
    · exact alike_decodeLoop n h

theorem alike_decodeSymbol (h : Twin q s s') : Alike anyFlags (decodeSymbol s) (decodeSymbol s') :=
  alike_needTree h fun h => Alike.any (rel_bind (alike_decodeOne h) fun _ _ _ _ h => ⟨rfl, h⟩)

theorem alike_decodeStream (h : Twin q s s') : Alike anyFlags (decodeStream s) (decodeStream s') := by
  refine alike_needTree h fun h => ?_
  have hleft : bitsLeft s' = bitsLeft s := eq_of_sameVisible h.visible bitsLeft
  rw [hleft]
  exact Alike.any (alike_decodeLoop _ h)

/-! ### Two runs of any command -/

/-- CODE_LEN and CODE_BITS give what they read of a code the host can see (R175, R176). -/
theorem alike_readCode (f : State → Word) (hf : Twin hasCodes s s' → f s' = f s) (h : Twin q s s') :
    Alike anyFlags (needCodes s fun s => .ok () { s with result := f s })
      (needCodes s' fun s => .ok () { s with result := f s }) := by
  refine alike_needCodes h fun h => ?_
  rw [hf h]
  exact ⟨rfl, (blind_result (f s)).any h⟩

theorem alike_commandRun (i : Instr) (h : Twin q s s') : Alike anyFlags (commandRun i s) (commandRun i s') := by
  cases i with
  | nop => exact ⟨rfl, h.any⟩
  | errClear => exact ⟨rfl, blind_clearError.any h⟩
  | softReset => exact ⟨rfl, blind_setResetValues.any h⟩
  | srcRewind => exact ⟨rfl, blind_rewind.any h⟩
  | outFlush => exact ⟨rfl, blind_flush.any h⟩
  | histClear => exact ⟨rfl, blind_clearHist.any h⟩
  | histCount b => exact Alike.any (alike_countByte b h)
  | histCountStream => exact Alike.any (alike_countStream h)
  | histRead b =>
    rw [commandRun, commandRun, eq_of_sameVisible h.visible (histAt · b)]
    exact ⟨rfl, (blind_result _).any h⟩
  | buildTree => exact ⟨rfl, twin_buildTree h⟩
  | nodeRead n =>
    rw [commandRun, commandRun, nodeWord_congr h.visible]
    exact ⟨rfl, (blind_result _).any h⟩
  | genCodes => exact alike_genCodes h
  | codeLen c => exact alike_readCode (codeLenWord c) (fun h => by rw [codeLenWord, codeLenWord, h.codeOf]) h
  | codeBits c w => exact alike_readCode (codeBitsWord c w) (fun h => by rw [codeBitsWord, codeBitsWord, h.codeOf]) h
  | emitHeader m =>
    cases m with
    | tree => exact alike_writeHeader _ h
    | counts => exact ⟨rfl, h.any⟩
  | encodeByte b => exact alike_needCodes h fun h => Alike.any (alike_encodeSym _ h)
  | encodeEos => exact alike_needCodes h fun h => Alike.any (alike_encodeSym _ h)
  | encodeStream => exact alike_encodeStream h
  | compress m =>
    cases m with
    | tree => exact alike_compressTree _ h
    | counts => exact ⟨rfl, h.any⟩
  | readHeader => exact alike_readHeaderWith _ _ h
  | decodeSym => exact alike_decodeSymbol h
  | decodeStream => exact alike_decodeStream h
  | decompress =>
    exact rel_bind (alike_readHeaderWith _ _ (blind_rewind.any h)) fun _ _ _ _ h => alike_decodeStream h

/-! ### Two steps -/

/-- Two transitions give states no host can tell apart, or stop for the same reason. -/
def SameOutcome (o o' : Host.Outcome State Fault Refusal) : Prop :=
  (∃ t t', o = .next t ∧ o' = .next t' ∧ SameVisible t t') ∨ ∃ f, o = .fault f ∧ o' = .fault f

theorem sameOutcome_next {t t' : State} (h : SameVisible t t') : SameOutcome (.next t) (.next t') :=
  .inl ⟨t, t', rfl, rfl, h⟩

theorem sameOutcome_finish (opc : Byte) {r r' : Run Unit} (h : Alike q r r') : SameOutcome (finish opc r) (finish opc r') := by
  cases r <;> cases r' <;> simp only [Run.Rel] at h
  case ok.ok => exact sameOutcome_next h.2.visible
  case raised.raised e t e' t' =>
    obtain ⟨rfl, h⟩ := h
    exact sameOutcome_next ((blind_latchError e opc).sameVisible h.visible)
  case stuck.stuck f f' => exact .inr ⟨f, rfl, by rw [h, finish_stuck]⟩

theorem sameOutcome_exec (i : Instr) (h : Twin q s s') : SameOutcome (exec i s) (exec i s') := by
  rw [exec_eq_finish, exec_eq_finish]
  exact sameOutcome_finish _ (alike_commandRun i h)

theorem sameOutcome_execute (w : Word) (h : Twin q s s') : SameOutcome (execute w s) (execute w s') := by
  unfold execute
  rw [eq_of_sameVisible h.visible State.errCode]
  split
  · split
    · exact sameOutcome_exec _ h
    · exact sameOutcome_next h.visible
  · split
    · exact sameOutcome_next ((blind_latchError _ _).sameVisible h.visible)
    · exact sameOutcome_next h.visible

theorem sameOutcome_clearBusy {o o' : Host.Outcome State Fault Refusal} (h : SameOutcome o o') :
    SameOutcome (clearBusy o) (clearBusy o') := by
  obtain ⟨t, t', rfl, rfl, h⟩ | ⟨f, rfl, rfl⟩ := h
  · exact sameOutcome_next (blind_clearBusy.sameVisible h)
  · exact .inr ⟨f, rfl, rfl⟩

/-- R32: the engine moves only while `BUSY = 1`, and then the latched words are equal. -/
theorem sameOutcome_engineStep (h : Twin q s s') : SameOutcome (engineStep s) (engineStep s') := by
  have hb : s'.busy = s.busy := eq_of_sameVisible h.visible State.busy
  cases hbusy : s.busy with
  | true =>
    rw [engineStep_busy hbusy, engineStep_busy (hb.trans hbusy), h.visible.pending hbusy]
    exact sameOutcome_clearBusy (sameOutcome_execute _ h)
  | false =>
    rw [engineStep_idle hbusy, engineStep_idle (hb.trans hbusy)]
    exact sameOutcome_next h.visible

/-! ### Two host actions -/

theorem writeCmd_busy (v : Word) (h : s.busy = true) : writeCmd v s = { s with ovr := true } := by
  simp [writeCmd, h]

theorem writeCmd_idle (v : Word) (h : s.busy = false) : writeCmd v s = { s with pending := v, busy := true } := by
  simp [writeCmd, h]

/-- R291, R292: a write latches the same word, or is the same overrun. -/
theorem sameVisible_writeCmd (v : Word) (h : SameVisible s s') : SameVisible (writeCmd v s) (writeCmd v s') := by
  have hb : s'.busy = s.busy := eq_of_sameVisible h State.busy
  cases hbusy : s.busy with
  | true =>
    rw [writeCmd_busy v hbusy, writeCmd_busy v (hb.trans hbusy)]
    exact blind_overrun.sameVisible h
  | false =>
    rw [writeCmd_idle v hbusy, writeCmd_idle v (hb.trans hbusy)]
    obtain ⟨_, codes, nodes, rfl, -, hcodes, hnodes⟩ := sameVisible_iff.mp h
    exact sameVisible_iff.mpr ⟨v, codes, nodes, rfl, fun _ => rfl, hcodes, hnodes⟩

/-- R341: what HW_RESET leaves unspecified is seen by no host. -/
theorem sameVisible_hwReset (h : SameVisible s s') : SameVisible (hwReset s) (hwReset s') := by
  obtain ⟨_, codes, nodes, rfl, -, -, -⟩ := sameVisible_iff.mp h
  refine sameVisible_iff.mpr ⟨Config.freePending s.draws, codes, nodes, rfl, nofun, nofun, nodesAlike_of_eq fun i hi => ?_⟩
  simp [hwReset] at hi

theorem sameVisible_hostWait (h : SameVisible s s') : SameVisible (hostWait s) (hostWait s') := by
  have hturns : s'.turns = s.turns := eq_of_sameVisible h State.turns
  unfold hostWait
  rw [eq_of_sameVisible h State.busy, hturns]
  split
  · exact (blind_turns _).sameVisible ((blind_hostRead statusReg).sameVisible h)
  · exact (blind_hostRead statusReg).sameVisible h

theorem sameVisible_hostCheck (h : SameVisible s s') : SameVisible (hostCheck s) (hostCheck s') := by
  unfold hostCheck
  rw [eq_of_sameVisible h errFlag]
  split
  · exact (blind_turns _).sameVisible ((blind_hostRead statusReg).sameVisible h)
  · exact (blind_hostRead statusReg).sameVisible h

theorem sameOutcome_whileIdle {t t' : State} (h : SameVisible s s') (ht : SameVisible t t') :
    SameOutcome (whileIdle s t) (whileIdle s' t') := by
  unfold whileIdle
  rw [eq_of_sameVisible h State.busy]
  split
  · exact .inr ⟨_, rfl, rfl⟩
  · exact sameOutcome_next ht

theorem sameOutcome_hostStep (a : HostAction) (h : SameVisible s s') : SameOutcome (hostStep a s) (hostStep a s') := by
  cases a with
  | write r v =>
    simp only [hostStep, writeRegister]
    split
    · exact sameOutcome_next (sameVisible_writeCmd v h)
    · exact sameOutcome_next h
  | read r => exact sameOutcome_next ((blind_hostRead r).sameVisible h)
  | loadIn bytes => exact sameOutcome_whileIdle h ((blind_loadIn bytes).sameVisible h)
  | drainOut => exact sameOutcome_whileIdle h (blind_drainOut.sameVisible h)
  | hwReset => exact sameOutcome_next (sameVisible_hwReset h)
  | wait => exact sameOutcome_next (sameVisible_hostWait h)
  | check => exact sameOutcome_next (sameVisible_hostCheck h)

theorem sameOutcome_step (h : Twin q s s') : SameOutcome (step s) (step s') := by
  have hturns : s'.turns = s.turns := eq_of_sameVisible h.visible State.turns
  have hrest (rest : List Turn) : Twin anyFlags { s with turns := rest } { s' with turns := rest } :=
    (blind_turns rest).any h
  match hs : s.turns with
  | [] =>
    rw [step_of_noTurns hs, step_of_noTurns (hturns.trans hs)]
    exact sameOutcome_engineStep h
  | .engine :: rest =>
    rw [step_of_engineTurn hs, step_of_engineTurn (hturns.trans hs)]
    exact sameOutcome_engineStep (hrest rest)
  | .host a :: rest =>
    rw [step_of_hostTurn hs, step_of_hostTurn (hturns.trans hs)]
    exact sameOutcome_hostStep a (hrest rest).visible

/-- Settles O16: the two states are twins, and every part of a transition takes twins to twins. -/
theorem unspecifiedStateIsUnobservable : Obligations.UnspecifiedStateIsUnobservable :=
  fun _ _ hinv hsame => sameOutcome_step (q := anyFlags) ⟨hsame, hinv.tree, trivial⟩

end Sys2Proof.Machine
end

section
/-! PROOFS. Command words: their fields, the rows of the opcode table, decoding and encoding (30_encoding.md rules R100 to
R109). -/

namespace Sys2Proof
open Machine

/-! ### The fields of a word -/

/-- R100: a word is its opcode byte and its operand bits. -/
theorem append_opcodeByte (w : Word) : opcodeByte w ++ field w 0 24 = w :=
  (BitVec.extractLsb'_append_extractLsb'_eq_extractLsb' rfl).trans BitVec.extractLsb'_eq_self

theorem append_eq_append_iff {m n : Nat} {x x' : BitVec m} {y y' : BitVec n} : x ++ y = x' ++ y' ↔ x = x' ∧ y = y' := by
  refine ⟨fun h => ?_, fun ⟨hx, hy⟩ => by rw [hx, hy]⟩
  have hy : y = y' := by simpa [extractLsb'_append_zero] using congrArg (BitVec.extractLsb' 0 n) h
  exact ⟨(BitVec.append_left_inj y).mp (h.trans (by rw [hy])), hy⟩

/-- A mask over the opcode byte and the reserved bits keeps the opcode byte of a word whose reserved bits are 0 (R100, R109). -/
theorem and_rowMask (k : Nat) {n : Nat} (op : Byte) (x : BitVec n) :
    (op ++ (0#k ++ x)) &&& (BitVec.allOnes 8 ++ (BitVec.allOnes k ++ 0#n)) = op ++ (0#k ++ 0#n) := by
  simp only [BitVec.and_append, BitVec.and_allOnes, BitVec.and_zero]

/-- A word that matches a row is the row's opcode byte and the operand, its reserved bits 0 (R100, R109). -/
theorem append_operand_of_and_rowMask (k n : Nat) (op : Byte) (w : BitVec (8 + (k + n)))
    (h : w &&& (BitVec.allOnes 8 ++ (BitVec.allOnes k ++ 0#n)) = op ++ (0#k ++ 0#n)) :
    op ++ (0#k ++ w.extractLsb' 0 n) = w := by
  have hlow : w.extractLsb' n k ++ w.extractLsb' 0 n = w.extractLsb' 0 (k + n) :=
    BitVec.extractLsb'_append_extractLsb'_eq_extractLsb' (Nat.zero_add n).symm
  have hw : w.extractLsb' (k + n) 8 ++ (w.extractLsb' n k ++ w.extractLsb' 0 n) = w := by
    rw [hlow, BitVec.extractLsb'_append_extractLsb'_eq_extractLsb' (Nat.zero_add _).symm, BitVec.extractLsb'_eq_self]
  rw [← hw] at h
  simp only [BitVec.and_append, BitVec.and_allOnes, BitVec.and_zero, append_eq_append_iff, and_true] at h
  rw [← h.1, ← h.2, hw]

/-- A field of the operand, under the reserved bits (R101 to R107). -/
theorem extractLsb'_operandPart (k : Nat) {n lo len : Nat} (op : Byte) (x : BitVec n) (h : lo + len ≤ n) :
    (op ++ (0#k ++ x)).extractLsb' lo len = x.extractLsb' lo len := by
  rw [BitVec.extractLsb'_append_eq_of_add_le (by omega), BitVec.extractLsb'_append_eq_of_add_le h]

theorem extractLsb'_operand (k : Nat) {n : Nat} (op : Byte) (x : BitVec n) : (op ++ (0#k ++ x)).extractLsb' 0 n = x := by
  rw [extractLsb'_operandPart k op x (Nat.zero_add n).le, BitVec.extractLsb'_eq_self]

theorem modeOf_modeBit (m : HeaderMode) : modeOf (modeBit m) = m := by cases m <;> rfl

theorem modeBit_modeOf : ∀ b : BitVec 1, modeBit (modeOf b) = b := by decide

theorem modeOf_operand (op : Byte) (m : HeaderMode) : modeOf (field (op ++ (0#23 ++ modeBit m)) 0 1) = m :=
  (congrArg modeOf (extractLsb'_operand 23 op (modeBit m))).trans (modeOf_modeBit m)

/-- R104: the two operands of CODE_BITS are one field of 12 bits. -/
theorem operandField_codeBits (s : Sym) (w : BitVec 3) : operandField (.codeBits s w) = 0#12 ++ (w ++ s) := BitVec.append_assoc

theorem codeBits_fields (w : Word) : 0#12 ++ field w 9 3 ++ field w 0 9 = 0#12 ++ field w 0 12 :=
  BitVec.append_assoc.trans (congrArg (0#12 ++ ·) (BitVec.extractLsb'_append_extractLsb'_eq_extractLsb' rfl))

/-! ### The opcode table -/

/-- R108: the rows have pairwise different opcode bytes. -/
theorem opTable_opcodes_nodup : (opTable.map fun row => opcodeByte row.pattern).Nodup := by decide

theorem opcodeByte_mask : ∀ row ∈ opTable, opcodeByte row.mask = 0xFF#8 := by decide

/-- R109: the row that a word matches is the only one, so it is the one the word decodes by. -/
theorem decode_of_row {w : Word} {row : OpRow} {i : Instr} (hr : row ∈ opTable) (hf : row.fits w = true)
    (hb : row.build w = i) : decode w = .command i := by
  obtain ⟨j, hj⟩ := decode_of_fits hr hf
  obtain ⟨row', hr', hf', hb'⟩ := decode_command hj
  have hop : opcodeByte row'.pattern = opcodeByte row.pattern :=
    (opcodeByte_of_fits (opcodeByte_mask row' hr') hf').symm.trans (opcodeByte_of_fits (opcodeByte_mask row hr) hf)
  obtain rfl := List.inj_on_of_nodup_map opTable_opcodes_nodup hr' hr hop
  rw [hj, ← hb', hb]

theorem fits_iff {row : OpRow} {w : Word} : row.fits w = true ↔ w &&& row.mask = row.pattern := beq_iff_eq

/-- Settles O1: an operand's word matches its command's row and gives the operand back; the other words are the rows' match
values. -/
theorem decodeOfEncode : Obligations.DecodeOfEncode := by
  intro i
  cases i with
  | nop => exact decode_nop
  | errClear => exact decode_errClear
  | softReset => exact decode_softReset
  | srcRewind => exact decode_srcRewind
  | outFlush => exact decode_outFlush
  | histClear => exact decode_histClear
  | histCount b =>
    exact decode_of_row (row := treeBuilderRows[1]) (by simp [opTable]) (fits_iff.mpr (and_rowMask 16 0x11#8 b))
      (congrArg Instr.histCount (extractLsb'_operand 16 0x11#8 b))
  | histCountStream => exact decode_histCountStream
  | histRead b =>
    exact decode_of_row (row := treeBuilderRows[3]) (by simp [opTable]) (fits_iff.mpr (and_rowMask 16 0x13#8 b))
      (congrArg Instr.histRead (extractLsb'_operand 16 0x13#8 b))
  | buildTree => exact decode_buildTree
  | nodeRead n =>
    exact decode_of_row (row := treeBuilderRows[5]) (by simp [opTable]) (fits_iff.mpr (and_rowMask 14 0x15#8 n))
      (congrArg Instr.nodeRead (extractLsb'_operand 14 0x15#8 n))
  | genCodes => exact decode_genCodes
  | codeLen s =>
    exact decode_of_row (row := encoderRows[1]) (by simp [opTable]) (fits_iff.mpr (and_rowMask 15 0x21#8 s))
      (congrArg Instr.codeLen (extractLsb'_operand 15 0x21#8 s))
  | codeBits s w =>
    rw [encode, operandField_codeBits]
    exact decode_of_row (row := encoderRows[2]) (by simp [opTable]) (fits_iff.mpr (and_rowMask 12 0x22#8 (w ++ s)))
      (congrArg₂ Instr.codeBits
        ((extractLsb'_operandPart 12 0x22#8 (w ++ s) (by decide)).trans (extractLsb'_append_zero 9 w s))
        ((extractLsb'_operandPart 12 0x22#8 (w ++ s) (by decide)).trans BitVec.extractLsb'_append_eq_left))
  | emitHeader m =>
    exact decode_of_row (row := encoderRows[3]) (by simp [opTable]) (fits_iff.mpr (and_rowMask 23 0x23#8 (modeBit m)))
      (congrArg Instr.emitHeader (modeOf_operand 0x23#8 m))
  | encodeByte b =>
    exact decode_of_row (row := encoderRows[4]) (by simp [opTable]) (fits_iff.mpr (and_rowMask 16 0x24#8 b))
      (congrArg Instr.encodeByte (extractLsb'_operand 16 0x24#8 b))
  | encodeEos => exact decode_encodeEos
  | encodeStream => exact decode_encodeStream
  | compress m =>
    exact decode_of_row (row := encoderRows[7]) (by simp [opTable]) (fits_iff.mpr (and_rowMask 23 0x27#8 (modeBit m)))
      (congrArg Instr.compress (modeOf_operand 0x27#8 m))
  | readHeader => exact decode_readHeader
  | decodeSym => exact decode_decodeSym
  | decodeStream => exact decode_decodeStream
  | decompress => exact decode_decompress

/-- R108: the command of a row that a word matches has that word: the row's match value, and the operand if the row has one. -/
theorem encode_build_of_fits : ∀ row ∈ opTable, ∀ w : Word, row.fits w = true → encode (row.build w) = w := by
  have plain (p w : Word) (h : w &&& 0xFFFFFFFF#32 = p) : p = w := h.symm.trans BitVec.and_allOnes
  simp only [opTable, controlRows, treeBuilderRows, encoderRows, decoderRows, List.forall_mem_append, List.forall_mem_cons,
    fits_iff, encode, opcodeOf, operandField, modeBit_modeOf, codeBits_fields]
  simp only [List.not_mem_nil, false_implies, implies_true, and_true]
  exact ⟨⟨⟨⟨plain _, plain _, plain _, plain _, plain _⟩,
    plain _, append_operand_of_and_rowMask 16 8 0x11#8, plain _, append_operand_of_and_rowMask 16 8 0x13#8, plain _,
      append_operand_of_and_rowMask 14 10 0x15#8⟩,
    plain _, append_operand_of_and_rowMask 15 9 0x21#8, append_operand_of_and_rowMask 12 12 0x22#8,
      append_operand_of_and_rowMask 23 1 0x23#8, append_operand_of_and_rowMask 16 8 0x24#8, plain _, plain _,
      append_operand_of_and_rowMask 23 1 0x27#8⟩,
    plain _, plain _, plain _, plain _⟩

/-- Settles O2: the word decodes by a row that it matches. -/
theorem encodeOfDecode : Obligations.EncodeOfDecode := by
  intro w i h
  obtain ⟨row, hr, hf, rfl⟩ := decode_command h
  exact encode_build_of_fits row hr w hf

/-- Settles O3: a word that matches a row has the row's opcode byte, and no two rows have the same. -/
theorem opcodeRowsAreDisjoint : Obligations.OpcodeRowsAreDisjoint := by
  have hbytes := List.pairwise_map.mp opTable_opcodes_nodup
  refine ⟨rfl, hbytes.imp_of_mem fun hr hr' hne w ⟨hf, hf'⟩ => hne ?_, hbytes, opcodeByte_mask,
    fun w row hr hf => decode_of_row hr hf rfl⟩
  exact (opcodeByte_of_fits (opcodeByte_mask _ hr) hf).symm.trans (opcodeByte_of_fits (opcodeByte_mask _ hr') hf')

/-- Settles O5: the nine words are those of the commands, operands included. -/
theorem specWordsDecode : Obligations.SpecWordsDecode :=
  ⟨decodeOfEncode .buildTree, decodeOfEncode (.histCount 0x41#8), decodeOfEncode (.codeLen 256#9),
    decodeOfEncode (.codeBits 256#9 1#3), decodeOfEncode (.nodeRead 4#10), decodeOfEncode (.emitHeader .tree),
    decodeOfEncode (.compress .counts), decodeOfEncode .errClear, decodeOfEncode .decompress⟩

end Sys2Proof
end

section
/-! PROOFS. Which words are illegal, and what executing one does (30_encoding.md rule R110, 60_exceptions.md rule R304). -/

namespace Sys2Proof
open Machine

/-- R110: a word is illegal iff it matches no row. -/
theorem illegal_iff_no_row (w : Word) : (∃ why, decode w = .illegal why) ↔ ∀ row ∈ opTable, w &&& row.mask ≠ row.pattern := by
  constructor
  · rintro ⟨why, h⟩ row hr heq
    exact absurd (fits_iff.mpr heq) (by simp [(decode_illegal h).1 row hr])
  · intro h
    cases hd : decode w with
    | illegal why => exact ⟨why, rfl⟩
    | command i =>
      obtain ⟨row, hr, hf, -⟩ := decode_command hd
      exact absurd (fits_iff.mp hf) (h row hr)

/-- R101 to R108: a row's match value is its opcode byte alone, and its mask is the opcode byte and the reserved bits of its
format. -/
theorem opTable_layout : ∀ row ∈ opTable, row.pattern = opcodeByte row.pattern ++ 0#24 ∧
    (formatOf (opcodeByte row.pattern)).map (fun f => 0xFF#8 ++ field (reservedMask f) 0 24) = some row.mask := by decide

/-- R108, R111: every byte that has a format has a row. -/
theorem exists_row_of_formatOf {op : Byte} {f : Format} (h : formatOf op = some f) :
    ∃ row ∈ opTable, opcodeByte row.pattern = op := by
  have hmem : ∀ op : Byte, (formatOf op).isSome = true → op ∈ opTable.map fun row => opcodeByte row.pattern := by decide
  exact List.mem_map.mp (hmem op (by rw [h]; rfl))

theorem and_append_mask (w : Word) (m : Byte) (r : BitVec 24) :
    w &&& (m ++ r) = (opcodeByte w &&& m) ++ (field w 0 24 &&& r) := by
  rw [← BitVec.and_append, append_opcodeByte]

/-- R101 to R106: the reserved bits of a format are operand bits. -/
theorem and_reservedMask_eq_zero (w : Word) (f : Format) :
    w &&& reservedMask f = 0#32 ↔ field w 0 24 &&& field (reservedMask f) 0 24 = 0#24 := by
  have hmask : 0#8 ++ field (reservedMask f) 0 24 = reservedMask f := by cases f <;> rfl
  calc w &&& reservedMask f = 0#32
    _ ↔ 0#8 ++ (field w 0 24 &&& field (reservedMask f) 0 24) = 0#8 ++ 0#24 := by
      rw [← hmask, and_append_mask, BitVec.and_zero, hmask]; rfl
    _ ↔ _ := BitVec.append_right_inj _

/-- R109, R110: a word matches a row iff it has the row's opcode byte and every reserved bit of the format is 0. -/
theorem fits_iff_reserved {row : OpRow} (hr : row ∈ opTable) {f : Format} (hf : formatOf (opcodeByte row.pattern) = some f)
    (w : Word) : row.fits w = true ↔ opcodeByte w = opcodeByte row.pattern ∧ w &&& reservedMask f = 0#32 := by
  obtain ⟨hpattern, hmask⟩ := opTable_layout row hr
  rw [hf, Option.map_some, Option.some_inj] at hmask
  have hbyte : opcodeByte w &&& 0xFF#8 = opcodeByte w := BitVec.and_allOnes
  rw [and_reservedMask_eq_zero, ← append_eq_append_iff, ← hpattern, fits_iff, ← hmask, and_append_mask, hbyte]

/-- R110: a word matches a row iff its opcode byte is listed and every reserved bit of its format is 0. -/
theorem exists_fits_iff (w : Word) : (∃ row ∈ opTable, row.fits w = true) ↔
    ∃ f, formatOf (opcodeByte w) = some f ∧ w &&& reservedMask f = 0#32 := by
  constructor
  · rintro ⟨row, hr, hfits⟩
    obtain ⟨f, hf, -⟩ := Option.map_eq_some_iff.mp (opTable_layout row hr).2
    obtain ⟨hop, hres⟩ := (fits_iff_reserved hr hf w).mp hfits
    exact ⟨f, by rw [hop, hf], hres⟩
  · rintro ⟨f, hf, hres⟩
    obtain ⟨row, hr, hop⟩ := exists_row_of_formatOf hf
    exact ⟨row, hr, (fits_iff_reserved hr (by rw [hop, hf]) w).mpr ⟨hop.symm, hres⟩⟩

/-- R110: (a) a reserved opcode byte, or (b) a reserved bit of the format that is 1. -/
theorem illegal_iff_reserved (w : Word) : (∃ why, decode w = .illegal why) ↔
    formatOf (opcodeByte w) = none ∨ ∃ f, formatOf (opcodeByte w) = some f ∧ w &&& reservedMask f ≠ 0#32 := by
  have hno : (∃ why, decode w = .illegal why) ↔ ¬ ∃ row ∈ opTable, row.fits w = true := by
    simp [illegal_iff_no_row, fits_iff]
  rw [hno, exists_fits_iff]
  cases formatOf (opcodeByte w) <;> simp

/-- R304, R313: an illegal word raises ILLEGAL_CMD with its opcode byte, or is blocked by a latched error. -/
theorem execute_illegal {w : Word} (s : State) (h : ∃ why, decode w = .illegal why) :
    (s.errCode = 0#4 → execute w s = .next (latchError .illegalCmd (opcodeByte w) s)) ∧
    (s.errCode ≠ 0#4 → execute w s = .next s) := by
  obtain ⟨why, hd⟩ := h
  constructor <;> intro he <;> simp [execute, hd, he, finish]

/-- Settles O4: the engine's step on an illegal word is its execution, and `BUSY <- 0`. -/
theorem illegalWordsAndTheirEffect : Obligations.IllegalWordsAndTheirEffect := by
  refine ⟨illegal_iff_no_row, illegal_iff_reserved, fun w s => execute_illegal s, fun s hb h => ?_, ⟨_, rfl⟩, ⟨_, rfl⟩, ⟨_, rfl⟩⟩
  rw [engineStep_busy hb]
  exact ⟨fun he => congrArg clearBusy ((execute_illegal s h).1 he), fun he => congrArg clearBusy ((execute_illegal s h).2 he)⟩

end Sys2Proof
end

section
/-! PROOFS. The assembler: a command's line gives its word, and a line with a wrong operand or opcode byte gives none
(30_encoding.md rules R111, R118, R119). -/

namespace Sys2Proof
open Machine

/-! ### The word of a command's line -/

/-- R101 to R106: a number in an operand's field, the reserved bits 0. -/
theorem ofNat_toNat_operand (k : Nat) {n : Nat} (x : BitVec n) : BitVec.ofNat (k + n) x.toNat = 0#k ++ x := by
  apply BitVec.eq_of_toNat_eq
  have hx : x.toNat < 2 ^ (k + n) := x.isLt.trans_le (Nat.pow_le_pow_right (by decide) (Nat.le_add_left n k))
  simp [Nat.mod_eq_of_lt hx]

theorem toNat_codeBits (s : Sym) (w : BitVec 3) : (w ++ s).toNat = 512 * w.toNat + s.toNat := by
  rw [BitVec.toNat_append, ← Nat.shiftLeft_add_eq_or_of_lt s.isLt, Nat.shiftLeft_eq, Nat.mul_comm]

/-- R118: the operands of a command's line fill bits [23:0] of its word. -/
theorem argsField_argsOf (i : Instr) {f : Format} (h : formatOf (opcodeOf i) = some f) :
    BitVec.ofNat 24 (argsField f (argsOf i)) = operandField i := by
  cases i <;> cases h
  case histCount b => exact ofNat_toNat_operand 16 b
  case histRead b => exact ofNat_toNat_operand 16 b
  case encodeByte b => exact ofNat_toNat_operand 16 b
  case nodeRead n => exact ofNat_toNat_operand 14 n
  case codeLen s => exact ofNat_toNat_operand 15 s
  case codeBits s w =>
    rw [operandField_codeBits, argsOf, argsField, ← toNat_codeBits]
    exact ofNat_toNat_operand 12 (w ++ s)
  case emitHeader m => exact ofNat_toNat_operand 23 (modeBit m)
  case compress m => exact ofNat_toNat_operand 23 (modeBit m)
  all_goals rfl

/-- R119: the assembler gives a command's line the command's word. -/
theorem assembleLine_lineOf (i : Instr) : assembleLine (lineOf i) = some (encode i) := by
  have hwf := lineOf_wellFormed i
  obtain ⟨f, hf⟩ := Option.isSome_iff_exists.mp (formatOf_opcodeOf i)
  simp only [AsmLine.wellFormed, lineOf, hf] at hwf
  simp only [assembleLine, lineOf, hf, hwf, if_true, argsField_argsOf i hf, encode]

/-! ### Assembly errors -/

theorem assembleLine_eq_none {l : AsmLine} (h : ∀ f, formatOf l.op = some f → argsFit f l.args = false) :
    assembleLine l = none := by
  unfold assembleLine
  split
  · next f hf => simp [h f hf]
  · rfl

theorem assembleLine_of_format {op : Byte} {args : List Nat} {f : Format} (hf : formatOf op = some f)
    (h : argsFit f args = false) : assembleLine ⟨op, args⟩ = none :=
  assembleLine_eq_none fun _ hf' => Option.some_inj.mp (hf.symm.trans hf') ▸ h

/-- The number of operands of a format, that of format M being optional (R118). -/
def operandCount : Format → Nat
  | .n => 0
  | .sw => 2
  | .b | .s | .i | .m => 1

/-- R118: operands that fit are as many as the format has. -/
theorem length_of_argsFit {f : Format} {args : List Nat} (h : argsFit f args = true) :
    args.length = operandCount f ∨ f = .m ∧ args = [] := by
  unfold argsFit at h
  split at h <;> simp_all [operandCount]

theorem argsFit_of_length {f : Format} {args : List Nat} (hlen : args.length ≠ operandCount f) (hm : f = .m → args ≠ []) :
    argsFit f args = false := by
  refine Bool.eq_false_iff.mpr fun h => ?_
  obtain hl | ⟨rfl, rfl⟩ := length_of_argsFit h
  · exact hlen hl
  · exact hm rfl rfl

/-- The formats of the opcode bytes (R108). -/
theorem formatOf_b : ∀ op ∈ [0x11#8, 0x13#8, 0x24#8], formatOf op = some .b := by decide

theorem formatOf_m : ∀ op ∈ [0x23#8, 0x27#8], formatOf op = some .m := by decide

theorem formatOf_n : ∀ op ∈ [0x00#8, 0x01#8, 0x02#8, 0x03#8, 0x04#8, 0x10#8, 0x12#8, 0x14#8, 0x20#8, 0x25#8, 0x26#8,
    0x30#8, 0x31#8, 0x32#8, 0x33#8], formatOf op = some .n := by decide

theorem formatOf_oneOperand : ∀ op ∈ [0x11#8, 0x13#8, 0x24#8, 0x21#8, 0x15#8],
    formatOf op = some .b ∨ formatOf op = some .s ∨ formatOf op = some .i := by decide

/-- R111: the reserved opcode bytes. -/
theorem formatOf_reserved : ∀ op : Byte, (0x05 ≤ op.toNat ∧ op.toNat ≤ 0x0F) ∨ (0x16 ≤ op.toNat ∧ op.toNat ≤ 0x1F) ∨
    (0x28 ≤ op.toNat ∧ op.toNat ≤ 0x2F) ∨ 0x34 ≤ op.toNat → formatOf op = none := by decide

/-- Settles O6: each format's ranges, each format's number of operands, and the reserved opcode bytes. -/
theorem assemblerGivesTheWord : Obligations.AssemblerGivesTheWord := by
  refine ⟨assembleLine_lineOf, fun l h => ?wellFormed, ⟨rfl, rfl⟩, fun op b hop hb => ?byte, fun s hs => ?sym,
    fun s w h => ?symWord, fun i hi => ?index, fun op m hop hm => ?mode, fun op args hop hlen => ?one, fun args hlen => ?two,
    fun op args hop hlen => ?optional, fun op args hop hne => ?noOperand, fun op args hop => ?reserved, ?text⟩
  case wellFormed => exact assembleLine_eq_none fun f hf => by simpa only [AsmLine.wellFormed, hf] using h
  case byte => exact assembleLine_of_format (formatOf_b op hop) (decide_eq_false (by omega))
  case sym => exact assembleLine_of_format (f := .s) rfl (decide_eq_false (by omega))
  case symWord => exact assembleLine_of_format (f := .sw) rfl (by simp [argsFit]; omega)
  case index => exact assembleLine_of_format (f := .i) rfl (decide_eq_false (by omega))
  case mode => exact assembleLine_of_format (formatOf_m op hop) (decide_eq_false (by omega))
  case one =>
    obtain hf | hf | hf := formatOf_oneOperand op hop <;>
      exact assembleLine_of_format hf (argsFit_of_length hlen nofun)
  case two => exact assembleLine_of_format (f := .sw) rfl (argsFit_of_length hlen nofun)
  case optional =>
    refine assembleLine_of_format (formatOf_m op hop) (argsFit_of_length (f := .m) hlen.ne' fun _ => ?_)
    rintro rfl
    simp at hlen
  case noOperand =>
    exact assembleLine_of_format (formatOf_n op hop) (argsFit_of_length (mt List.length_eq_zero_iff.mp hne) nofun)
  case reserved => exact assembleLine_eq_none fun f hf => by simp [formatOf_reserved op hop] at hf
  case text => decide +kernel

end Sys2Proof
end

section
/-! PROOFS. Frequency analysis, and the inspection commands HIST_READ and NODE_READ (41_tree_builder.md rules R131 to R134,
R142). -/

namespace Sys2Proof
open Machine

/-! ### The words -/

/-- R101 to R106: a command's word is the opcode byte's word, with the operand in its low bits. -/
theorem append_eq_or_operand (k : Nat) {n : Nat} (op : Byte) (x : BitVec n) :
    op ++ (0#k ++ x) = (op ++ (0#k ++ 0#n)) ||| x.setWidth (8 + (k + n)) := by
  have hx : x.setWidth (8 + (k + n)) = 0#8 ++ (0#k ++ x) := by
    have hlt : x.toNat < 2 ^ (8 + (k + n)) := x.isLt.trans_le (Nat.pow_le_pow_right (by decide) (by omega))
    exact BitVec.eq_of_toNat_eq (by simp [Nat.mod_eq_of_lt hlt])
  rw [hx, BitVec.or_append, BitVec.or_append]
  simp

/-! ### One counter -/

/-- Settles O29: every counter of the new histogram is 0. -/
theorem histClearClears : Obligations.HistClearClears :=
  ⟨rfl, fun _ => ⟨Vector.replicate byteValues 0#32, fun _ hi => Vector.getElem_replicate hi, rfl⟩⟩

/-- Settles O32: the counter is read, and `RESULT` is all that is written. -/
theorem histReadReads : Obligations.HistReadReads :=
  fun b => ⟨append_eq_or_operand 16 0x13#8 b, fun _ => rfl⟩

theorem countByte_below {s : State} {b : Byte} (h : (histAt s b).toNat ≠ 2 ^ 32 - 1) :
    countByte b s = .ok () (setHist b (histAt s b + 1) s) :=
  if_neg fun hmax => h (congrArg BitVec.toNat hmax)

theorem countByte_full {s : State} {b : Byte} (h : (histAt s b).toNat = 2 ^ 32 - 1) :
    countByte b s = .raised .countOverflow s :=
  if_pos (BitVec.eq_of_toNat_eq h)

/-- A counter below 2^32 - 1 gains exactly one (R143). -/
theorem toNat_counter_add_one {c : Word} (h : c.toNat < 2 ^ 32 - 1) : (c + 1).toNat = c.toNat + 1 :=
  BitVec.toNat_add_of_lt (by simp; omega)

/-- Settles O30: below 2^32 - 1 the byte is counted, and at 2^32 - 1 the run raises COUNT_OVERFLOW. -/
theorem histCountCounts : Obligations.HistCountCounts := by
  refine fun b => ⟨append_eq_or_operand 16 0x11#8 b, fun s => ⟨fun h => ⟨histAt s b + 1, ?_, ?_⟩, fun h => ?_⟩⟩
  · have := (histAt s b).isLt
    exact toNat_counter_add_one (by omega)
  · rw [exec_eq_finish, commandRun, countByte_below h]
    rfl
  · rw [exec_eq_finish, commandRun, countByte_full h]
    rfl

/-! ### A node entry as a word -/

theorem toNat_append_add {m n : Nat} (x : BitVec m) (y : BitVec n) : (x ++ y).toNat = x.toNat * 2 ^ n + y.toNat := by
  rw [BitVec.toNat_append, ← Nat.shiftLeft_add_eq_or_of_lt y.isLt, Nat.shiftLeft_eq]

/-- R142: LEAF, SYM, LEFT and RIGHT at their places. -/
theorem toNat_packNode (e : Node) : (packNode e).toNat =
    (if e.leaf then 2 ^ 31 else 0) + e.sym.toNat * 2 ^ 20 + e.left.toNat * 2 ^ 10 + e.right.toNat := by
  simp only [packNode, toNat_append_add, BitVec.toNat_ofBool, BitVec.toNat_ofNat]
  cases e.leaf <;> simp <;> omega

/-- R142: an entry that keeps R41 does not read 0: a leaf has LEAF set, an internal node has the sentinel in SYM. -/
theorem packNode_ne_zero {e : Node} (h : EntryOk e) : packNode e ≠ 0#32 := by
  intro hz
  have hsum := toNat_packNode e
  rw [hz] at hsum
  obtain ⟨-, hinternal⟩ := h
  cases hl : e.leaf with
  | true => simp [hl] at hsum; omega
  | false => simp [hl, hinternal hl] at hsum; omega

theorem nodeWord_eq_packNode {s : State} {i : NodeIdx} {e : Node} (hi : i < s.nodeCount) (he : s.nodes[i.toNat]? = some e) :
    nodeWord i s = packNode e := by
  simp only [nodeWord, hi, he, if_true]

/-- Settles O37: an index below `NODE_COUNT` gives the packed entry, any other 0. -/
theorem nodeReadReads : Obligations.NodeReadReads := by
  refine fun i => ⟨append_eq_or_operand 14 0x15#8 i, fun s _ => ⟨nodeWord i s, rfl, fun e hi he => ?_, fun hi => ?_⟩⟩
  · rw [nodeWord_eq_packNode hi he]
    exact ⟨toNat_packNode e, packNode_ne_zero⟩
  · exact if_neg (BitVec.not_lt.mpr hi)

/-! ### The units of IN -/

/-- R74: the state after a whole unit was read. -/
def pastUnit (s : State) : State := { s with inPos := s.inPos + 8 }

@[simp] theorem histAt_pastUnit (s : State) (b : Byte) : histAt (pastUnit s) b = histAt s b := rfl

theorem unitsFrom_short {s : State} (h : inBits s < s.inPos + 8) : unitsFrom s = [] := by
  have hnone : bitsLeft s / 8 = 0 := by rw [bitsLeft]; omega
  simp [unitsFrom, hnone]

/-- R74, R79: the first whole unit is what a read of 8 bits gives, and the others are those from behind it on. -/
theorem unitsFrom_full {s : State} (h : s.inPos + 8 ≤ inBits s) :
    unitsFrom s = BitVec.ofNat 8 (bitsValue (streamBits s.input s.inPos 8)) :: unitsFrom (pastUnit s) := by
  have hleft : bitsLeft s / 8 = bitsLeft (pastUnit s) / 8 + 1 := by
    simp only [bitsLeft, inBits, pastUnit] at h ⊢
    omega
  simp only [unitsFrom, hleft, List.range_succ_eq_map, List.map_cons, List.map_map]
  refine congrArg₂ _ rfl (List.map_congr_left fun k _ => ?_)
  simp only [Function.comp, pastUnit, Nat.mul_succ, Nat.add_assoc, Nat.add_comm 8]

theorem unitsFrom_length_le (s : State) : (unitsFrom s).length ≤ s.input.length := by
  simp only [unitsFrom, bitsLeft, inBits, List.length_map, List.length_range]
  omega

/-- R74: where a unit is left, a read of 8 bits gives it. -/
theorem readBits_of_unitsFrom_cons {s : State} {b : Byte} {us : List Byte} (h : unitsFrom s = b :: us) :
    readBits 8 s = (some b, pastUnit s) ∧ unitsFrom (pastUnit s) = us := by
  by_cases hin : s.inPos + 8 ≤ inBits s
  · obtain ⟨hb, hus⟩ := List.cons.inj ((unitsFrom_full hin).symm.trans h)
    exact ⟨by rw [readBits_full hin, hb, pastUnit], hus⟩
  · simp [unitsFrom_short (Nat.lt_of_not_le hin)] at h

/-- R74: where no unit is left, a read of 8 bits goes to the end of IN. -/
theorem readBits_of_unitsFrom_nil {s : State} (h : unitsFrom s = []) :
    readBits 8 s = (none, { s with inPos := inBits s }) := by
  by_cases hin : s.inPos + 8 ≤ inBits s
  · simp [unitsFrom_full hin] at h
  · exact readBits_short (Nat.lt_of_not_le hin)

/-! ### Counting units -/

/-- R133: the state after these units were counted. -/
def countUnits (us : List Byte) (s : State) : State :=
  { s with hist := histPlus s us, inPos := s.inPos + 8 * us.length }

theorem getElem_histPlus (s : State) (us : List Byte) (b : Byte) :
    (histPlus s us)[b.toNat]'b.isLt = histAt s b + BitVec.ofNat 32 (us.count b) := by
  simp [histPlus, histAt]

theorem histAt_countUnits (us : List Byte) (s : State) (b : Byte) :
    histAt (countUnits us s) b = histAt s b + BitVec.ofNat 32 (us.count b) :=
  getElem_histPlus s us b

/-- A histogram is what it holds for each byte value. -/
theorem hist_ext {h h' : Vector Word byteValues} (heq : ∀ b : Byte, h[b.toNat]'b.isLt = h'[b.toNat]'b.isLt) : h = h' := by
  refine Vector.ext fun i hi => ?_
  simpa [Nat.mod_eq_of_lt hi] using heq (BitVec.ofNat 8 i)

theorem countUnits_nil (s : State) : countUnits [] s = s := by
  have hh : histPlus s [] = s.hist := hist_ext fun b => by simp [getElem_histPlus, histAt]
  simp [countUnits, hh]

/-- Counting the first unit, then the others. -/
theorem countUnits_cons (b : Byte) (us : List Byte) (s : State) :
    countUnits (b :: us) s = countUnits us (setHist b (histAt s b + 1) (pastUnit s)) := by
  have hh : histPlus s (b :: us) = histPlus (setHist b (histAt s b + 1) (pastUnit s)) us := by
    refine hist_ext fun c => ?_
    rw [getElem_histPlus, getElem_histPlus]
    by_cases hc : c = b
    · subst hc
      rw [histAt_setHist_same, List.count_cons_self, Nat.add_comm, BitVec.ofNat_add, ← BitVec.add_assoc]
      rfl
    · rw [histAt_setHist_ne hc, List.count_cons_of_ne (Ne.symm hc), histAt_pastUnit]
  have hpos : s.inPos + 8 * (b :: us).length = (pastUnit s).inPos + 8 * us.length := by
    simp only [pastUnit, List.length_cons]
    omega
  rw [countUnits, hh, hpos]
  rfl

theorem countLoop_nil {s : State} (n : Nat) (h : unitsFrom s = []) :
    countLoop (n + 1) s = .ok () { s with inPos := inBits s } := by
  rw [countLoop, readBits_of_unitsFrom_nil h]

theorem countLoop_cons {s : State} {b : Byte} {us : List Byte} (n : Nat) (h : unitsFrom s = b :: us) :
    countLoop (n + 1) s = (countByte b (pastUnit s)).bind fun _ s' => countLoop n s' := by
  rw [countLoop, (readBits_of_unitsFrom_cons h).1]

/-- R133, R143: units that pass no counter's limit are counted one by one, and the loop goes on with the units behind them. -/
theorem countLoop_append (n : Nat) (rest : List Byte) : ∀ (us : List Byte) (s : State), unitsFrom s = us ++ rest →
    (∀ b : Byte, (histAt s b).toNat + us.count b < 2 ^ 32) →
    countLoop (us.length + n) s = countLoop n (countUnits us s) ∧ unitsFrom (countUnits us s) = rest
  | [], s, h, _ => by simpa [countUnits_nil] using h
  | b :: us, s, h, hlt => by
    have hb : (histAt s b).toNat < 2 ^ 32 - 1 := by
      have := hlt b
      rw [List.count_cons_self] at this
      omega
    have hround : countLoop (us.length + n + 1) s = countLoop (us.length + n) (setHist b (histAt s b + 1) (pastUnit s)) := by
      rw [countLoop_cons _ h, countByte_below (by rw [histAt_pastUnit]; omega), histAt_pastUnit, bind_ok]
    rw [countUnits_cons, List.length_cons, Nat.add_right_comm, hround]
    refine countLoop_append n rest us _ (readBits_of_unitsFrom_cons h).2 fun c => ?_
    have hc := hlt c
    by_cases heq : c = b
    · subst heq
      rw [List.count_cons_self] at hc
      rw [histAt_setHist_same, toNat_counter_add_one hb]
      omega
    · rw [List.count_cons_of_ne (Ne.symm heq)] at hc
      rwa [histAt_setHist_ne heq, histAt_pastUnit]

/-- The rounds of HIST_COUNT_STREAM are more than the units left. -/
theorem exists_rounds {us : List Byte} {s : State} (h : us.length ≤ (unitsFrom s).length) :
    ∃ k, countStream s = countLoop (us.length + (k + 1)) s := by
  have hle := unitsFrom_length_le s
  have hrounds : s.input.length + 1 = us.length + (s.input.length - us.length + 1) := by omega
  exact ⟨s.input.length - us.length, by rw [countStream, hrounds]⟩

/-- R133: with no counter at its limit all units are counted, and a short tail is consumed. -/
theorem countStream_exhausts {s : State} (h : ∀ b : Byte, (histAt s b).toNat + (unitsFrom s).count b < 2 ^ 32) :
    countStream s = .ok () { s with hist := histPlus s (unitsFrom s), inPos := inBits s } := by
  obtain ⟨k, hk⟩ := exists_rounds (s := s) le_rfl
  obtain ⟨hloop, hend⟩ := countLoop_append (k + 1) [] _ s (List.append_nil _).symm h
  rw [hk, hloop, countLoop_nil k hend]
  simp only [countUnits, inBits]

/-- R133, R309: the first unit whose counter is at its limit is consumed, and the units before it stay counted. -/
theorem countStream_overflows {s : State} {us rest : List Byte} {b : Byte} (hsplit : unitsFrom s = us ++ b :: rest)
    (h : ∀ c : Byte, (histAt s c).toNat + us.count c < 2 ^ 32) (hfull : (histAt s b).toNat + us.count b = 2 ^ 32 - 1) :
    countStream s = .raised .countOverflow { s with hist := histPlus s us, inPos := s.inPos + 8 * (us.length + 1) } := by
  obtain ⟨k, hk⟩ := exists_rounds (us := us) (s := s) (by simp [hsplit])
  obtain ⟨hloop, hrest⟩ := countLoop_append (k + 1) (b :: rest) us s hsplit h
  have hmax : (histAt (pastUnit (countUnits us s)) b).toNat = 2 ^ 32 - 1 := by
    rw [histAt_pastUnit, histAt_countUnits, BitVec.toNat_add, BitVec.toNat_ofNat]
    omega
  rw [hk, hloop, countLoop_cons k hrest, countByte_full hmax, bind_raised]
  simp only [countUnits, pastUnit, Nat.mul_succ, Nat.add_assoc]

/-- Settles O31: the units before the first overflow, or all of them, are counted one by one. -/
theorem histCountStreamCounts : Obligations.HistCountStreamCounts := by
  refine ⟨rfl, fun s h => ?_, fun s k hk h hfull => ?_⟩
  · rw [exec_eq_finish, commandRun, countStream_exhausts h, finish_ok]
  · have hsplit : unitsFrom s = (unitsFrom s).take k ++ (unitsFrom s)[k] :: (unitsFrom s).drop (k + 1) := by
      rw [← List.drop_eq_getElem_cons hk, List.take_append_drop]
    rw [exec_eq_finish, commandRun, countStream_overflows hsplit h hfull, List.length_take_of_le hk.le]
    rfl

end Sys2Proof
end

section
/-! SUPPORT. The nodes that BUILD_TREE makes: its leaves, and each merge of the two lowest queued nodes (41_tree_builder.md rules
R136 to R139, R144). -/

namespace Sys2Proof
open Machine

variable {b b' : Builder} {nodes nodes' : Vector Node nodeCap} {leaves total n : Nat} {e : Node}

/-! ### What making nodes leaves alone -/

/-- `b'` has made nodes from `b.next` on, and kept every other entry. -/
structure Grows (b b' : Builder) : Prop where
  next : b.next ≤ b'.next
  kept : ∀ j, j < b.next ∨ b'.next ≤ j → b'.nodes[j]? = b.nodes[j]?

theorem Grows.refl (b : Builder) : Grows b b := ⟨le_rfl, fun _ _ => rfl⟩

theorem Grows.trans {c : Builder} (h : Grows b b') (h' : Grows b' c) : Grows b c where
  next := h.next.trans h'.next
  kept j hj := by
    have := h.next
    have := h'.next
    rw [h'.kept j (by omega), h.kept j (by omega)]

theorem grows_addNode (e : Node) (q : List Nat) (b : Builder) : Grows b (addNode e { b with queue := q }) where
  next := Nat.le_succ b.next
  kept j hj := getElem?_setNode_ne (show j ≠ b.next by simp only [addNode_next] at hj; omega) e

/-- Whatever every round of the merge loop keeps, the loop keeps. -/
theorem mergeLoop_keeps {P : Builder → Prop} (hstep : ∀ b b', P b → mergeStep b = some b' → P b') :
    ∀ (n : Nat) (b : Builder), P b → P (mergeLoop n b)
  | 0, _, h => h
  | n + 1, b, h => by
    unfold mergeLoop
    split
    · exact h
    · next b' hm => exact mergeLoop_keeps hstep n b' (hstep b b' h hm)

theorem grows_mergeLoop (n : Nat) (b : Builder) : Grows b (mergeLoop n b) := by
  refine mergeLoop_keeps (P := Grows b) (fun c c' h hm => h.trans ?_) n b (.refl b)
  obtain ⟨i, j, w, -, -, rfl⟩ := mergeStep_some hm
  exact grows_addNode _ _ c

/-! ### The leaves -/

/-- Nodes made one after another. -/
def addNodes (es : List Node) (b : Builder) : Builder := es.foldl (fun b e => addNode e b) b

theorem addNodes_cons (e : Node) (es : List Node) (b : Builder) : addNodes (e :: es) b = addNodes es (addNode e b) := rfl

theorem addNodes_next (es : List Node) (b : Builder) : (addNodes es b).next = b.next + es.length := by
  induction es generalizing b with
  | nil => rfl
  | cons e es ih => rw [addNodes_cons, ih, addNode_next, List.length_cons]; omega

theorem addNodes_queue (es : List Node) (b : Builder) :
    (addNodes es b).queue = b.queue ++ List.range' b.next es.length := by
  induction es generalizing b with
  | nil => simp [addNodes]
  | cons e es ih => simp [addNodes_cons, ih, List.range'_succ]

theorem grows_addNodes (es : List Node) (b : Builder) : Grows b (addNodes es b) := by
  induction es generalizing b with
  | nil => exact .refl b
  | cons e es ih => exact (grows_addNode e b.queue b).trans (ih _)

theorem addNodes_made (es : List Node) (b : Builder) (h : b.next + es.length ≤ nodeCap) {k : Nat} (hk : k < es.length) :
    (addNodes es b).nodes[b.next + k]? = es[k]? := by
  induction es generalizing b k with
  | nil => simp at hk
  | cons e es ih =>
    rw [List.length_cons] at h hk
    rw [addNodes_cons]
    cases k with
    | zero =>
      rw [Nat.add_zero, (grows_addNodes es (addNode e b)).kept b.next (.inl (Nat.lt_succ_self _))]
      exact getElem?_setNode_same (by omega) e
    | succ k =>
      have := ih (addNode e b) (by rw [addNode_next]; omega) (k := k) (by omega)
      rwa [addNode_next, Nat.add_assoc, Nat.add_comm 1] at this

/-- The leaf of a byte value that occurs (R137). -/
def byteLeaf (s : State) (b : Byte) : Node := leafNode (byteSym b) ((histAt s b).setWidth 40)

/-- The leaves of BUILD_TREE (R137). -/
def leafNodes (s : State) : List Node := (occurring s).map (byteLeaf s) ++ [leafNode eosSym eosWeight]

@[simp] theorem leafNodes_length (s : State) : (leafNodes s).length = leafCount s := by
  simp [leafNodes, leafCount]

@[simp] theorem builtSymbols_length (s : State) : (builtSymbols s).length = leafCount s := by
  simp [builtSymbols, leafCount]

theorem leafCount_range (s : State) : 1 ≤ leafCount s ∧ leafCount s ≤ 257 :=
  ⟨Nat.le_add_left _ _, builtSymbols_length s ▸ builtSymbols_length_le s⟩

/-- R137: BUILD_TREE makes its leaves one after another. -/
theorem buildLeaves_eq (s : State) : buildLeaves s = addNodes (leafNodes s) ⟨s.nodes, 0, []⟩ := by
  have hbytes : (histEntries s).foldl addByteLeaf ⟨s.nodes, 0, []⟩ =
      addNodes ((occurring s).map (byteLeaf s)) ⟨s.nodes, 0, []⟩ := by
    rw [histEntries_eq, addNodes, occurring, List.foldl_map, List.foldl_map, List.foldl_filter]
    congr 1
    funext c x
    by_cases hx : histAt s x = 0#32 <;> simp [addByteLeaf, hx, byteLeaf]
  rw [buildLeaves, hbytes, addNodes, addNodes, leafNodes, List.foldl_append]
  rfl

@[simp] theorem buildLeaves_next (s : State) : (buildLeaves s).next = leafCount s := by
  rw [buildLeaves_eq, addNodes_next, leafNodes_length, Nat.zero_add]

@[simp] theorem buildLeaves_queue (s : State) : (buildLeaves s).queue = List.range (leafCount s) := by
  rw [buildLeaves_eq, addNodes_queue, leafNodes_length, List.range_eq_range', List.nil_append]

theorem buildLeaves_nodes (s : State) {k : Nat} (hk : k < leafCount s) : (buildLeaves s).nodes[k]? = (leafNodes s)[k]? := by
  have hcap : 0 + (leafNodes s).length ≤ nodeCap := by
    have := (leafCount_range s).2
    rw [leafNodes_length, nodeCap]
    omega
  have hmade := addNodes_made (leafNodes s) ⟨s.nodes, 0, []⟩ hcap (k := k) (by rwa [leafNodes_length])
  rw [buildLeaves_eq, ← Nat.zero_add k, hmade, Nat.zero_add]

/-! ### What the queue and a merge depend on -/

theorem weightAt_congr {j : Nat} (h : nodes'[j]? = nodes[j]?) : weightAt nodes' j = weightAt nodes j := by
  rw [weightAt, weightAt, h]

/-- The queue before node `n` is made depends on the nodes before `n` only. -/
theorem Queued.congr (h : ∀ m, m < n → nodes'[m]? = nodes[m]?) {j : Nat} (hj : Queued nodes leaves n j) :
    Queued nodes' leaves n j :=
  ⟨hj.1, fun m e hm hmn he => hj.2 m e hm hmn (by rwa [← h m hmn])⟩

theorem queued_congr (h : ∀ m, m < n → nodes'[m]? = nodes[m]?) {j : Nat} :
    Queued nodes' leaves n j ↔ Queued nodes leaves n j :=
  ⟨Queued.congr fun m hm => (h m hm).symm, Queued.congr h⟩

theorem lower_congr {i j : Nat} (hi : nodes'[i]? = nodes[i]?) (hj : nodes'[j]? = nodes[j]?) :
    Lower nodes' i j ↔ Lower nodes i j := by
  rw [Lower, Lower, weightAt_congr hi, weightAt_congr hj]

/-- What nothing else comes before is lower than every other index (R136). -/
theorem lower_of_not_comesBefore {i j : Nat} (h : comesBefore nodes j i = false) (hne : j ≠ i) : Lower nodes i j := by
  simp only [comesBefore, Bool.or_eq_false_iff, Bool.and_eq_false_iff, decide_eq_false_iff_not] at h
  unfold Lower
  omega

/-- Entry `e` of node `n` merges the two lowest nodes queued when it is made (R136, R138, R144). -/
structure MergesLowest (nodes : Vector Node nodeCap) (leaves n : Nat) (e : Node) : Prop where
  entry : nodes[n]? = some e
  internal : e.leaf = false
  sym : e.sym = internalSym
  weight : e.weight.toNat = weightAt nodes e.left.toNat + weightAt nodes e.right.toNat
  distinct : e.left ≠ e.right
  left : Queued nodes leaves n e.left.toNat
  right : Queued nodes leaves n e.right.toNat
  lowest : ∀ j, Queued nodes leaves n j → j ≠ e.left.toNat →
    Lower nodes e.left.toNat j ∧ (j ≠ e.right.toNat → Lower nodes e.right.toNat j)

/-- A merge depends on the nodes up to the merged one only. -/
theorem MergesLowest.congr (h : MergesLowest nodes leaves n e) (hn : ∀ m, m ≤ n → nodes'[m]? = nodes[m]?) :
    MergesLowest nodes' leaves n e := by
  have hbefore : ∀ m, m < n → nodes'[m]? = nodes[m]? := fun m hm => hn m hm.le
  have hleft := hbefore _ h.left.1
  have hright := hbefore _ h.right.1
  exact {
    entry := (hn n le_rfl).trans h.entry
    internal := h.internal
    sym := h.sym
    weight := by rw [weightAt_congr hleft, weightAt_congr hright, h.weight]
    distinct := h.distinct
    left := h.left.congr hbefore
    right := h.right.congr hbefore
    lowest := fun j hj hne => by
      rw [lower_congr hleft (hbefore j hj.1), lower_congr hright (hbefore j hj.1)]
      exact h.lowest j ((queued_congr hbefore).mp hj) hne }

/-- Making node `n` takes its children out of the queue, and puts `n` in (R138). -/
theorem queued_succ (hmerged : ∀ m, leaves ≤ m → m < n + 1 → ∃ e, MergesLowest nodes leaves m e) (hn : leaves ≤ n)
    (he : nodes[n]? = some e) (j : Nat) : Queued nodes leaves (n + 1) j ↔
      (Queued nodes leaves n j ∧ j ≠ e.left.toNat ∧ j ≠ e.right.toNat) ∨ j = n := by
  constructor
  · intro ⟨hj, hchild⟩
    obtain rfl | hlt := (Nat.le_of_lt_succ hj).eq_or_lt
    · exact .inr rfl
    · obtain ⟨hl, hr⟩ := hchild n e hn (Nat.lt_succ_self n) he
      exact .inl ⟨⟨hlt, fun m e hm hmn => hchild m e hm (hmn.trans (Nat.lt_succ_self n))⟩, hl.symm, hr.symm⟩
  · rintro (⟨⟨hj, hchild⟩, hl, hr⟩ | rfl)
    · refine ⟨hj.trans (Nat.lt_succ_self n), fun m e' hm hmn he' => ?_⟩
      obtain rfl | hlt := (Nat.le_of_lt_succ hmn).eq_or_lt
      · obtain rfl := Option.some.inj (he.symm.trans he')
        exact ⟨hl.symm, hr.symm⟩
      · exact hchild m e' hm hlt he'
    · refine ⟨Nat.lt_succ_self j, fun m e' hm hmj he' => ?_⟩
      obtain ⟨e'', hmerge⟩ := hmerged m hm hmj
      obtain rfl := Option.some.inj (hmerge.entry.symm.trans he')
      have := hmerge.left.1
      have := hmerge.right.1
      omega

/-! ### One merge -/

/-- The two indices that a round of the merge loop takes out of the queue (R136, R138). -/
structure TwoLowest (b : Builder) (i j : Nat) : Prop where
  left : i ∈ b.queue
  right : j ∈ b.queue.erase i
  leftLeast : ∀ x ∈ b.queue, comesBefore b.nodes x i = false
  rightLeast : ∀ x ∈ b.queue.erase i, comesBefore b.nodes x j = false

/-- The entry that merges nodes `i` and `j` (R138). -/
def mergedNode (b : Builder) (i j : Nat) : Node :=
  internalNode (mergedWeight b.nodes i j) (BitVec.ofNat 10 i) (BitVec.ofNat 10 j)

/-- The builder after nodes `i` and `j` are merged (R138). -/
def mergeOf (b : Builder) (i j : Nat) : Builder :=
  addNode (mergedNode b i j) { b with queue := (b.queue.erase i).erase j }

@[simp] theorem mergeOf_next (b : Builder) (i j : Nat) : (mergeOf b i j).next = b.next + 1 := rfl
@[simp] theorem mergeOf_queue (b : Builder) (i j : Nat) :
    (mergeOf b i j).queue = (b.queue.erase i).erase j ++ [b.next] := rfl
@[simp] theorem mergeOf_nodes (b : Builder) (i j : Nat) :
    (mergeOf b i j).nodes = setNode b.next (mergedNode b i j) b.nodes := rfl

theorem mergeOf_kept (i j : Nat) {m : Nat} (hm : m < b.next) : (mergeOf b i j).nodes[m]? = b.nodes[m]? :=
  getElem?_setNode_ne hm.ne _

/-- R138: a round of the merge loop merges the two lowest of the queue. -/
theorem mergeStep_lowest (h : mergeStep b = some b') : ∃ i j, TwoLowest b i j ∧ b' = mergeOf b i j := by
  unfold mergeStep at h
  split at h
  · simp at h
  · next i q hi =>
    obtain ⟨hmem, rfl, hleast⟩ := removeMin_spec hi
    split at h
    · simp at h
    · next j q' hj =>
      obtain ⟨hmem', rfl, hleast'⟩ := removeMin_spec hj
      exact ⟨i, j, ⟨hmem, hmem', hleast, hleast'⟩, (Option.some.inj h).symm⟩

/-! ### The invariant of the merge loop -/

/-- What the merge loop keeps: the builder's queue is the one of R138, its weights add up to the same total, and each node made
so far merges the two lowest. -/
structure Merging (leaves total : Nat) (b : Builder) : Prop where
  made : leaves ≤ b.next
  nodup : b.queue.Nodup
  queued : ∀ j, j ∈ b.queue ↔ Queued b.nodes leaves b.next j
  weight : (b.queue.map (weightAt b.nodes)).sum = total
  merged : ∀ n, leaves ≤ n → n < b.next → ∃ e, MergesLowest b.nodes leaves n e

section
variable (h : Merging leaves total b) {i j : Nat} (hc : TwoLowest b i j)
include h

theorem Merging.lt_next {j : Nat} (hj : j ∈ b.queue) : j < b.next := ((h.queued j).mp hj).1

include hc

theorem Merging.right_mem : j ≠ i ∧ j ∈ b.queue := h.nodup.mem_erase_iff.mp hc.right

/-- R144: the weights of the two merged nodes and of those left in the queue add up to the total. -/
theorem Merging.weight_split : weightAt b.nodes i + (weightAt b.nodes j +
    (((b.queue.erase i).erase j).map (weightAt b.nodes)).sum) = total := by
  have hperm : b.queue.Perm (i :: j :: (b.queue.erase i).erase j) :=
    (List.perm_cons_erase hc.left).trans ((List.perm_cons_erase hc.right).cons i)
  rw [← h.weight, (hperm.map _).sum_eq, List.map_cons, List.map_cons, List.sum_cons, List.sum_cons]

/-- R144: no 40-bit weight overflows. -/
theorem Merging.toNat_mergedWeight (htotal : total < 2 ^ 40) :
    (mergedWeight b.nodes i j).toNat = weightAt b.nodes i + weightAt b.nodes j := by
  have := h.weight_split hc
  rw [mergedWeight, BitVec.toNat_ofNat, Nat.mod_eq_of_lt (by omega)]

variable (hn : b.next < nodeCap)
include hn

theorem Merging.toNat_left : (mergedNode b i j).left.toNat = i := by
  have := h.lt_next hc.left
  simp only [mergedNode, internalNode, BitVec.toNat_ofNat, nodeCap] at hn ⊢
  omega

theorem Merging.toNat_right : (mergedNode b i j).right.toNat = j := by
  have := h.lt_next (h.right_mem hc).2
  simp only [mergedNode, internalNode, BitVec.toNat_ofNat, nodeCap] at hn ⊢
  omega

/-- R136, R138: the node that a round makes merges the two lowest queued nodes. -/
theorem Merging.mergesLowest (htotal : total < 2 ^ 40) :
    MergesLowest (mergeOf b i j).nodes leaves b.next (mergedNode b i j) := by
  have hkept : ∀ m, m < b.next → (mergeOf b i j).nodes[m]? = b.nodes[m]? := fun m hm => mergeOf_kept i j hm
  have hqueue : ∀ x, Queued (mergeOf b i j).nodes leaves b.next x ↔ x ∈ b.queue := fun x =>
    (queued_congr hkept).trans (h.queued x).symm
  have hleft := h.toNat_left hc hn
  have hright := h.toNat_right hc hn
  obtain ⟨hne, hj⟩ := h.right_mem hc
  have hki := hkept i (h.lt_next hc.left)
  have hkj := hkept j (h.lt_next hj)
  refine ⟨getElem?_setNode_same hn _, rfl, rfl, ?_, ?_, ?_, ?_, ?_⟩
  · rw [hleft, hright, weightAt_congr hki, weightAt_congr hkj]
    exact h.toNat_mergedWeight hc htotal
  · intro heq
    exact hne (by rw [← hleft, heq, hright])
  · rw [hleft, hqueue]
    exact hc.left
  · rw [hright, hqueue]
    exact hj
  · intro x hx hxi
    rw [hqueue] at hx
    rw [hleft] at hxi
    rw [hleft, hright, lower_congr hki (hkept x (h.lt_next hx)), lower_congr hkj (hkept x (h.lt_next hx))]
    exact ⟨lower_of_not_comesBefore (hc.leftLeast x hx) hxi,
      lower_of_not_comesBefore (hc.rightLeast x (h.nodup.mem_erase_iff.mpr ⟨hxi, hx⟩))⟩

/-- Each round keeps the invariant. -/
theorem Merging.merge (htotal : total < 2 ^ 40) : Merging leaves total (mergeOf b i j) := by
  have hkept : ∀ m, m < b.next → (mergeOf b i j).nodes[m]? = b.nodes[m]? := fun m hm => mergeOf_kept i j hm
  have hnew := h.mergesLowest hc hn htotal
  have hnotmem : b.next ∉ b.queue := fun hmem => (h.lt_next hmem).false
  have hmerged : ∀ n, leaves ≤ n → n < b.next + 1 → ∃ e, MergesLowest (mergeOf b i j).nodes leaves n e := by
    intro n hln hlt
    obtain rfl | hlt := (Nat.le_of_lt_succ hlt).eq_or_lt
    · exact ⟨_, hnew⟩
    · obtain ⟨e, he⟩ := h.merged n hln hlt
      exact ⟨e, he.congr fun m hm => hkept m (hm.trans_lt hlt)⟩
  refine ⟨h.made.trans (Nat.le_succ _), ?_, fun x => ?_, ?_, hmerged⟩
  · rw [mergeOf_queue, List.nodup_append_comm]
    exact ((h.nodup.erase i).erase j).cons fun hmem => hnotmem (List.mem_of_mem_erase (List.mem_of_mem_erase hmem))
  · rw [mergeOf_queue, mergeOf_next, queued_succ hmerged h.made hnew.entry, h.toNat_left hc hn, h.toNat_right hc hn,
      queued_congr hkept, ← h.queued x, List.mem_append, List.mem_singleton, (h.nodup.erase i).mem_erase_iff,
      h.nodup.mem_erase_iff]
    tauto
  · have hrest : ((b.queue.erase i).erase j).map (weightAt (mergeOf b i j).nodes) =
        ((b.queue.erase i).erase j).map (weightAt b.nodes) :=
      List.map_congr_left fun x hx =>
        weightAt_congr (hkept x (h.lt_next (List.mem_of_mem_erase (List.mem_of_mem_erase hx))))
    have hlast : weightAt (mergeOf b i j).nodes b.next = weightAt b.nodes i + weightAt b.nodes j := by
      rw [weightAt, hnew.entry]
      exact h.toNat_mergedWeight hc htotal
    rw [mergeOf_queue, List.map_append, hrest, List.sum_append, List.map_singleton, List.sum_singleton, hlast,
      ← h.weight_split hc]
    omega

end

/-- R137: before the first merge the queue holds the leaves. -/
theorem merging_of_leaves (hq : b.queue = List.range b.next) :
    Merging b.next ((List.range b.next).map (weightAt b.nodes)).sum b where
  made := le_rfl
  nodup := hq ▸ List.nodup_range
  queued j := by
    rw [hq, List.mem_range]
    exact ⟨fun hj => ⟨hj, fun m e hm hmn => by omega⟩, fun hj => hj.1⟩
  weight := by rw [hq]
  merged n hn hlt := by omega

/-! ### The merges of BUILD_TREE -/

/-- The weight of the leaves of BUILD_TREE (R137, R144): EOS, and the counters. -/
def totalWeight (s : State) : Nat := 1 + (allBytes.map fun b => (histAt s b).toNat).sum

/-- R144: the weights of a built tree fit in 40 bits. -/
theorem totalWeight_lt (s : State) : totalWeight s < 2 ^ 40 := by
  have hle : ∀ x ∈ allBytes.map fun b => (histAt s b).toNat, x ≤ 2 ^ 32 - 1 := by
    intro x hx
    obtain ⟨b, -, rfl⟩ := List.mem_map.mp hx
    have := (histAt s b).isLt
    omega
  have := List.sum_le_card_nsmul _ _ hle
  rw [List.length_map, allBytes_length, smul_eq_mul] at this
  rw [totalWeight]
  omega

theorem weights_buildLeaves (s : State) :
    ((List.range (leafCount s)).map (weightAt (buildLeaves s).nodes)).sum = totalWeight s := by
  have hmap : (List.range (leafCount s)).map (weightAt (buildLeaves s).nodes) =
      (leafNodes s).map fun e => e.weight.toNat := by
    refine List.ext_getElem (by simp) fun k hk hk' => ?_
    have hleaf : k < leafCount s := by simpa using hk
    simp [weightAt, buildLeaves_nodes s hleaf, leafNodes_length, hleaf]
  have hcount : ∀ b : Byte, (byteLeaf s b).weight.toNat = (histAt s b).toNat := fun b =>
    BitVec.toNat_setWidth_of_le (by decide)
  have hsum : ((occurring s).map fun b => (histAt s b).toNat).sum = (allBytes.map fun b => (histAt s b).toNat).sum := by
    rw [← List.sum_filter_bne_zero (allBytes.map _), List.filter_map, occurring]
    refine congrArg (fun bytes => (List.map _ bytes).sum) (List.filter_congr fun b _ => ?_)
    rw [Bool.eq_iff_iff]
    simp [BitVec.toNat_eq]
  rw [hmap, leafNodes, List.map_append, List.map_map, List.sum_append, totalWeight, ← hsum, Nat.add_comm]
  simp only [Function.comp_def, hcount]
  rfl

/-- R138, R139: the merge loop of BUILD_TREE keeps its invariant to the end. -/
theorem merging_buildMerged (s : State) : Merging (leafCount s) (totalWeight s) (buildMerged s) := by
  refine (mergeLoop_keeps (P := fun b => (∃ trees, Forest b trees (builtSymbols s)) ∧
    Merging (leafCount s) (totalWeight s) b) ?_ _ _ ⟨forest_buildLeaves s, ?_⟩).2
  · rintro b b' ⟨⟨trees, hf⟩, h⟩ hm
    refine ⟨hf.merge (builtSymbols_length_le s) hm, ?_⟩
    obtain ⟨i, j, hc, rfl⟩ := mergeStep_lowest hm
    have hn : b.next < nodeCap := by
      have hsum := hf.next_add_length
      have hlen := List.length_erase_of_mem hc.left
      have hpos := List.length_pos_of_mem hc.right
      have := builtSymbols_length_le s
      simp only [symbolCount, nodeCap] at this ⊢
      omega
    exact h.merge hc hn (totalWeight_lt s)
  · have := merging_of_leaves (b := buildLeaves s) (by rw [buildLeaves_queue, buildLeaves_next])
    rwa [buildLeaves_next, weights_buildLeaves] at this

/-- R139, R140: `2L - 1` nodes are made, and the last one is what is left in the queue. -/
theorem buildMerged_end (s : State) :
    (buildMerged s).next = 2 * leafCount s - 1 ∧ (buildMerged s).queue = [2 * leafCount s - 2] := by
  obtain ⟨t, h⟩ := forest_buildMerged s
  have hqueue : (buildMerged s).queue = [t.index] := List.perm_singleton.mp h.roots.symm
  have hnext := h.next_add_length
  have hlast : (buildMerged s).next - 1 = t.index := by simpa [hqueue] using h.last
  rw [hqueue, builtSymbols_length, List.length_singleton] at hnext
  exact ⟨by omega, by rw [hqueue, ← hlast]; congr 1; omega⟩

theorem toNat_nodeCount_buildTree (s : State) : (buildTree s).nodeCount.toNat = 2 * leafCount s - 1 := by
  have := (leafCount_range s).2
  rw [buildTree_nodeCount, (buildMerged_end s).1, BitVec.toNat_ofNat, Nat.mod_eq_of_lt (by omega)]

theorem toNat_root_buildTree (s : State) : (buildTree s).root.toNat = 2 * leafCount s - 2 := by
  have := (leafCount_range s).2
  rw [buildTree_root, (buildMerged_end s).2, List.headD_cons, BitVec.toNat_ofNat, Nat.mod_eq_of_lt (by omega)]

theorem grows_buildMerged (s : State) : Grows (buildLeaves s) (buildMerged s) := grows_mergeLoop _ _

/-- R137: the leaves are still there when the tree is built. -/
theorem buildTree_leaf (s : State) {k : Nat} (hk : k < leafCount s) : (buildTree s).nodes[k]? = (leafNodes s)[k]? := by
  rw [buildTree_nodes, (grows_buildMerged s).kept k (.inl (by rwa [buildLeaves_next])), buildLeaves_nodes s hk]

/-- Entries at or above `NODE_COUNT` are kept (assumption log 24). -/
theorem buildTree_kept (s : State) {k : Nat} (hk : (buildTree s).nodeCount.toNat ≤ k) :
    (buildTree s).nodes[k]? = s.nodes[k]? := by
  have hgrows : Grows ⟨s.nodes, 0, []⟩ (buildMerged s) :=
    (buildLeaves_eq s ▸ grows_addNodes (leafNodes s) _).trans (grows_buildMerged s)
  rw [toNat_nodeCount_buildTree, ← (buildMerged_end s).1] at hk
  exact hgrows.kept k (.inr hk)

/-- R138: the nodes from `L` on are merges. -/
theorem buildTree_merge (s : State) {n : Nat} (hn : leafCount s ≤ n) (hlt : n < (buildTree s).nodeCount.toNat) :
    ∃ e, MergesLowest (buildTree s).nodes (leafCount s) n e := by
  rw [toNat_nodeCount_buildTree, ← (buildMerged_end s).1] at hlt
  exact (merging_buildMerged s).merged n hn hlt

end Sys2Proof
end

section
/-! PROOFS. BUILD_TREE (41_tree_builder.md rules R135 to R140, R147). -/

namespace Sys2Proof
open Machine

theorem exec_buildTree (s : State) : exec .buildTree s = .next (buildTree s) := rfl

/-- Settles O33: the leaves are the first nodes made, and making nodes keeps the entries behind the last. -/
theorem buildTreeMakesTheLeaves : Obligations.BuildTreeMakesTheLeaves := by
  refine ⟨rfl, fun s => ⟨buildTree s, exec_buildTree s, rfl, fun j hj => ?_, ?_, fun j hj => buildTree_kept s hj⟩⟩
  · rw [buildTree_leaf s (hj.trans (Nat.lt_succ_self _)), leafNodes, List.getElem?_append_left (by simpa using hj)]
    simp [hj, byteLeaf, leafNode]
  · rw [buildTree_leaf s (Nat.lt_succ_self _), leafNodes, List.getElem?_append_right (by simp)]
    simp [leafNode]

/-- Settles O34: every node behind the leaves was made by a round of the merge loop. -/
theorem buildTreeMergesTheTwoLowest : Obligations.BuildTreeMergesTheTwoLowest := by
  refine fun s => ⟨buildTree s, exec_buildTree s, toNat_nodeCount_buildTree s, ?_, fun n hn hlt => ?_⟩
  · rw [toNat_root_buildTree, toNat_nodeCount_buildTree]
    omega
  · obtain ⟨e, h⟩ := buildTree_merge s hn hlt
    exact ⟨e, h.entry, h.internal, h.sym, h.weight, h.distinct, h.left, h.right, h.lowest⟩

/-- R140: a path of a full binary tree is shorter than the tree has leaves. -/
theorem Tree.path_length_lt (t : Tree) : ∀ x ∈ t.leaves, x.2.length < t.leaves.length := by
  induction t with
  | leaf i sym => simp [Tree.leaves]
  | node i l r hl hr =>
    have := l.size_leaves
    have := r.size_leaves
    intro x hx
    simp only [Tree.leaves, List.mem_append, List.mem_map, List.length_append, List.length_map] at hx ⊢
    obtain ⟨y, hy, rfl⟩ | ⟨y, hy, rfl⟩ := hx
    · have := hl y hy
      rw [List.length_cons]
      omega
    · have := hr y hy
      rw [List.length_cons]
      omega

/-- R137: an internal node of a built tree is none of the first `L` nodes. -/
theorem leafCount_le_of_internal {s : State} {i : Nat} {e : Node} (he : (buildTree s).nodes[i]? = some e)
    (hinternal : e.leaf = false) : leafCount s ≤ i := by
  by_contra hlt
  rw [buildTree_leaf s (Nat.lt_of_not_le hlt)] at he
  have hleaf : ∀ e ∈ leafNodes s, e.leaf = true := by
    intro e hmem
    rw [leafNodes, List.mem_append, List.mem_map, List.mem_singleton] at hmem
    obtain ⟨b, -, rfl⟩ | rfl := hmem <;> rfl
  simp [hleaf e (List.mem_of_getElem? he)] at hinternal

/-- R138: the children of a built tree's node are made before it. -/
theorem buildTree_children_lt {s : State} {i : Nat} {e : Node} (hi : i < (buildTree s).nodeCount.toNat)
    (he : (buildTree s).nodes[i]? = some e) (hinternal : e.leaf = false) : e.left.toNat < i ∧ e.right.toNat < i := by
  obtain ⟨e', h⟩ := buildTree_merge s (leafCount_le_of_internal he hinternal) hi
  obtain rfl := Option.some.inj (h.entry.symm.trans he)
  exact ⟨h.left.1, h.right.1⟩

/-- R139, R144: the root, alone in the queue, has all the weight. -/
theorem weight_root_buildTree (s : State) : weightAt (buildTree s).nodes (buildTree s).root.toNat = totalWeight s := by
  rw [toNat_root_buildTree, buildTree_nodes, ← (merging_buildMerged s).weight, (buildMerged_end s).2, List.map_singleton,
    List.sum_singleton]

/-- Settles O35: the tree in the node memory has the leaves made, and its shape is that of the merges. -/
theorem buildTreeShape : Obligations.BuildTreeShape := by
  intro s
  obtain ⟨t, hfits, hsyms⟩ := buildTree_fits s
  have hleaves : t.leaves.length = leafCount s := by
    rw [← builtSymbols_length, ← hsyms.length_eq, Tree.symbols, List.length_map]
  refine ⟨buildTree s, t, exec_buildTree s, hfits, hleaves, (leafCount_range s).1, (leafCount_range s).2,
    toNat_nodeCount_buildTree s, toNat_root_buildTree s, hsyms, fun x hx => ?_,
    fun i e hi he hl => buildTree_children_lt hi he hl, weight_root_buildTree s⟩
  exact Nat.le_sub_one_of_lt (hleaves ▸ t.path_length_lt x hx)

/-- Settles O36: the builders of the two states agree on every node made. -/
theorem buildTreeDependsOnHistOnly : Obligations.BuildTreeDependsOnHistOnly := by
  intro s s' hhist
  have h := buildMerged_alike hhist.symm
  refine ⟨buildTree s, buildTree s', exec_buildTree s, exec_buildTree s', ?_, ?_, fun i hi => h.nodes i ?_⟩
  · rw [buildTree_nodeCount, buildTree_nodeCount, h.next]
  · rw [buildTree_root, buildTree_root, h.queue]
  · rwa [toNat_nodeCount_buildTree, ← (buildMerged_end s).1] at hi

end Sys2Proof
end

section
/-! SUPPORT. The codes of a tree, and how GEN_CODES and EMIT_HEADER follow the tree in the node memory (42_encoder.md rules R171
to R174, R180). -/

namespace Sys2Proof
open Machine

/-! ### Bit strings as numbers -/

theorem bitsValue_cons (b : Bool) (bits : List Bool) : bitsValue (b :: bits) = b.toNat * 2 ^ bits.length + bitsValue bits := by
  rw [← List.singleton_append, bitsValue_append]
  cases b <;> rfl

/-- Bit strings of one length are told apart by their numbers (R74). -/
theorem bitsValue_injective : ∀ {xs ys : List Bool}, xs.length = ys.length → bitsValue xs = bitsValue ys → xs = ys
  | [], [], _, _ => rfl
  | x :: xs, y :: ys, hlen, h => by
    replace hlen : xs.length = ys.length := Nat.succ.inj hlen
    have hx := bitsValue_lt xs
    have hy := bitsValue_lt ys
    rw [bitsValue_cons, bitsValue_cons] at h
    rw [hlen] at h hx
    have hhead : x = y := by
      cases x <;> cases y <;> simp at h ⊢ <;> omega
    subst hhead
    rw [bitsValue_injective hlen (Nat.add_left_cancel h)]

/-- R43: a code entry with room for the code stands for the code. -/
theorem entryBits_codeEntry {path : List Bool} (h : path.length ≤ 256) : entryBits (codeEntry (some path)) = path := by
  have hlen : (BitVec.ofNat 9 path.length).toNat = path.length := by
    rw [BitVec.toNat_ofNat]
    omega
  have hbits : bitsValue path < 2 ^ path.length := bitsValue_lt path
  refine bitsValue_injective (by simp [entryBits, codeEntry, hlen]) ?_
  have hroom : bitsValue path < 2 ^ 256 := hbits.trans_le (Nat.pow_le_pow_right (by decide) h)
  rw [entryBits, codeEntry, bitsValue_msbBits, hlen, BitVec.toNat_ofNat, Nat.mod_eq_of_lt hroom, Nat.mod_eq_of_lt hbits]

/-! ### The codes of a tree -/

/-- The codes of a tree belong to its leaves (R171, R173). -/
theorem Tree.codes_symbols (t : Tree) : t.codes.map Prod.fst = t.symbols := by
  cases t <;> rfl

theorem Tree.codeFor_eq_none {t : Tree} {sym : Sym} : t.codeFor sym = none ↔ sym ∉ t.symbols := by
  rw [← t.codes_symbols, Tree.codeFor, List.lookup_eq_none_iff]
  simp only [List.mem_reverse, List.mem_map, bne_iff_ne]
  exact ⟨fun h ⟨x, hx, heq⟩ => h x hx heq.symm, fun h x hx heq => h ⟨x, hx, heq.symm⟩⟩

/-- R20, R116: a symbol has a code where it has a leaf. -/
theorem Tree.codeFor_isSome {t : Tree} {sym : Sym} : (t.codeFor sym).isSome = true ↔ sym ∈ t.symbols := by
  rw [Option.isSome_iff_ne_none, ne_eq, Tree.codeFor_eq_none, not_not]

theorem Tree.mem_codes_of_codeFor {t : Tree} {sym : Sym} {path : List Bool} (h : t.codeFor sym = some path) :
    (sym, path) ∈ t.codes := by
  obtain ⟨l, k, hsplit, -⟩ := List.lookup_eq_some_iff.mp h
  exact List.mem_reverse.mp (hsplit ▸ by simp)

/-- R173: no code is empty. -/
theorem Tree.one_le_code_length (t : Tree) : ∀ x ∈ t.codes, 1 ≤ x.2.length := by
  cases t with
  | leaf i sym => simp [Tree.codes]
  | node i l r =>
    intro x hx
    simp only [Tree.codes, Tree.leaves, List.mem_append, List.mem_map] at hx
    obtain ⟨y, -, rfl⟩ | ⟨y, -, rfl⟩ := hx <;> simp

/-- R140: a code is no longer than the number of leaves, less 1 where there are two. -/
theorem Tree.code_length_le (t : Tree) : ∀ x ∈ t.codes, x.2.length ≤ max 1 (t.leaves.length - 1) := by
  cases t with
  | leaf i sym => simp [Tree.codes]
  | node i l r =>
    intro x hx
    have := Tree.path_length_lt _ x hx
    omega

/-- R174: a leaf's path begins no other leaf's path. -/
theorem Tree.eq_of_path_prefix (t : Tree) : ∀ x ∈ t.leaves, ∀ y ∈ t.leaves, x.2 <+: y.2 → x = y := by
  induction t with
  | leaf i sym => simp [Tree.leaves]
  | node i l r hl hr =>
    intro x hx y hy hprefix
    simp only [Tree.leaves, List.mem_append, List.mem_map] at hx hy
    obtain ⟨x, hx, rfl⟩ | ⟨x, hx, rfl⟩ := hx <;> obtain ⟨y, hy, rfl⟩ | ⟨y, hy, rfl⟩ := hy <;>
      simp only [List.cons_prefix_cons, reduceCtorEq, false_and, true_and] at hprefix
    · rw [hl x hx y hy hprefix]
    · rw [hr x hx y hy hprefix]

theorem Tree.eq_of_code_prefix (t : Tree) : ∀ x ∈ t.codes, ∀ y ∈ t.codes, x.2 <+: y.2 → x = y := by
  cases t with
  | leaf i sym => simp [Tree.codes]
  | node i l r => exact Tree.eq_of_path_prefix _

/-! ### The walks over the node memory -/

variable {nodes : Vector Node nodeCap} {codes : Vector CodeEntry symbolCount} {s : State} {t : Tree}

theorem nodeAt_of_getElem? {i : NodeIdx} {e : Node} (h : nodes[i.toNat]? = some e) : nodeAt nodes i = .ok e := by
  obtain ⟨hi, rfl⟩ := Vector.getElem?_eq_some_iff.mp h
  exact nodeAt_ok hi nodes

/-- A leaf's symbol is that of the entry at its index (R41). -/
theorem treeAt_symbols {d i : Nat} (h : treeAt nodes d i = some t) : ∀ sym ∈ t.symbols,
    ∃ j ∈ t.indices, ∃ e, nodes[j]? = some e ∧ e.leaf = true ∧ e.sym = sym := by
  induction d generalizing i t with
  | zero => simp [treeAt] at h
  | succ d ih =>
    intro sym hsym
    obtain ⟨e, he, ⟨hl, rfl⟩ | ⟨-, l, r, hleft, hright, rfl⟩⟩ := treeAt_step h
    · exact ⟨i, by simp, e, he, hl, (List.mem_singleton.mp hsym).symm⟩
    · rw [Tree.symbols_node, List.mem_append] at hsym
      obtain hsym | hsym := hsym
      · obtain ⟨j, hj, hentry⟩ := ih hleft sym hsym
        exact ⟨j, by simp [hj], hentry⟩
      · obtain ⟨j, hj, hentry⟩ := ih hright sym hsym
        exact ⟨j, by simp [hj], hentry⟩

/-- R51: the leaf symbols of a state's tree are symbol ids. -/
theorem TreeFits.symbol_le (h : TreeFits s t) : ∀ sym ∈ t.symbols, sym.toNat ≤ 256 := by
  intro sym hsym
  obtain ⟨j, hj, e, he, hl, rfl⟩ := treeAt_symbols h.rooted sym hsym
  obtain ⟨hcap, rfl⟩ := Vector.getElem?_eq_some_iff.mp he
  exact ((h.entries j hcap (List.mem_range.mp (h.exact.mem_iff.mp hj))).1 hl).1

/-- R42, R140, R224: a state's tree has at most 257 leaves. -/
theorem TreeFits.leaves_le (h : TreeFits s t) : t.leaves.length ≤ 257 := by
  have hsize : t.size = s.nodeCount.toNat := h.exact.length_eq.trans List.length_range
  have hleaves := t.size_leaves
  have hcount := h.nodeCount_range.2
  simp only [nodeCap] at hcount
  omega

/-- R43: the codes of a state's tree have 1 to 256 bits. -/
theorem TreeFits.code_length (h : TreeFits s t) : ∀ x ∈ t.codes, 1 ≤ x.2.length ∧ x.2.length ≤ 256 := by
  intro x hx
  have := t.code_length_le x hx
  have := h.leaves_le
  exact ⟨t.one_le_code_length x hx, by omega⟩

/-- One code written into the code table (R171). -/
def storeCode (codes : Vector CodeEntry symbolCount) (x : Sym × List Bool) : Vector CodeEntry symbolCount :=
  codes.setIfInBounds x.1.toNat (codeEntry (some x.2))

theorem setCode_eq_storeCode {sym : Sym} (h : sym.toNat ≤ 256) (path : List Bool) (codes : Vector CodeEntry symbolCount) :
    setCode sym path.length (BitVec.ofNat 256 (bitsValue path)) codes = .ok (storeCode codes (sym, path)) := by
  have hlt : sym.toNat < symbolCount := Nat.lt_succ_of_le h
  rw [setCode, dif_pos hlt]
  refine congrArg _ (Vector.ext fun i hi => ?_)
  simp [storeCode, codeEntry, Vector.getElem_set, Vector.getElem_setIfInBounds]

/-- R171: an edge appends its bit to the path. -/
theorem ofNat_bitsValue_append (path : List Bool) (b : Bool) :
    BitVec.ofNat 256 (bitsValue (path ++ [b])) = 2#256 * BitVec.ofNat 256 (bitsValue path) + BitVec.ofNat 256 b.toNat := by
  have hb : bitsValue [b] = b.toNat := by cases b <;> rfl
  rw [bitsValue_append, hb, List.length_singleton, pow_one, Nat.mul_comm, BitVec.ofNat_add, BitVec.ofNat_mul]

/-- R171: below a node reached by `path`, `Visit` writes the leaves' codes in preorder. -/
theorem visitCodes_eq {d : Nat} {i : NodeIdx} (h : treeAt nodes d i.toNat = some t)
    (hsyms : ∀ sym ∈ t.symbols, sym.toNat ≤ 256) (path : List Bool) (codes : Vector CodeEntry symbolCount) :
    visitCodes nodes d i path.length (BitVec.ofNat 256 (bitsValue path)) codes =
      .ok ((t.leaves.map fun x => (x.1, path ++ x.2)).foldl storeCode codes) := by
  induction d generalizing i t path codes with
  | zero => simp [treeAt] at h
  | succ d ih =>
    obtain ⟨e, he, ⟨hl, rfl⟩ | ⟨hl, l, r, hleft, hright, rfl⟩⟩ := treeAt_step h
    · simp [visitCodes, nodeAt_of_getElem? he, hl, setCode_eq_storeCode (hsyms e.sym (by simp)), Tree.leaves]
    · have hl' := ih hleft (fun sym hsym => hsyms sym (by simp [hsym])) (path ++ [false]) codes
      have hr' := ih hright (fun sym hsym => hsyms sym (by simp [hsym])) (path ++ [true])
      simp only [ofNat_bitsValue_append, List.length_append, List.length_singleton, Bool.toNat_false, Bool.toNat_true,
        BitVec.add_zero] at hl' hr'
      simp [visitCodes, nodeAt_of_getElem? he, hl, hl', hr', Tree.leaves, Function.comp_def]

/-- R171, R173: GEN_CODES clears the code table and writes the tree's codes in preorder. -/
theorem codeTable_eq {root : NodeIdx} (h : treeAt nodes nodeCap root.toNat = some t)
    (hsyms : ∀ sym ∈ t.symbols, sym.toNat ≤ 256) : codeTable nodes root = .ok (t.codes.foldl storeCode noCodes) := by
  have hvisit := visitCodes_eq h hsyms [] noCodes
  obtain ⟨e, he, ⟨hl, rfl⟩ | ⟨hl, l, r, -, -, rfl⟩⟩ := treeAt_step h
  · rw [codeTable, nodeAt_of_getElem? he]
    simp only [hl, if_true]
    exact setCode_eq_storeCode (hsyms e.sym (by simp)) [false] noCodes
  · rw [codeTable, nodeAt_of_getElem? he]
    simp only [List.length_nil, List.nil_append, List.map_id'] at hvisit
    simp only [hl, Bool.false_eq_true, if_false]
    exact hvisit

/-- R171 (decision D20): of the codes of one symbol, the last one written stays. -/
theorem getElem?_foldl_storeCode {sym : Sym} (h : sym.toNat ≤ 256) (xs : List (Sym × List Bool)) :
    (xs.foldl storeCode noCodes)[sym.toNat]? = some (codeEntry (xs.reverse.lookup sym)) := by
  have hlt : sym.toNat < symbolCount := Nat.lt_succ_of_le h
  induction xs using List.reverseRecOn with
  | nil => simp [noCodes, codeEntry, hlt]
  | append_singleton xs x ih =>
    rw [List.foldl_append, List.reverse_append]
    obtain ⟨sym', path⟩ := x
    by_cases heq : sym = sym'
    · subst heq
      simp [storeCode, hlt]
    · have hne : sym'.toNat ≠ sym.toNat := fun h => heq (BitVec.eq_of_toNat_eq h.symm)
      have hbeq : (sym == sym') = false := beq_false_of_ne heq
      simpa [storeCode, hne, List.lookup_cons, hbeq] using ih

/-- The code table holds the codes of a tree (R43, R171). -/
def HoldsCodes (codes : Vector CodeEntry symbolCount) (t : Tree) : Prop :=
  ∀ sym : Sym, sym.toNat ≤ 256 → codes[sym.toNat]? = some (codeEntry (t.codeFor sym))

/-- R171: the code table that GEN_CODES computes from a state's tree holds the tree's codes. -/
theorem codeTable_of_treeFits (h : TreeFits s t) : ∃ codes, codeTable s.nodes s.root = .ok codes ∧ HoldsCodes codes t :=
  ⟨_, codeTable_eq h.rooted h.symbol_le, fun _ hsym => getElem?_foldl_storeCode hsym t.codes⟩

/-- R180: `Ser` follows the tree. -/
theorem serializeTree_eq {d : Nat} {i : NodeIdx} (h : treeAt nodes d i.toNat = some t) :
    serializeTree nodes d i = .ok t.bits := by
  induction d generalizing i t with
  | zero => simp [treeAt] at h
  | succ d ih =>
    obtain ⟨e, he, ⟨hl, rfl⟩ | ⟨hl, l, r, hleft, hright, rfl⟩⟩ := treeAt_step h
    · simp [serializeTree, nodeAt_of_getElem? he, hl, Tree.bits]
    · simp [serializeTree, nodeAt_of_getElem? he, hl, ih hleft, ih hright, Tree.bits]

/-! ### Reading the code table -/

theorem codeOf_eq_some {sym : Sym} {c : CodeEntry} (h : s.codes[sym.toNat]? = some c) (hv : c.valid = true) :
    codeOf s sym = some c := by
  simp [codeOf, h, hv]

/-- R43, R175: a symbol with no entry, or with an invalid one, has no code. -/
theorem codeOf_eq_none {sym : Sym} (h : 256 < sym.toNat ∨ ∃ c, s.codes[sym.toNat]? = some c ∧ c.valid = false) :
    codeOf s sym = none := by
  obtain hout | ⟨c, hc, hv⟩ := h
  · have hnone : s.codes[sym.toNat]? = none := Vector.getElem?_eq_none (Nat.succ_le_of_lt hout)
    simp [codeOf, hnone]
  · simp [codeOf, hc, hv]

/-- R43, R171: the code that the code table has of a symbol is the tree's. -/
theorem codeOf_of_holdsCodes (h : HoldsCodes s.codes t) {sym : Sym} (hsym : sym.toNat ≤ 256) :
    codeOf s sym = (t.codeFor sym).map fun path => codeEntry (some path) := by
  have hentry := h sym hsym
  cases hcode : t.codeFor sym with
  | none =>
    rw [hcode] at hentry
    exact codeOf_eq_none (.inr ⟨_, hentry, rfl⟩)
  | some path =>
    rw [hcode] at hentry
    exact codeOf_eq_some hentry rfl

end Sys2Proof
end

section
/-! PROOFS. The encoder's code table and header, the inspection of the code table, and the emission of codes (42_encoder.md rules
R171 to R187). -/

namespace Sys2Proof
open Machine

variable {s : State} {t : Tree} {codes : Vector CodeEntry symbolCount}

/-! ### Preconditions -/

/-- R306: without a tree a command that needs one latches NO_TREE, and changes nothing else. -/
theorem finish_needTree_invalid {opc : Byte} {k : State → Run Unit} (hv : s.treeValid = false) :
    finish opc (needTree s k) = .next { s with errCode := 5#4, errOpc := opc } := by
  rw [needTree_invalid hv]
  rfl

/-- R307: without codes a command that needs them latches NO_CODES, and changes nothing else. -/
theorem finish_needCodes_invalid {opc : Byte} {k : State → Run Unit} (hv : s.codesValid = false) :
    finish opc (needCodes s k) = .next { s with errCode := 6#4, errOpc := opc } := by
  rw [needCodes_invalid hv]
  rfl

/-! ### GEN_CODES -/

/-- GEN_CODES's last line (R171). -/
def setCodes (codes : Vector CodeEntry symbolCount) (s : State) : State := { s with codes := codes, codesValid := true }

theorem TreeFits.setCodes (h : TreeFits s t) (codes : Vector CodeEntry symbolCount) : TreeFits (setCodes codes s) t :=
  h.congr rfl rfl rfl rfl

theorem genCodes_eq (hv : s.treeValid = true) (h : codeTable s.nodes s.root = .ok codes) :
    genCodes s = .ok () (setCodes codes s) := by
  simp only [genCodes, needTree_valid hv, h, setCodes]

/-- R171: GEN_CODES with a tree writes the tree's codes, and changes nothing else. -/
theorem genCodes_of_treeFits (hv : s.treeValid = true) (h : TreeFits s t) : ∃ codes, HoldsCodes codes t ∧
    genCodes s = .ok () (setCodes codes s) := by
  obtain ⟨codes, htable, hholds⟩ := codeTable_of_treeFits h
  exact ⟨codes, hholds, genCodes_eq hv htable⟩

/-- Settles O38: the codes in the table are the tree's, whose paths are shorter than the tree has leaves. -/
theorem genCodesWritesTheCodes : Obligations.GenCodesWritesTheCodes := by
  refine ⟨rfl, fun s hv => finish_needTree_invalid hv, fun s t hv h => ⟨h.code_length, ?_⟩⟩
  obtain ⟨codes, hholds, hrun⟩ := genCodes_of_treeFits hv h
  exact ⟨codes, by rw [exec_eq_finish, commandRun, hrun, finish_ok, setCodes], hholds⟩

/-- A valid entry of a table that holds a tree's codes is that of a code of the tree. -/
theorem HoldsCodes.exists_code (h : HoldsCodes codes t) {a : Nat} {c : CodeEntry} (hc : codes[a]? = some c)
    (hv : c.valid = true) : ∃ sym path, sym.toNat = a ∧ (sym, path) ∈ t.codes ∧ c = codeEntry (some path) := by
  have ha : a < 257 := (Vector.getElem?_eq_some_iff.mp hc).1
  have hsym : (BitVec.ofNat 9 a).toNat = a := by
    rw [BitVec.toNat_ofNat]
    omega
  have hentry := h (BitVec.ofNat 9 a) (by omega)
  rw [hsym, hc, Option.some.injEq] at hentry
  cases hcode : t.codeFor (BitVec.ofNat 9 a) with
  | none => simp [hentry, hcode, codeEntry, CodeEntry.none] at hv
  | some path => exact ⟨_, path, hsym, Tree.mem_codes_of_codeFor hcode, hcode ▸ hentry⟩

/-- Settles O39: two valid entries stand for the codes of two leaves, and a leaf's path begins no other leaf's path. -/
theorem codesArePrefixFree : Obligations.CodesArePrefixFree := by
  intro s t hv h _
  obtain ⟨codes, hholds, hrun⟩ := genCodes_of_treeFits hv h
  refine ⟨_, by rw [exec_eq_finish, commandRun, hrun, finish_ok], fun a b c d hne hc hd hcv hdv hprefix => ?_⟩
  obtain ⟨sym, path, rfl, hmem, rfl⟩ := hholds.exists_code hc hcv
  obtain ⟨sym', path', rfl, hmem', rfl⟩ := hholds.exists_code hd hdv
  rw [entryBits_codeEntry (h.code_length _ hmem).2, entryBits_codeEntry (h.code_length _ hmem').2] at hprefix
  exact hne (congrArg (fun x => x.1.toNat) (t.eq_of_code_prefix _ hmem _ hmem' hprefix))

/-! ### EMIT_HEADER -/

/-- R180, R114: the magic number, then the serialized tree. -/
theorem writeHeader_eq (magic : Word) (hv : s.treeValid = true) (h : TreeFits s t) :
    writeHeader magic s = .ok () (appendOut (msbBits 32 magic ++ t.bits) s) := by
  rw [writeHeader, needTree_valid hv, serializeTree_eq h.rooted]
  simp only [writeBits, appendOut, List.append_assoc]

theorem exec_emitHeader_tree (s : State) :
    exec (.emitHeader .tree) s = finish 0x23#8 (writeHeader Config.magicTree s) := rfl

/-- Settles O42: the header is the magic number and the serialization of the tree, whose length its leaves give. -/
theorem emitHeaderWritesTheHeader : Obligations.EmitHeaderWritesTheHeader := by
  refine ⟨rfl, rfl, fun _ => rfl, fun s hv => ?_, fun s t hv h => ⟨?_, ?_⟩⟩
  · exact (exec_emitHeader_tree s).trans (finish_needTree_invalid hv)
  · rw [exec_emitHeader_tree, writeHeader_eq _ hv h]
    rfl
  · have := t.bits_length
    rw [List.length_append, msbBits_length]
    omega

/-! ### CODE_LEN and CODE_BITS -/

/-- R175: bit 31, and the length below it. -/
theorem toNat_codeLenWord {sym : Sym} {c : CodeEntry} (h : codeOf s sym = some c) :
    (codeLenWord sym s).toNat = 2 ^ 31 + c.len.toNat := by
  have hlen : c.len.toNat < 2 ^ 31 := c.len.isLt.trans (by decide)
  rw [codeLenWord, h, BitVec.toNat_or, BitVec.toNat_setWidth_of_le (by decide)]
  exact (Nat.two_pow_add_eq_or_of_lt hlen 1).symm

/-- Settles O40: the word of the symbol's entry in the code table. -/
theorem codeLenReads : Obligations.CodeLenReads := by
  refine fun sym => ⟨append_eq_or_operand 15 0x21#8 sym, fun s hv => finish_needCodes_invalid hv,
    fun s c hv hc hvalid => ?_, fun s hv hnone => ?_⟩
  · refine ⟨codeLenWord sym s, toNat_codeLenWord (codeOf_eq_some hc hvalid), ?_⟩
    rw [exec_eq_finish, commandRun, needCodes_valid hv, finish_ok]
  · rw [exec_eq_finish, commandRun, needCodes_valid hv, finish_ok, codeLenWord, codeOf_eq_none hnone]

/-- R176: 32 bits of the code from bit 32w up. -/
theorem toNat_codeBitsWord {sym : Sym} {c : CodeEntry} (w : BitVec 3) (h : codeOf s sym = some c) :
    (codeBitsWord sym w s).toNat = c.bits.toNat / 2 ^ (32 * w.toNat) % 2 ^ 32 := by
  rw [codeBitsWord, h]
  simp only [BitVec.extractLsb'_toNat, Nat.shiftRight_eq_div_pow]

theorem encode_codeBits (sym : Sym) (w : BitVec 3) :
    encode (.codeBits sym w) = 0x22000000#32 ||| (w.setWidth 32 <<< 9) ||| sym.setWidth 32 := by
  have hfields : (w ++ sym).setWidth 32 = w.setWidth 32 <<< 9 ||| sym.setWidth 32 :=
    BitVec.setWidth_append_eq_shiftLeft_setWidth_or
  rw [encode, operandField_codeBits, BitVec.or_assoc, ← hfields]
  exact append_eq_or_operand 12 0x22#8 (w ++ sym)

/-- Settles O41: the word of the symbol's entry in the code table. -/
theorem codeBitsReads : Obligations.CodeBitsReads := by
  refine fun sym w => ⟨encode_codeBits sym w, fun s hv => finish_needCodes_invalid hv,
    fun s c hv hc hvalid => ?_, fun s hv hnone => ?_⟩
  · refine ⟨codeBitsWord sym w s, toNat_codeBitsWord w (codeOf_eq_some hc hvalid), ?_⟩
    rw [exec_eq_finish, commandRun, needCodes_valid hv, finish_ok]
  · rw [exec_eq_finish, commandRun, needCodes_valid hv, finish_ok, codeBitsWord, codeOf_eq_none hnone]

/-! ### ENCODE_BYTE and ENCODE_EOS -/

/-- R185: a symbol that has a code is written as its code. -/
theorem encodeSym_mapped {sym : Sym} (h : (codeOf s sym).isSome = true) :
    encodeSym sym s = .ok () (appendOut (symbolBits s sym) s) := by
  obtain ⟨c, hc⟩ := Option.isSome_iff_exists.mp h
  rw [encodeSym, symbolBits, hc]
  rfl

/-- R308: nothing is written of a symbol that has no code. -/
theorem encodeSym_unmapped {sym : Sym} (h : codeOf s sym = none) : encodeSym sym s = .raised .unmappedSymbol s := by
  rw [encodeSym, h]

/-- R185, R186: a command that writes the code of one symbol. -/
theorem finish_encodeSym_valid {opc : Byte} {sym : Sym} {c : CodeEntry} (hv : s.codesValid = true)
    (hc : s.codes[sym.toNat]? = some c) (hvalid : c.valid = true) :
    finish opc (needCodes s (encodeSym sym)) = .next { s with out := s.out ++ entryBits c } := by
  rw [needCodes_valid hv, encodeSym, codeOf_eq_some hc hvalid]
  rfl

theorem finish_encodeSym_invalid {opc : Byte} {sym : Sym} {c : CodeEntry} (hv : s.codesValid = true)
    (hc : s.codes[sym.toNat]? = some c) (hvalid : c.valid = false) :
    finish opc (needCodes s (encodeSym sym)) = .next { s with errCode := 7#4, errOpc := opc } := by
  rw [needCodes_valid hv, encodeSym_unmapped (codeOf_eq_none (.inr ⟨c, hc, hvalid⟩))]
  rfl

theorem toNat_byteSym (b : Byte) : (byteSym b).toNat = b.toNat := BitVec.toNat_setWidth_of_le (by decide)

/-- Settles O43: the entry of a byte's symbol is the entry at the byte's number. -/
theorem encodeByteEmits : Obligations.EncodeByteEmits := by
  refine fun b => ⟨append_eq_or_operand 16 0x24#8 b, fun s hv => finish_needCodes_invalid hv, fun s c hv hc hvalid => ?_,
    fun s c hv hc hvalid => ?_⟩
  · exact finish_encodeSym_valid (sym := byteSym b) hv (by rwa [toNat_byteSym]) hvalid
  · exact finish_encodeSym_invalid (sym := byteSym b) hv (by rwa [toNat_byteSym]) hvalid

/-- R44: under the invariants the code table holds the codes of the tree. -/
theorem holdsCodes_of_codesOk (hcodes : CodesOk s) (hv : s.codesValid = true) (h : TreeFits s t) : HoldsCodes s.codes t := by
  obtain ⟨codes, htable, hholds⟩ := codeTable_of_treeFits h
  obtain rfl := Except.ok.inj ((hcodes hv).symm.trans htable)
  exact hholds

/-- Settles O44: with the codes of a tree that has an EOS leaf, as a built tree has, EOS has a code. -/
theorem encodeEosEmits : Obligations.EncodeEosEmits := by
  refine ⟨rfl, fun s hv => finish_needCodes_invalid hv,
    fun s c hv hc hvalid => finish_encodeSym_valid (sym := eosSym) hv hc hvalid,
    fun s c hv hc hvalid => finish_encodeSym_invalid (sym := eosSym) hv hc hvalid, fun s t hinv hv h hnone => ?_⟩
  have hcode := codeOf_of_holdsCodes (holdsCodes_of_codesOk hinv.codes hv h) (sym := 256#9) le_rfl
  rw [hnone, eq_comm, Option.map_eq_none_iff, Tree.codeFor_eq_none] at hcode
  refine ⟨?_, hcode⟩
  by_contra hsrc
  exact hcode (h.built (by simpa using hsrc)).2.2

/-! ### ENCODE_STREAM -/

/-- R187: the state after the codes of these units were written. -/
def emitUnits (us : List Byte) (s : State) : State :=
  { s with out := s.out ++ us.flatMap fun b => symbolBits s (byteSym b), inPos := s.inPos + 8 * us.length }

/-- R187: the state before the EOS code is written: every unit left was written, and IN is consumed. -/
def allEmitted (s : State) : State := { emitUnits (unitsFrom s) s with inPos := inBits s }

theorem emitUnits_nil (s : State) : emitUnits [] s = s := by
  simp [emitUnits]

/-- Writing the code of the first unit, then those of the others. -/
theorem emitUnits_cons (b : Byte) (us : List Byte) (s : State) :
    emitUnits (b :: us) s = emitUnits us (appendOut (symbolBits s (byteSym b)) (pastUnit s)) := by
  have hout : s.out ++ (b :: us).flatMap (fun b => symbolBits s (byteSym b)) =
      s.out ++ symbolBits s (byteSym b) ++ us.flatMap fun b => symbolBits s (byteSym b) := by
    rw [List.flatMap_cons, List.append_assoc]
  have hpos : s.inPos + 8 * (b :: us).length = s.inPos + 8 + 8 * us.length := by
    rw [List.length_cons]
    omega
  rw [emitUnits, hout, hpos]
  rfl

theorem encodeLoop_nil {s : State} (n : Nat) (h : unitsFrom s = []) :
    encodeLoop (n + 1) s = .ok () { s with inPos := inBits s } := by
  rw [encodeLoop, readBits_of_unitsFrom_nil h]

theorem encodeLoop_cons {s : State} {b : Byte} {us : List Byte} (n : Nat) (h : unitsFrom s = b :: us) :
    encodeLoop (n + 1) s = (encodeSym (byteSym b) (pastUnit s)).bind fun _ s' => encodeLoop n s' := by
  rw [encodeLoop, (readBits_of_unitsFrom_cons h).1]

/-- R187: units that have codes are written one by one, and the loop goes on with the units behind them. -/
theorem encodeLoop_append (n : Nat) (rest : List Byte) : ∀ (us : List Byte) (s : State), unitsFrom s = us ++ rest →
    (∀ b ∈ us, (codeOf s (byteSym b)).isSome = true) →
    encodeLoop (us.length + n) s = encodeLoop n (emitUnits us s) ∧ unitsFrom (emitUnits us s) = rest
  | [], s, h, _ => by simpa [emitUnits_nil] using h
  | b :: us, s, h, hmapped => by
    have hround : encodeLoop (us.length + n + 1) s =
        encodeLoop (us.length + n) (appendOut (symbolBits s (byteSym b)) (pastUnit s)) := by
      rw [encodeLoop_cons _ h, encodeSym_mapped (s := pastUnit s) (hmapped b (by simp)), bind_ok]
      rfl
    rw [emitUnits_cons, List.length_cons, Nat.add_right_comm, hround]
    exact encodeLoop_append n rest us _ (readBits_of_unitsFrom_cons h).2 fun c hc => hmapped c (by simp [hc])

/-- The rounds of ENCODE_STREAM are more than the units left. -/
theorem exists_encodeRounds {us : List Byte} {s : State} (h : us.length ≤ (unitsFrom s).length) :
    ∃ k, s.input.length + 1 = us.length + (k + 1) := by
  have hle := unitsFrom_length_le s
  exact ⟨s.input.length - us.length, by omega⟩

/-- R187: where every unit left has a code, their codes are written and IN is consumed; then comes the EOS code. -/
theorem encodeStream_mapped (hv : s.codesValid = true) (h : ∀ b ∈ unitsFrom s, (codeOf s (byteSym b)).isSome = true) :
    encodeStream s = encodeSym eosSym (allEmitted s) := by
  obtain ⟨k, hk⟩ := exists_encodeRounds (s := s) le_rfl
  obtain ⟨hloop, hend⟩ := encodeLoop_append (k + 1) [] _ s (List.append_nil _).symm h
  rw [encodeStream, needCodes_valid hv, hk, hloop, encodeLoop_nil k hend]
  rfl

/-- R187: the first unit that has no code is consumed, and the codes of the units before it stay written. -/
theorem encodeStream_unmapped {us rest : List Byte} {b : Byte} (hv : s.codesValid = true)
    (hsplit : unitsFrom s = us ++ b :: rest) (h : ∀ c ∈ us, (codeOf s (byteSym c)).isSome = true)
    (hnone : codeOf s (byteSym b) = none) : encodeStream s = .raised .unmappedSymbol { s with
      out := s.out ++ us.flatMap fun c => symbolBits s (byteSym c), inPos := s.inPos + 8 * (us.length + 1) } := by
  obtain ⟨k, hk⟩ := exists_encodeRounds (us := us) (s := s) (by simp [hsplit])
  obtain ⟨hloop, hrest⟩ := encodeLoop_append (k + 1) (b :: rest) us s hsplit h
  rw [encodeStream, needCodes_valid hv, hk, hloop, encodeLoop_cons k hrest,
    encodeSym_unmapped (s := pastUnit (emitUnits us s)) hnone]
  rfl

theorem eq_take_append_getElem_cons_drop {us : List Byte} {k : Nat} (hk : k < us.length) :
    us = us.take k ++ us[k] :: us.drop (k + 1) := by
  rw [← List.drop_eq_getElem_cons hk, List.take_append_drop]

/-- Settles O45: the units before the first with no code, or all of them, are written one by one. -/
theorem encodeStreamEmits : Obligations.EncodeStreamEmits := by
  refine ⟨rfl, fun s hv => finish_needCodes_invalid hv, fun s hv hmapped => ⟨fun heos => ?_, fun heos => ?_⟩,
    fun s k hk hv hmapped hnone => ?_⟩
  · rw [exec_eq_finish, commandRun, encodeStream_mapped hv hmapped,
      encodeSym_mapped (s := allEmitted s) (sym := eosSym) heos]
    rfl
  · rw [exec_eq_finish, commandRun, encodeStream_mapped hv hmapped,
      encodeSym_unmapped (s := allEmitted s) (sym := eosSym) heos]
    rfl
  · rw [exec_eq_finish, commandRun, encodeStream_unmapped hv (eq_take_append_getElem_cons_drop hk) hmapped hnone,
      List.length_take_of_le hk.le]
    rfl

end Sys2Proof
end

section
/-! PROOFS. COMPRESS (42_encoder.md rules R190, R191). -/

namespace Sys2Proof
open Machine

variable {s : State} {t : Tree}

/-! ### The units and the histogram of IN -/

/-- R72, R74: a byte of IN, read as its 8 stream bits. -/
theorem bitsValue_byte (bytes : List Byte) {k : Nat} (hk : k < bytes.length) :
    bitsValue (streamBits bytes (8 * k) 8) = bytes[k].toNat := by
  have hbits : streamBits bytes (8 * k) 8 = msbBits 8 bytes[k] := by
    refine List.map_congr_left fun j hj => ?_
    have hj8 : j < 8 := List.mem_range.mp hj
    have hdiv : (8 * k + j) / 8 = k := by omega
    have hmod : (8 * k + j) % 8 = j := by omega
    rw [streamBit, hdiv, hmod, List.getD_eq_getElem _ _ hk]
  rw [hbits, bitsValue_msbBits, Nat.mod_eq_of_lt bytes[k].isLt]

/-- R79: from the start of IN on, the units are its bytes. -/
theorem unitsFrom_start (h : s.inPos = 0) : unitsFrom s = s.input := by
  have hcount : bitsLeft s / 8 = s.input.length := by
    simp only [bitsLeft, inBits, h]
    omega
  refine List.ext_getElem (by simp [unitsFrom, hcount]) fun k hk hk' => ?_
  simp [unitsFrom, h, bitsValue_byte s.input hk']

theorem histAt_clearHist (s : State) (b : Byte) : histAt (clearHist s) b = 0#32 := Vector.getElem_replicate b.isLt

theorem getElem_histOf (bytes : List Byte) (b : Byte) : (histOf bytes)[b.toNat]'b.isLt = BitVec.ofNat 32 (bytes.count b) := by
  simp [histOf]

/-- R190: counted onto a cleared histogram, bytes make their own histogram. -/
theorem histPlus_clearHist (s : State) (bytes : List Byte) : histPlus (clearHist s) bytes = histOf bytes :=
  hist_ext fun b => by rw [getElem_histPlus, histAt_clearHist, getElem_histOf, BitVec.zero_add]

/-- The state after the bytes of IN were counted (R190). -/
def counted (s : State) : State := { s with hist := histOf s.input, inPos := inBits s }

/-- R190: with no byte value 2^32 times in IN, the histogram becomes that of IN. -/
theorem countStream_cleared (h : ∀ b : Byte, s.input.count b < 2 ^ 32) :
    countStream (clearHist (rewind s)) = .ok () (counted s) := by
  have hunits : unitsFrom (clearHist (rewind s)) = s.input := unitsFrom_start rfl
  rw [countStream_exhausts fun b => by simpa [histAt_clearHist, hunits] using h b, hunits, histPlus_clearHist]
  rfl

/-- R190, R309: otherwise the first byte that would overflow its counter is consumed. -/
theorem countStream_cleared_overflows {us rest : List Byte} {b : Byte} (hsplit : s.input = us ++ b :: rest)
    (h : ∀ c : Byte, us.count c < 2 ^ 32) (hfull : us.count b = 2 ^ 32 - 1) :
    countStream (clearHist (rewind s)) =
      .raised .countOverflow { s with hist := histOf us, inPos := 8 * (us.length + 1) } := by
  have hunits : unitsFrom (clearHist (rewind s)) = us ++ b :: rest := (unitsFrom_start rfl).trans hsplit
  rw [countStream_overflows hunits (fun c => by simpa [histAt_clearHist] using h c)
    (by simpa [histAt_clearHist] using hfull), histPlus_clearHist]
  simp

/-! ### The codes of the bytes of IN -/

theorem histAt_histOf (s : State) (b : Byte) :
    histAt { s with hist := histOf s.input } b = BitVec.ofNat 32 (s.input.count b) := getElem_histOf s.input b

/-- R137: the tree built from the histogram of IN has a leaf for each byte of IN. -/
theorem byteSym_mem_builtSymbols (h : ∀ b : Byte, s.input.count b < 2 ^ 32) {b : Byte} (hb : b ∈ s.input) :
    byteSym b ∈ builtSymbols { s with hist := histOf s.input } := by
  have hocc : histAt { s with hist := histOf s.input } b ≠ 0#32 := by
    have hpos : 0 < s.input.count b := List.count_pos_iff.mpr hb
    rw [histAt_histOf, ne_eq, BitVec.toNat_eq, BitVec.toNat_ofNat, Nat.mod_eq_of_lt (h b)]
    exact hpos.ne'
  have hall : b ∈ allBytes := List.mem_map.mpr ⟨b.toNat, List.mem_range.mpr b.isLt, by simp⟩
  rw [builtSymbols, List.mem_append, occurring]
  exact .inl (List.mem_map_of_mem (List.mem_filter.mpr ⟨hall, by simpa using hocc⟩))

/-- R116: with a tree's codes in the table, a symbol's bits are its code in the tree. -/
theorem symbolBits_of_holdsCodes (hlen : ∀ x ∈ t.codes, x.2.length ≤ 256) (h : HoldsCodes s.codes t) {sym : Sym}
    (hsym : sym.toNat ≤ 256) : symbolBits s sym = (t.codeFor sym).getD [] := by
  rw [symbolBits, codeOf_of_holdsCodes h hsym]
  cases hcode : t.codeFor sym with
  | none => rfl
  | some path => exact entryBits_codeEntry (hlen _ (Tree.mem_codes_of_codeFor hcode))

/-! ### The stream -/

/-- R187, R191: with a tree's codes in the table, all of IN is written as the codes of its bytes, then the EOS code. -/
theorem encodeStream_holdsCodes (hv : s.codesValid = true) (hlen : ∀ x ∈ t.codes, x.2.length ≤ 256)
    (h : HoldsCodes s.codes t) (hstart : s.inPos = 0) (hmapped : ∀ b ∈ s.input, (t.codeFor (byteSym b)).isSome = true)
    (heos : (t.codeFor eosSym).isSome = true) :
    encodeStream s = .ok () { s with
      out := s.out ++ (s.input.flatMap fun b => (t.codeFor (byteSym b)).getD []) ++ (t.codeFor eosSym).getD []
      inPos := inBits s } := by
  have hbyte : ∀ b : Byte, (byteSym b).toNat ≤ 256 := fun b => by
    rw [toNat_byteSym]
    exact b.isLt.le
  have hisSome : ∀ sym : Sym, sym.toNat ≤ 256 → (t.codeFor sym).isSome = true → (codeOf s sym).isSome = true :=
    fun sym hsym hcode => by rw [codeOf_of_holdsCodes h hsym, Option.isSome_map, hcode]
  have hbits : ∀ b : Byte, symbolBits s (byteSym b) = (t.codeFor (byteSym b)).getD [] := fun b =>
    symbolBits_of_holdsCodes hlen h (hbyte b)
  have hunits : unitsFrom s = s.input := unitsFrom_start hstart
  have hcodes : ∀ b ∈ unitsFrom s, (codeOf s (byteSym b)).isSome = true := fun b hb =>
    hisSome _ (hbyte b) (hmapped b (hunits ▸ hb))
  rw [encodeStream_mapped hv hcodes, encodeSym_mapped (s := allEmitted s) (sym := eosSym) (hisSome eosSym le_rfl heos),
    ← symbolBits_of_holdsCodes hlen h le_rfl]
  simp only [allEmitted, emitUnits, hunits, hbits]
  rfl

/-- What COMPRESS appends to OUT before the padding (R190, R191): the magic number, the tree, the codes of the bytes, and the
EOS code. -/
def streamOf (magic : Word) (t : Tree) (bytes : List Byte) : List Bool :=
  msbBits 32 magic ++ t.bits ++ (bytes.flatMap fun b => (t.codeFor (byteSym b)).getD []) ++ (t.codeFor eosSym).getD []

/-- The state that COMPRESS ends in, from the state in which BUILD_TREE has made the tree `t` (R190). -/
def streamed (magic : Word) (t : Tree) (codes : Vector CodeEntry symbolCount) (s : State) : State :=
  flush { s with codes := codes, codesValid := true, inPos := inBits s, out := s.out ++ streamOf magic t s.input }

/-- R190, R191: what COMPRESS has changed since the tree was made: the codes, the cursor, and OUT, now of whole bytes. -/
theorem streamed_eq (magic : Word) (t : Tree) (codes : Vector CodeEntry symbolCount) (s : State) :
    ∃ k, k < 8 ∧ (streamed magic t codes s).out.length % 8 = 0 ∧ streamed magic t codes s = { s with
      codes := codes, codesValid := true, inPos := 8 * s.input.length,
      out := s.out ++ msbBits 32 magic ++ t.bits ++ (s.input.flatMap fun b => (t.codeFor (byteSym b)).getD []) ++
        (t.codeFor eosSym).getD [] ++ List.replicate k false } := by
  have hwhole := padding_aligns (s.out ++ streamOf magic t s.input).length
  rw [← List.length_append] at hwhole
  refine ⟨(8 - (s.out ++ streamOf magic t s.input).length % 8) % 8, Nat.mod_lt _ (by decide), hwhole, ?_⟩
  simp only [streamed, streamOf, flush, appendOut, padding, inBits, List.append_assoc]

/-- R190: GEN_CODES, EMIT_HEADER, SRC_REWIND, ENCODE_STREAM and OUT_FLUSH, one after another, with a tree that has a leaf for
each byte of IN and for EOS. -/
theorem stream_of_treeFits (magic : Word) (hv : s.treeValid = true) (h : TreeFits s t)
    (hmapped : ∀ b ∈ s.input, (t.codeFor (byteSym b)).isSome = true) (heos : (t.codeFor eosSym).isSome = true) :
    ∃ codes, HoldsCodes codes t ∧
      ((genCodes s).bind fun _ s => (writeHeader magic s).bind fun _ s => (encodeStream (rewind s)).bind fun _ s =>
        .ok () (flush s)) = .ok () (streamed magic t codes s) := by
  obtain ⟨codes, hholds, hgen⟩ := genCodes_of_treeFits hv h
  have hheader := writeHeader_eq magic (s := setCodes codes s) hv (h.setCodes codes)
  have hencode := encodeStream_holdsCodes (s := rewind (appendOut (msbBits 32 magic ++ t.bits) (setCodes codes s))) rfl
    (fun x hx => (h.code_length x hx).2) hholds rfl hmapped heos
  refine ⟨codes, hholds, ?_⟩
  rw [hgen, bind_ok, hheader, bind_ok, hencode, bind_ok]
  simp only [streamed, streamOf, appendOut, rewind, setCodes, inBits, List.append_assoc]

/-- R147: BUILD_TREE does not read the cursor. -/
theorem buildTree_inPos_update (s : State) (p : Nat) : buildTree { s with inPos := p } = { buildTree s with inPos := p } := by
  have hleaves : buildLeaves { s with inPos := p } = buildLeaves s := by
    simp only [buildLeaves, histEntries]
  simp only [buildTree, buildMerged, hleaves]

theorem TreeFits.inPos_update (h : TreeFits s t) (p : Nat) : TreeFits { s with inPos := p } t := h.congr rfl rfl rfl rfl

/-- R190: COMPRESS with the tree `t` that BUILD_TREE makes from the histogram of IN. -/
theorem compressTree_eq (magic : Word) (h : ∀ b : Byte, s.input.count b < 2 ^ 32) {u : State}
    (hu : buildTree { s with hist := histOf s.input } = u) (hfits : TreeFits u t)
    (hmapped : ∀ b ∈ s.input, (t.codeFor (byteSym b)).isSome = true) (heos : (t.codeFor eosSym).isSome = true) :
    ∃ codes, HoldsCodes codes t ∧ compressTree magic s = .ok () (streamed magic t codes u) := by
  have hbuild := buildTree_inPos_update { s with hist := histOf s.input } (inBits s)
  have hvalid : u.treeValid = true := hu ▸ buildTree_treeValid _
  have hinput : u.input = s.input := hu ▸ buildTree_input _
  rw [hu] at hbuild
  obtain ⟨codes, hholds, hstream⟩ := stream_of_treeFits magic (s := { u with inPos := inBits s }) hvalid
    (hfits.inPos_update _) (hinput ▸ hmapped) heos
  exact ⟨codes, hholds, by rw [compressTree, countStream_cleared h, bind_ok, counted, hbuild, hstream]; rfl⟩

/-- Settles O46: the histogram of IN gives each byte of IN, and EOS, a leaf of the tree, and so a code. -/
theorem compressWritesTheStream : Obligations.CompressWritesTheStream := by
  refine ⟨rfl, rfl, fun _ => rfl, fun s h => ?_, fun s k hk hfull h => ?_⟩
  · obtain ⟨t, hfits, hsyms⟩ := buildTree_fits { s with hist := histOf s.input }
    have hmapped : ∀ b ∈ s.input, (t.codeFor (byteSym b)).isSome = true := fun b hb =>
      Tree.codeFor_isSome.mpr (hsyms.mem_iff.mpr (byteSym_mem_builtSymbols h hb))
    have heos : (t.codeFor eosSym).isSome = true :=
      Tree.codeFor_isSome.mpr (hsyms.mem_iff.mpr (by simp [builtSymbols]))
    obtain ⟨codes, hholds, hrun⟩ := compressTree_eq Config.magicTree h rfl hfits hmapped heos
    have hexec := (exec_eq_finish (.compress .tree) s).trans (congrArg (finish _) hrun)
    have hbuilt := exec_buildTree { s with hist := histOf s.input }
    generalize hu : buildTree { s with hist := histOf s.input } = u at hfits hexec hbuilt
    have hframe : u.input = s.input ∧ u.out = s.out ∧ u.hist = histOf s.input ∧ u.treeValid = true ∧ u.treeSrc = false ∧
        u.result = s.result ∧ u.eos = s.eos ∧ u.errCode = s.errCode := by
      simp [← hu]
    obtain ⟨hinput, hout, hlast⟩ := hframe
    obtain ⟨k, hk, hwhole, heq⟩ := streamed_eq Config.magicTree t codes u
    refine ⟨_, u, t, k, hbuilt, hfits, hexec, ?_, hholds, hmapped, heos, hk, hwhole, hlast⟩
    rw [← hinput, ← hout]
    exact heq
  · rw [exec_eq_finish, commandRun, compress, compressTree,
      countStream_cleared_overflows (eq_take_append_getElem_cons_drop hk) h hfull, bind_raised, List.length_take_of_le hk.le]
    rfl

end Sys2Proof
end

section
/-! SUPPORT. The bits at the cursor of IN: what a read gives where IN holds given bits, and what is left of IN
(20_memory.md rules R72 to R74, 43_decoder.md rule R222). -/

namespace Sys2Proof
open Machine

variable {s : State}

/-- The state with the cursor moved on by `n` bits. -/
def skip (n : Nat) (s : State) : State := { s with inPos := s.inPos + n }

/-- The state with the cursor at the end of IN. -/
def toEnd (s : State) : State := { s with inPos := inBits s }

theorem skip_skip (m n : Nat) (s : State) : skip n (skip m s) = skip (m + n) s := by
  simp [skip, Nat.add_assoc]

/-! ### Bits known to stand at the cursor -/

/-- Bits stand at the cursor one stretch after another (R72). -/
theorem headerAt_append {xs ys : List Bool} : HeaderAt s (xs ++ ys) ↔ HeaderAt s xs ∧ HeaderAt (skip xs.length s) ys := by
  have hbits : streamBits s.input s.inPos (xs ++ ys).length = xs ++ ys ↔
      streamBits s.input s.inPos xs.length = xs ∧ streamBits s.input (s.inPos + xs.length) ys.length = ys := by
    rw [List.length_append, streamBits_append]
    exact ⟨fun h => List.append_inj h (streamBits_length ..), fun ⟨h1, h2⟩ => by rw [h1, h2]⟩
  have hroom : s.inPos + (xs ++ ys).length ≤ inBits s ↔
      s.inPos + xs.length ≤ inBits s ∧ s.inPos + xs.length + ys.length ≤ inBits s := by
    rw [List.length_append]
    omega
  rw [HeaderAt, hbits, hroom]
  exact and_and_and_comm

theorem headerAt_cons {b : Bool} {bs : List Bool} : HeaderAt s (b :: bs) ↔ HeaderAt s [b] ∧ HeaderAt (skip 1 s) bs :=
  headerAt_append (xs := [b])

/-- R74: a read of a number whose bits stand at the cursor gives the number. -/
theorem readBits_of_headerAt {n : Nat} {v : BitVec n} (h : HeaderAt s (msbBits n v)) : readBits n s = (some v, skip n s) := by
  obtain ⟨hroom, hbits⟩ := h
  rw [msbBits_length] at hroom hbits
  rw [readBits_full hroom, hbits, bitsValue_msbBits, Nat.mod_eq_of_lt v.isLt, BitVec.ofNat_toNat, BitVec.setWidth_eq]
  rfl

theorem msbBits_ofBool (b : Bool) : msbBits 1 (BitVec.ofBool b) = [b] := by
  cases b <;> rfl

theorem readBits_bit {b : Bool} (h : HeaderAt s [b]) : readBits 1 s = (some (BitVec.ofBool b), skip 1 s) :=
  readBits_of_headerAt (msbBits_ofBool b ▸ h)

/-- Bits are the bits of the number they stand for (R74, R76). -/
theorem msbBits_bitsValue {n : Nat} {bits : List Bool} (h : bits.length = n) :
    msbBits n (BitVec.ofNat n (bitsValue bits)) = bits := by
  have hlt := h ▸ bitsValue_lt bits
  refine bitsValue_injective (by simp [h]) ?_
  rw [bitsValue_msbBits, BitVec.toNat_ofNat, Nat.mod_mod, Nat.mod_eq_of_lt hlt]

/-- R74: where IN has as many bits left as a word, some word stands at the cursor. -/
theorem exists_headerAt_word (h : s.inPos + 32 ≤ inBits s) : ∃ m : Word, HeaderAt s (msbBits 32 m) := by
  refine ⟨BitVec.ofNat 32 (bitsValue (streamBits s.input s.inPos 32)), by rwa [msbBits_length], ?_⟩
  rw [msbBits_length, msbBits_bitsValue (streamBits_length ..)]

/-! ### The rest of IN -/

@[simp] theorem tailBits_length (s : State) : (tailBits s).length = bitsLeft s := streamBits_length ..

/-- What is left of IN once the cursor has moved on. -/
theorem tailBits_skip (n : Nat) (s : State) : tailBits (skip n s) = (tailBits s).drop n := by
  have hleft : bitsLeft (skip n s) = bitsLeft s - n := Nat.sub_add_eq (inBits s) s.inPos n
  refine List.ext_getElem (by simp [hleft]) fun k _ _ => ?_
  simp [tailBits, streamBits, skip, Nat.add_assoc]

theorem tailBits_behind {xs ys : List Bool} (h : tailBits s = xs ++ ys) : tailBits (skip xs.length s) = ys := by
  rw [tailBits_skip, h, List.drop_left]

theorem readBits_tail_short {n : Nat} (h : (tailBits s).length < n) : readBits n s = (none, toEnd s) := by
  rw [tailBits_length, bitsLeft] at h
  exact readBits_short (by omega)

/-- The bits that what is left of IN begins with stand at the cursor. -/
theorem headerAt_of_tailBits {xs ys : List Bool} (hcursor : s.inPos ≤ inBits s) (h : tailBits s = xs ++ ys) :
    HeaderAt s xs := by
  have hlen : bitsLeft s = xs.length + ys.length := by rw [← tailBits_length, h, List.length_append]
  rw [tailBits, hlen, streamBits_append] at h
  rw [bitsLeft] at hlen
  exact ⟨by omega, (List.append_inj h (streamBits_length ..)).1⟩

/-- R74: a bit left is what a read of one bit gives. -/
theorem readBits_of_tailBits_cons {b : Bool} {bs : List Bool} (h : tailBits s = b :: bs) :
    readBits 1 s = (some (BitVec.ofBool b), skip 1 s) ∧ tailBits (skip 1 s) = bs := by
  have hlen : bitsLeft s = bs.length + 1 := by rw [← tailBits_length, h, List.length_cons]
  rw [bitsLeft] at hlen
  exact ⟨readBits_bit (headerAt_of_tailBits (ys := bs) (by omega) h), tailBits_behind (xs := [b]) h⟩

/-- R74: with no bit left, a read of one bit is short. -/
theorem readBits_of_tailBits_nil (h : tailBits s = []) : readBits 1 s = (none, toEnd s) :=
  readBits_tail_short (by simp [h])

end Sys2Proof
end

section
/-! SUPPORT. READ_HEADER on a serialized tree: what it stores, and where it stops (43_decoder.md rules R221 to R228). -/

namespace Sys2Proof
open Machine

variable {s : State} {t : Tree} {nodes : Vector Node nodeCap} {d k : Nat}

/-! ### What READ_HEADER stores of a tree -/

/-- The node memory with a tree stored into it in preorder from index `k` on, weights 0 (R221, R223). -/
def Tree.store (k : Nat) : Tree → Vector Node nodeCap → Vector Node nodeCap
  | .leaf _ sym, nodes => setNode k (leafNode sym 0#40) nodes
  | .node _ l r, nodes =>
    setNode k (internalNode 0#40 (BitVec.ofNat 10 (k + 1)) (BitVec.ofNat 10 (k + 1 + l.size)))
      (r.store (k + 1 + l.size) (l.store (k + 1) nodes))

theorem Tree.one_le_size (t : Tree) : 1 ≤ t.size := by
  cases t <;> simp

/-- Entries outside the indices of the tree are kept. -/
theorem Tree.store_kept {i : Nat} (h : i < k ∨ k + t.size ≤ i) : (t.store k nodes)[i]? = nodes[i]? := by
  induction t generalizing k nodes with
  | leaf j sym => exact getElem?_setNode_ne (by rw [Tree.size_leaf] at h; omega) _
  | node j l r hl hr =>
    rw [Tree.size_node] at h
    rw [Tree.store, getElem?_setNode_ne (by omega), hr (by omega), hl (by omega)]

/-- R41, R223: the entries stored agree with their kind, and have weight 0. -/
theorem Tree.store_entry (hroom : k + t.size ≤ nodeCap) (hsyms : ∀ sym ∈ t.symbols, sym.toNat ≤ 256) {i : Nat} (hk : k ≤ i)
    (hi : i < k + t.size) : ∃ e, (t.store k nodes)[i]? = some e ∧ EntryOk e ∧ e.weight = 0#40 := by
  induction t generalizing k nodes with
  | leaf j sym =>
    obtain rfl : i = k := by rw [Tree.size_leaf] at hi; omega
    exact ⟨_, getElem?_setNode_same hroom _, entryOk_leafNode (hsyms sym (by simp)) _, rfl⟩
  | node j l r hl hr =>
    rw [Tree.size_node] at hi hroom
    rw [Tree.symbols_node] at hsyms
    by_cases hik : i = k
    · subst hik
      exact ⟨_, getElem?_setNode_same (by omega) _, entryOk_internalNode _ _ _, rfl⟩
    · rw [Tree.store, getElem?_setNode_ne hik]
      by_cases hil : i < k + 1 + l.size
      · rw [Tree.store_kept (.inl hil)]
        exact hl (by omega) (fun sym h => hsyms sym (by simp [h])) (by omega) hil
      · exact hr (by omega) (fun sym h => hsyms sym (by simp [h])) (by omega) (by omega)

/-- R223: the tree stored is found again, numbered in preorder. -/
theorem treeAt_store (hroom : k + t.size ≤ nodeCap) : treeAt (t.store k nodes) t.size k = some (t.renumber k) := by
  induction t generalizing k nodes with
  | leaf j sym => exact treeAt_leaf 0 (getElem?_setNode_same hroom _) rfl
  | node j l r hl hr =>
    have hl1 := l.one_le_size
    have hr1 := r.one_le_size
    have hindex : ∀ n, n < nodeCap → (BitVec.ofNat 10 n).toNat = n := fun n hn => by
      rw [BitVec.toNat_ofNat]
      simp only [nodeCap] at hn
      omega
    rw [Tree.size_node] at hroom ⊢
    refine treeAt_node (getElem?_setNode_same (by omega) _) rfl ?_ ?_
    · rw [internalNode, hindex _ (by omega)]
      refine treeAt_transfer (hl (nodes := nodes) (by omega)) (by omega) fun i hi => ?_
      rw [Tree.renumber_indices, List.mem_range'_1] at hi
      rw [Tree.store, getElem?_setNode_ne (by omega), Tree.store_kept (.inl hi.2)]
    · rw [internalNode, hindex _ (by omega)]
      refine treeAt_transfer (hr (nodes := l.store (k + 1) nodes) (by omega)) (by omega) fun i hi => ?_
      rw [Tree.renumber_indices, List.mem_range'_1] at hi
      exact getElem?_setNode_ne (by omega) _

/-! ### ReadNode on a tree's serialization -/

/-- R221: a leaf's field in range is stored. -/
theorem readLeaf_of_headerAt {sym : Sym} (hsym : sym.toNat ≤ 256) (h : HeaderAt s (msbBits 9 sym)) :
    readLeaf k s = .ok (k, k + 1) (storeNode k (leafNode sym 0#40) (skip 9 s)) := by
  have hrange : ¬ sym.toNat > 256 := by omega
  simp only [readLeaf, readBits_of_headerAt h, hrange, if_false]

/-- R227, R228: a leaf's field out of range is consumed, and raises BAD_SYMBOL. -/
theorem readLeaf_badSymbol {sym : Sym} (hsym : 256 < sym.toNat) (h : HeaderAt s (msbBits 9 sym)) :
    readLeaf k s = .raised .badSymbol (skip 9 s) := by
  simp only [readLeaf, readBits_of_headerAt h, gt_iff_lt, hsym, if_true]

/-- R303: a leaf's field cut short raises TRUNCATED. -/
theorem readLeaf_truncated (h : (tailBits s).length < 9) : readLeaf k s = .raised .truncated (toEnd s) := by
  simp only [readLeaf, readBits_tail_short h]

/-- R225: the 514th node is refused before its flag is read. -/
theorem readNode_overflow (s : State) : readNode d nodeCap s = .raised .headerOverflow s := by
  cases d <;> simp [readNode]

theorem readNode_truncated (hk : k < nodeCap) (h : tailBits s = []) : readNode (d + 1) k s = .raised .truncated (toEnd s) := by
  simp only [readNode, hk.ne, if_false, readBits_of_tailBits_nil h]

/-- R221: a node whose flag is 1 is a leaf. -/
theorem readNode_leafFlag (hk : k < nodeCap) (h : HeaderAt s [true]) : readNode (d + 1) k s = readLeaf k (skip 1 s) := by
  simp only [readNode, hk.ne, if_false, readBits_bit h]
  rfl

/-- R221: a node whose flag is 0 is followed by its two subtrees. -/
theorem readNode_internalFlag (hk : k < nodeCap) (h : HeaderAt s [false]) : readNode (d + 1) k s =
    (readNode d (k + 1) (skip 1 s)).bind fun l s2 => (readNode d l.2 s2).bind fun r s3 =>
      .ok (k, r.2) (storeNode k (internalNode 0#40 (BitVec.ofNat 10 l.1) (BitVec.ofNat 10 r.1)) s3) := by
  simp only [readNode, hk.ne, if_false, readBits_bit h]
  rfl

/-- The state after a tree was read from the header, from the state with `k` nodes stored before (R221). -/
def afterTree (k : Nat) (t : Tree) (s : State) : State := { skip t.bits.length s with nodes := t.store k s.nodes }

theorem afterTree_leaf (k i : Nat) (sym : Sym) (s : State) :
    afterTree k (.leaf i sym) s = storeNode k (leafNode sym 0#40) (skip 9 (skip 1 s)) := by
  simp [afterTree, Tree.bits, Tree.store, skip, storeNode]

theorem afterTree_node (k i : Nat) (l r : Tree) (s : State) : afterTree k (.node i l r) s =
    storeNode k (internalNode 0#40 (BitVec.ofNat 10 (k + 1)) (BitVec.ofNat 10 (k + 1 + l.size)))
      (afterTree (k + 1 + l.size) r (afterTree (k + 1) l (skip 1 s))) := by
  simp [afterTree, Tree.bits, Tree.store, skip, storeNode, Nat.add_assoc, Nat.add_comm 1]

/-- R221, R223: where a tree's serialization stands at the cursor and there is room for its nodes, `ReadNode` stores the
tree. -/
theorem readNode_tree (hsyms : ∀ sym ∈ t.symbols, sym.toNat ≤ 256) (hdepth : nodeCap ≤ d + k)
    (hroom : k + t.size ≤ nodeCap) (h : HeaderAt s t.bits) : readNode d k s = .ok (k, k + t.size) (afterTree k t s) := by
  induction t generalizing d k s with
  | leaf i sym =>
    rw [Tree.size_leaf] at hroom ⊢
    obtain ⟨d, rfl⟩ : ∃ c, d = c + 1 := ⟨d - 1, by omega⟩
    rw [Tree.bits] at h
    obtain ⟨hflag, hsym⟩ := headerAt_cons.mp h
    rw [readNode_leafFlag (by omega) hflag, readLeaf_of_headerAt (hsyms sym (by simp)) hsym, afterTree_leaf]
  | node i l r hl hr =>
    rw [Tree.size_node] at hroom ⊢
    rw [Tree.symbols_node] at hsyms
    obtain ⟨d, rfl⟩ : ∃ c, d = c + 1 := ⟨d - 1, by omega⟩
    rw [Tree.bits] at h
    obtain ⟨hflag, hrest⟩ := headerAt_cons.mp h
    obtain ⟨hleft, hright⟩ := headerAt_append.mp hrest
    rw [readNode_internalFlag (by omega) hflag,
      hl (fun sym h => hsyms sym (by simp [h])) (by omega) (by omega) hleft, bind_ok,
      hr (fun sym h => hsyms sym (by simp [h])) (by omega) (by omega) (s := afterTree (k + 1) l (skip 1 s)) hright, bind_ok,
      afterTree_node, show k + 1 + l.size + r.size = k + (l.size + r.size + 1) by omega]

/-! ### ReadNode on a header that it rejects -/

/-- The next `ReadNode` of a header, with `n` nodes allocated and the cursor at `p`, raises the error `e` with the cursor at
`q`, and changes nothing else. -/
def StopsAt (input : List Byte) (n p : Nat) (e : ErrorKind) (q : Nat) : Prop :=
  ∀ (d : Nat) (s : State), nodeCap ≤ d + n → s.input = input → s.inPos = p →
    readNode d n s = .raised e { s with inPos := q }

/-- R115: the symbols in a tree's header are those of its leaves. -/
theorem Tree.some_mem_tokens (t : Tree) (sym : Sym) : some sym ∈ t.tokens ↔ sym ∈ t.symbols := by
  induction t with
  | leaf i sym => simp [Tree.tokens]
  | node i l r hl hr => simp [Tree.tokens, hl, hr]

/-- R225, R228: where a header begins with the first `j` nodes of a larger tree, in range, and then stops, `ReadNode` stops
there. -/
theorem readNode_stops {j n p q : Nat} {e : ErrorKind} (hj : j < t.size) (hok : ∀ x ∈ t.tokens.take j, TokenOk x)
    (hdepth : nodeCap ≤ d + k) (h : HeaderAt s ((t.tokens.take j).flatMap tokenBits)) (hn : n = k + j) (hroom : n ≤ nodeCap)
    (hp : p = s.inPos + ((t.tokens.take j).flatMap tokenBits).length) (hstop : StopsAt s.input n p e q) :
    ∃ nodes, readNode d k s = .raised e { s with nodes := nodes, inPos := q } := by
  induction t generalizing d k s j with
  | leaf i sym =>
    obtain rfl : j = 0 := by rw [Tree.size_leaf] at hj; omega
    subst hn hp
    exact ⟨s.nodes, hstop d s hdepth rfl rfl⟩
  | node i l r hl hr =>
    cases j with
    | zero =>
      subst hn hp
      exact ⟨s.nodes, hstop d s hdepth rfl rfl⟩
    | succ j =>
      have htokens : (Tree.node i l r).tokens.take (j + 1) = none :: (l.tokens.take j ++ r.tokens.take (j - l.size)) := by
        rw [Tree.tokens, List.take_succ_cons, List.take_append, Tree.tokens_length]
      have hbits : ((Tree.node i l r).tokens.take (j + 1)).flatMap tokenBits =
          false :: ((l.tokens.take j).flatMap tokenBits ++ (r.tokens.take (j - l.size)).flatMap tokenBits) := by
        rw [htokens, List.flatMap_cons, List.flatMap_append]
        rfl
      rw [htokens] at hok
      rw [hbits] at h hp
      rw [List.length_cons, List.length_append] at hp
      rw [Tree.size_node] at hj
      obtain ⟨d, rfl⟩ : ∃ c, d = c + 1 := ⟨d - 1, by omega⟩
      obtain ⟨hflag, hrest⟩ := headerAt_cons.mp h
      obtain ⟨hleft, hright⟩ := headerAt_append.mp hrest
      have hokl : ∀ x ∈ l.tokens.take j, TokenOk x := fun x hx => hok x (by simp [hx])
      have hokr : ∀ x ∈ r.tokens.take (j - l.size), TokenOk x := fun x hx => hok x (by simp [hx])
      rw [readNode_internalFlag (by omega) hflag]
      by_cases hjl : j < l.size
      · have hnone : j - l.size = 0 := by omega
        rw [hnone, List.take_zero, List.flatMap_nil, List.length_nil] at hp
        obtain ⟨nodes, hrun⟩ := hl hjl hokl (d := d) (k := k + 1) (s := skip 1 s) (by omega) hleft (by omega)
          (by simp only [skip]; omega) hstop
        exact ⟨nodes, by rw [hrun]; rfl⟩
      · have hall : l.tokens.take j = l.tokens := List.take_of_length_le (by rw [Tree.tokens_length]; omega)
        rw [hall] at hokl hp hleft hright
        rw [← Tree.bits_tokens] at hp hleft hright
        have hsyms : ∀ sym ∈ l.symbols, sym.toNat ≤ 256 := fun sym hsym =>
          hokl _ ((l.some_mem_tokens sym).mpr hsym) sym rfl
        obtain ⟨nodes, hrun⟩ := hr (j := j - l.size) (by omega) hokr (d := d) (k := k + 1 + l.size)
          (s := afterTree (k + 1) l (skip 1 s)) (by omega) hright (by omega) (by simp only [afterTree, skip]; omega) hstop
        exact ⟨nodes, by rw [readNode_tree hsyms (by omega) (by omega) hleft, bind_ok, hrun]; rfl⟩

end Sys2Proof
end

section
/-! PROOFS. READ_HEADER (43_decoder.md rules R221 to R228). -/

namespace Sys2Proof
open Machine

variable {s : State} {t : Tree}

/-! ### The errors a part of a command can raise -/

/-- A part of a command raises no errors but these, and does not stop. -/
def Machine.Run.Raises {α : Type} (errors : List ErrorKind) : Run α → Prop
  | .ok _ _ => True
  | .raised e _ => e ∈ errors
  | .stuck _ => False

variable {α β : Type} {errors : List ErrorKind}

theorem raises_ok (a : α) (s : State) : Run.Raises errors (.ok a s) := trivial

theorem raises_raised {e : ErrorKind} (h : e ∈ errors) (s : State) : Run.Raises errors (.raised e s : Run α) := h

theorem raises_bind {x : Run α} {k : α → State → Run β} (hx : Run.Raises errors x)
    (hk : ∀ a s, Run.Raises errors (k a s)) : Run.Raises errors (x.bind k) := by
  cases x with
  | ok a s => exact hk a s
  | raised e s => exact hx
  | stuck f => exact hx

/-- The errors of a header's nodes (R225, R228). -/
def nodeErrors : List ErrorKind := [.truncated, .headerOverflow, .badSymbol]

theorem readLeaf_raises (k : Nat) (s : State) : Run.Raises nodeErrors (readLeaf k s) := by
  unfold readLeaf
  split
  · exact raises_raised (by decide) _
  · split
    · exact raises_raised (by decide) _
    · exact raises_ok _ _

theorem readNode_raises : ∀ (d k : Nat) (s : State), Run.Raises nodeErrors (readNode d k s)
  | 0, _, s => raises_raised (by decide) s
  | d + 1, k, s => by
    unfold readNode
    split
    · exact raises_raised (by decide) _
    · split
      · exact raises_raised (by decide) _
      · split
        · exact readLeaf_raises k _
        · exact raises_bind (readNode_raises d _ _) fun _ _ => raises_bind (readNode_raises d _ _) fun _ _ => raises_ok _ _

/-- Reading the nodes writes the node memory and moves the cursor (R221). -/
theorem readNode_frame (d k : Nat) (s : State) :
    Run.All (fun u => u = { s with nodes := u.nodes, inPos := u.inPos }) (readNode d k s) := by
  refine all_readNode (fun n u hu => ?_) (fun i e u hu => ?_) d k s rfl
  · rw [readBits_state, hu]
  · rw [hu]
    rfl

/-- R221: after the magic number a tree is loaded, or one of the errors of a header's nodes is raised and there is no tree. -/
theorem loadTree_ends (s : State) :
    (∃ u, loadTree s = .ok () u ∧ u = { s with
      nodes := u.nodes, nodeCount := u.nodeCount, root := 0#10, treeValid := true, treeSrc := true, inPos := u.inPos }) ∨
    (∃ e u, loadTree s = .raised e u ∧ e ∈ nodeErrors ∧ u = { s with nodes := u.nodes, inPos := u.inPos }) := by
  have hraises := readNode_raises nodeCap 0 s
  have hframe := readNode_frame nodeCap 0 s
  rw [loadTree_eq]
  cases hread : readNode nodeCap 0 s with
  | ok r u =>
    rw [hread] at hframe
    have hroot : r.1 = 0 := (readNode_readsTree nodeCap (Nat.zero_le _) hread).index
    refine .inl ⟨_, rfl, ?_⟩
    rw [setLoaded, hroot, hframe]
  | raised e u =>
    rw [hread] at hraises hframe
    exact .inr ⟨e, u, rfl, hraises, hframe⟩
  | stuck f =>
    rw [hread] at hraises
    exact hraises.elim

/-! ### The magic number -/

/-- The state in which the nodes of the header are read (R221): the old tree is gone and the magic number consumed. -/
def afterMagic (s : State) : State := skip 32 (withoutTree s)

/-- R222: with fewer than 32 bits left READ_HEADER raises FORMAT. -/
theorem readHeader_short (h : inBits s < s.inPos + 32) : readHeader s = .raised .format (toEnd (withoutTree s)) := by
  have hread : readBits 32 (invalidateTree s) = (none, toEnd (withoutTree s)) := readBits_short h
  rw [readHeader, readHeaderWith, hread]

theorem readBits_magic {m : Word} (h : HeaderAt s (msbBits 32 m)) :
    readBits 32 (invalidateTree s) = (some m, afterMagic s) :=
  readBits_of_headerAt (s := invalidateTree s) h

theorem readHeader_counts (h : HeaderAt s (msbBits 32 Config.magicCounts)) :
    readHeader s = .raised .unsupportedMode (afterMagic s) := by
  simp only [readHeader, readHeaderWith, readBits_magic h, if_true]

theorem readHeader_tree (h : HeaderAt s (msbBits 32 Config.magicTree)) : readHeader s = loadTree (afterMagic s) := by
  simp only [readHeader, readHeaderWith, readBits_magic h, Config.magic_distinct, if_false, if_true]

theorem readHeader_unknown {m : Word} (htree : m ≠ Config.magicTree) (hcounts : m ≠ Config.magicCounts)
    (h : HeaderAt s (msbBits 32 m)) : readHeader s = .raised .format (afterMagic s) := by
  simp only [readHeader, readHeaderWith, readBits_magic h, htree, hcounts, if_false]

/-- The codes of a header's errors (R301). -/
theorem errorCode_nodeErrors : ∀ e ∈ nodeErrors, errorCode e ∈ [2#4, 9#4, 10#4] := by decide

/-- Settles O47: in the last case the header's nodes are read, which raise their own errors only. -/
theorem readHeaderChecksTheMagic : Obligations.ReadHeaderChecksTheMagic := by
  refine ⟨rfl, fun s h => ?_, fun s h => ?_, fun s m htree hcounts h => ?_, fun s h => ?_⟩
  · rw [exec_eq_finish, commandRun, readHeader_short h]
    rfl
  · rw [exec_eq_finish, commandRun, readHeader_counts h]
    rfl
  · rw [exec_eq_finish, commandRun, readHeader_unknown htree hcounts h]
    rfl
  · rw [exec_eq_finish, commandRun, readHeader_tree h]
    obtain ⟨u, hrun, hu⟩ | ⟨e, u, hrun, he, -⟩ := loadTree_ends (afterMagic s)
    · exact ⟨u, by rw [hrun, finish_ok], .inl (by rw [hu]; rfl)⟩
    · exact ⟨_, by rw [hrun, finish_raised], .inr (errorCode_nodeErrors e he)⟩

/-- The errors of READ_HEADER (R221). -/
def headerErrors : List ErrorKind := .format :: .unsupportedMode :: nodeErrors

/-- R221: READ_HEADER loads a tree, or raises one of its errors and leaves no tree. -/
theorem readHeader_ends (s : State) :
    (∃ u, readHeader s = .ok () u ∧ u = { s with
      nodes := u.nodes, nodeCount := u.nodeCount, root := 0#10, treeValid := true, treeSrc := true, codesValid := false,
      eos := false, inPos := u.inPos }) ∨
    (∃ e u, readHeader s = .raised e u ∧ e ∈ headerErrors ∧ u = { withoutTree s with nodes := u.nodes, inPos := u.inPos }) := by
  by_cases hroom : s.inPos + 32 ≤ inBits s
  · obtain ⟨m, hm⟩ := exists_headerAt_word hroom
    by_cases hcounts : m = Config.magicCounts
    · subst hcounts
      exact .inr ⟨_, _, readHeader_counts hm, by decide, rfl⟩
    by_cases htree : m = Config.magicTree
    · subst htree
      rw [readHeader_tree hm]
      obtain ⟨u, hrun, hu⟩ | ⟨e, u, hrun, he, hu⟩ := loadTree_ends (afterMagic s)
      · exact .inl ⟨u, hrun, hu⟩
      · exact .inr ⟨e, u, hrun, by simp [headerErrors, he], hu⟩
    · exact .inr ⟨_, _, readHeader_unknown htree hcounts hm, by decide, rfl⟩
  · exact .inr ⟨_, _, readHeader_short (by omega), by decide, rfl⟩

theorem errorCode_headerErrors : ∀ e ∈ headerErrors, errorCode e ∈ [1#4, 2#4, 4#4, 9#4, 10#4] := by decide

/-- Settles O50: the two ends of READ_HEADER, the error latched. -/
theorem readHeaderLeavesATreeOrNone : Obligations.ReadHeaderLeavesATreeOrNone := by
  intro s
  rw [exec_eq_finish, commandRun]
  obtain ⟨u, hrun, hu⟩ | ⟨e, u, hrun, he, hu⟩ := readHeader_ends s
  · exact ⟨u, by rw [hrun, finish_ok], .inl hu⟩
  · exact ⟨_, by rw [hrun, finish_raised], .inr ⟨by rw [hu]; rfl, errorCode_headerErrors e he⟩⟩

/-! ### A tree that is loaded -/

/-- The state after READ_HEADER has loaded a tree (R221, R224). -/
def loaded (t : Tree) (s : State) : State := { s with
  nodes := t.store 0 s.nodes, nodeCount := BitVec.ofNat 10 t.size, root := 0#10, treeValid := true, treeSrc := true,
  codesValid := false, eos := false, inPos := s.inPos + 32 + t.bits.length }

theorem toNat_nodeCount_loaded (hsize : t.size ≤ nodeCap) : (loaded t s).nodeCount.toNat = t.size := by
  simp only [loaded, BitVec.toNat_ofNat, nodeCap] at hsize ⊢
  omega

/-- R221: where the magic number and a tree's serialization stand at the cursor, READ_HEADER loads the tree. -/
theorem readHeader_loads (hsize : t.size ≤ nodeCap) (hsyms : ∀ sym ∈ t.symbols, sym.toNat ≤ 256)
    (h : HeaderAt s (msbBits 32 Config.magicTree ++ t.bits)) : readHeader s = .ok () (loaded t s) := by
  obtain ⟨hmagic, htree⟩ := headerAt_append.mp h
  rw [msbBits_length] at htree
  rw [readHeader_tree hmagic, loadTree_eq, readNode_tree hsyms le_rfl (by omega) (s := afterMagic s) htree, bind_ok,
    Nat.zero_add]
  rfl

/-- R224: the loaded tree, numbered in preorder, is the one tree in the node memory. -/
theorem loaded_fits (hsize : t.size ≤ nodeCap) (hsyms : ∀ sym ∈ t.symbols, sym.toNat ≤ 256) (s : State) :
    TreeFits (loaded t s) (t.renumber 0) where
  rooted := treeAt_transfer (treeAt_store (k := 0) (by omega)) hsize fun _ _ => rfl
  exact := by rw [toNat_nodeCount_loaded hsize, Tree.renumber_indices, List.range_eq_range']
  entries i hi hlt := by
    rw [toNat_nodeCount_loaded hsize] at hlt
    obtain ⟨e, he, hok, -⟩ := Tree.store_entry (nodes := s.nodes) (k := 0) (by omega) hsyms (Nat.zero_le i) (by omega)
    exact (Vector.getElem?_eq_some_iff.mp he).2 ▸ hok
  built := nofun
  loaded _ := ⟨rfl, by rw [toNat_nodeCount_loaded hsize, Tree.renumber_indices, List.range_eq_range']⟩

theorem Tree.symbols_of_leaves {p : Sym → Prop} (h : ∀ x ∈ t.leaves, p x.1) : ∀ sym ∈ t.symbols, p sym := by
  simpa [Tree.symbols] using fun sym path hx => h (sym, path) hx

/-- Settles O48: the entries of the tree are stored with weight 0, and no others. -/
theorem readHeaderLoadsTheTree : Obligations.ReadHeaderLoadsTheTree := by
  intro s t (hsize : t.size ≤ nodeCap) hleaves h
  have hsyms : ∀ sym ∈ t.symbols, sym.toNat ≤ 256 := Tree.symbols_of_leaves hleaves
  refine ⟨loaded t s, by rw [exec_eq_finish, commandRun, readHeader_loads hsize hsyms h, finish_ok], rfl,
    loaded_fits hsize hsyms s, fun i e he hi => ?_, fun i hi => Tree.store_kept (.inr (by omega))⟩
  obtain ⟨e', he', -, hweight⟩ := Tree.store_entry (nodes := s.nodes) (k := 0) (by omega) hsyms (Nat.zero_le i) (by omega)
  exact Option.some.inj (he'.symm.trans he) ▸ hweight

/-! ### A header that is rejected -/

/-- R225, R228: where a header stops behind the first `j` nodes of a larger tree, READ_HEADER raises its error there. -/
theorem exec_readHeader_stops {j q : Nat} {e : ErrorKind} (hj : j < t.size) (hroom : j ≤ nodeCap)
    (hok : ∀ x ∈ t.tokens.take j, TokenOk x)
    (h : HeaderAt s (msbBits 32 Config.magicTree ++ (t.tokens.take j).flatMap tokenBits))
    (hstop : StopsAt s.input j (s.inPos + 32 + ((t.tokens.take j).flatMap tokenBits).length) e q) :
    ∃ nodes, exec .readHeader s = .next (latchError e 0x30#8 { withoutTree s with nodes := nodes, inPos := q }) := by
  obtain ⟨hmagic, htokens⟩ := headerAt_append.mp h
  rw [msbBits_length] at htokens
  obtain ⟨nodes, hrun⟩ := readNode_stops (s := afterMagic s) (d := nodeCap) (k := 0) hj hok le_rfl htokens
    (Nat.zero_add j).symm hroom rfl hstop
  exact ⟨nodes, by rw [exec_eq_finish, commandRun, readHeader_tree hmagic, loadTree_eq, hrun]; rfl⟩

/-- R225: a header stops before its 514th node. -/
theorem stopsAt_overflow (input : List Byte) (p : Nat) : StopsAt input nodeCap p .headerOverflow p := by
  intro d s _ _ hp
  rw [readNode_overflow, ← hp]

/-- R228: a header stops behind a leaf's field out of range. -/
theorem stopsAt_badSymbol {n p : Nat} {sym : Sym} (hn : n < nodeCap) (hsym : 256 < sym.toNat)
    (h : HeaderAt { s with inPos := p } (tokenBits (some sym))) : StopsAt s.input n p .badSymbol (p + 10) := by
  intro d u hd hinput hp
  obtain ⟨d, rfl⟩ : ∃ c, d = c + 1 := ⟨d - 1, by omega⟩
  have hu : HeaderAt u (true :: msbBits 9 sym) := by
    rw [HeaderAt, inBits, hinput, hp]
    exact h
  obtain ⟨hflag, hfield⟩ := headerAt_cons.mp hu
  rw [readNode_leafFlag hn hflag, readLeaf_badSymbol hsym hfield, skip_skip, skip, hp]

/-- R303: a header stops where IN ends inside a node. -/
theorem stopsAt_truncated {n p : Nat} {x : Option Sym} {part : List Bool} (hn : n < nodeCap) (hpart : part <+: tokenBits x)
    (hshort : part ≠ tokenBits x) (hcursor : p ≤ inBits s) (h : tailBits { s with inPos := p } = part) :
    StopsAt s.input n p .truncated (inBits s) := by
  intro d u hd hinput hp
  obtain ⟨d, rfl⟩ : ∃ c, d = c + 1 := ⟨d - 1, by omega⟩
  have hend : inBits u = inBits s := by rw [inBits, hinput, inBits]
  have hu : tailBits u = part := by
    rw [tailBits, bitsLeft, hend, hinput, hp]
    exact h
  have hlen : part.length < (tokenBits x).length :=
    hpart.length_le.lt_of_ne fun heq => hshort (hpart.eq_of_length heq)
  cases part with
  | nil => rw [readNode_truncated hn hu, toEnd, hend]
  | cons b bs =>
    cases x with
    | none => simp [tokenBits] at hlen
    | some sym =>
      obtain rfl : b = true := (List.cons_prefix_cons.mp hpart).1
      have hrest : (tailBits (skip 1 u)).length < 9 := by
        rw [(readBits_of_tailBits_cons hu).2]
        simp only [tokenBits, List.length_cons, msbBits_length] at hlen
        omega
      have hflag : HeaderAt u [true] := headerAt_of_tailBits (ys := bs) (by omega) hu
      rw [readNode_leafFlag hn hflag, readLeaf_truncated hrest, ← hend]
      rfl

theorem Tree.token_lt_size {j : Nat} {x : Option Sym} (h : t.tokens[j]? = some x) : j < t.size := by
  rw [← Tree.tokens_length]
  exact (List.getElem?_eq_some_iff.mp h).1

/-- Settles O49: the three ways a header stops behind its first nodes. -/
theorem readHeaderRejectsBadHeaders : Obligations.ReadHeaderRejectsBadHeaders := by
  refine ⟨fun s t hsize hok h => ?_, fun s t j sym hj hsym hrange hok h => ?_,
    fun s t j x part hj hx hok hpart hshort hcursor h => ?_⟩
  · exact exec_readHeader_stops hsize le_rfl hok h (stopsAt_overflow _ _)
  · have hfield : (tokenBits (some sym)).length = 10 := by simp [tokenBits]
    have htake : (t.tokens.take (j + 1)).flatMap tokenBits =
        (t.tokens.take j).flatMap tokenBits ++ tokenBits (some sym) := by
      rw [List.take_add_one, hsym, List.flatMap_append, Option.toList_some, List.flatMap_singleton]
    rw [htake, ← List.append_assoc] at h
    obtain ⟨hbefore, hbad⟩ := headerAt_append.mp h
    rw [List.length_append, msbBits_length, skip, ← Nat.add_assoc] at hbad
    rw [htake, List.length_append, hfield, ← Nat.add_assoc]
    exact exec_readHeader_stops (Tree.token_lt_size hsym) hj.le hok hbefore (stopsAt_badSymbol hj hrange hbad)
  · have hbefore := headerAt_of_tailBits hcursor h
    have hroom := hbefore.1
    rw [List.length_append, msbBits_length, ← Nat.add_assoc] at hroom
    refine exec_readHeader_stops (Tree.token_lt_size hx) hj.le hok hbefore (stopsAt_truncated hj hpart hshort hroom ?_)
    have hrest := tailBits_behind h
    rwa [List.length_append, msbBits_length, skip, ← Nat.add_assoc] at hrest

end Sys2Proof
end

section
/-! PROOFS. DECODE_SYM, DECODE_STREAM and DECOMPRESS (43_decoder.md rules R230 to R244). -/

namespace Sys2Proof
open Machine

variable {s : State} {t : Tree}

/-! ### One symbol -/

/-- How a descent in the tree ends on the machine (R230): with a symbol and the bits read consumed, or with IN exhausted. -/
def descended (s : State) : Option (Sym × Nat) → Run Sym
  | some (sym, n) => .ok sym (skip n s)
  | none => .raised .truncated (toEnd s)

/-- One bit read before a descent. -/
theorem descended_skip (s : State) (o : Option (Sym × Nat)) :
    descended (skip 1 s) o = descended s (o.map fun x => (x.1, x.2 + 1)) := by
  cases o with
  | none => rfl
  | some x => simp only [descended, Option.map_some, skip_skip, Nat.add_comm 1]

theorem Tree.descend_node_cons (i : Nat) (l r : Tree) (b : Bool) (bs : List Bool) :
    (Tree.node i l r).descend (b :: bs) = ((if b then r else l).descend bs).map fun x => (x.1, x.2 + 1) := by
  rw [Tree.descend]
  cases (if b then r else l).descend bs <;> rfl

theorem toNat_childOf (e : Node) (b : Bool) :
    (childOf e (BitVec.ofBool b)).toNat = if b then e.right.toNat else e.left.toNat := by
  cases b <;> rfl

/-- R230: from an internal node the machine's walk is the descent in the tree. -/
theorem walkToLeaf_eq : ∀ (n : Nat) {d i : Nat} {e : Node} {s : State} {t : Tree}, treeAt s.nodes d i = some t →
    s.nodes[i]? = some e → e.leaf = false → bitsLeft s < n → walkToLeaf n e s = descended s (t.descend (tailBits s))
  | 0, _, _, _, _, _, _, _, _, hn => absurd hn (Nat.not_lt_zero _)
  | n + 1, 0, _, _, _, _, h, _, _, _ => by simp [treeAt] at h
  | n + 1, d + 1, i, e, s, t, h, he, hl, hn => by
    obtain ⟨e', he', ⟨hl', -⟩ | ⟨-, l, r, hleft, hright, rfl⟩⟩ := treeAt_step h <;>
      obtain rfl := Option.some.inj (he.symm.trans he')
    · simp [hl] at hl'
    cases htail : tailBits s with
    | nil => simp only [walkToLeaf, readBits_of_tailBits_nil htail, Tree.descend, descended]
    | cons b bs =>
      obtain ⟨hread, hrest⟩ := readBits_of_tailBits_cons htail
      have hchild : treeAt s.nodes d (childOf e (BitVec.ofBool b)).toNat = some (if b then r else l) := by
        rw [toNat_childOf]
        cases b
        · exact hleft
        · exact hright
      have hleft' : bitsLeft (skip 1 s) < n := by
        rw [← tailBits_length, htail, List.length_cons] at hn
        rw [← tailBits_length, hrest]
        omega
      rw [Tree.descend_node_cons, ← descended_skip]
      cases d with
      | zero => simp [treeAt] at hchild
      | succ d =>
        obtain ⟨c, hc, hkind⟩ := treeAt_step hchild
        have hnode : nodeAt (skip 1 s).nodes (childOf e (BitVec.ofBool b)) = .ok c := nodeAt_of_getElem? hc
        simp only [walkToLeaf, hread, hnode]
        obtain ⟨hcl, hsub⟩ | ⟨hcl, -⟩ := hkind
        · rw [if_pos hcl, hsub, Tree.descend]
          rfl
        · rw [if_neg (by simp [hcl]), walkToLeaf_eq n (s := skip 1 s) hchild hc hcl hleft', hrest]

/-- The state after a symbol was decoded (R230). -/
def emitted (sym : Sym) (s : State) : State := { s with
  result := sym.setWidth 32, eos := decide (sym = eosSym), out := s.out ++ if sym = eosSym then [] else msbBits 8 sym }

theorem emitSym_eq (sym : Sym) (s : State) : emitSym sym s = .ok sym (emitted sym s) := by
  by_cases h : sym = eosSym
  · simp [emitSym, emitted, h]
  · simp [emitSym, emitted, h, writeBits, appendOut]

/-- R230, R231: the machine decodes the symbol that the tree gives of the rest of IN. -/
theorem decodeOne_eq (h : currentTree s = some t) :
    decodeOne s = (descended s (t.decodeOne (tailBits s))).bind emitSym := by
  obtain ⟨e, he, ⟨hl, rfl⟩ | ⟨hl, l, r, -, -, rfl⟩⟩ := treeAt_step h
  · rw [decodeOne, nodeAt_of_getElem? he]
    simp only [hl, if_true]
    cases htail : tailBits s with
    | nil => rw [readBits_of_tailBits_nil htail]; rfl
    | cons b bs => rw [(readBits_of_tailBits_cons htail).1]; rfl
  · rw [decodeOne, nodeAt_of_getElem? he]
    simp only [hl, Bool.false_eq_true, if_false]
    rw [walkToLeaf_eq _ h he hl (Nat.lt_succ_self _)]
    rfl

theorem decodeOne_some {sym : Sym} {n : Nat} (h : currentTree s = some t) (hone : t.decodeOne (tailBits s) = some (sym, n)) :
    decodeOne s = .ok sym (emitted sym (skip n s)) := by
  rw [decodeOne_eq h, hone, descended, bind_ok, emitSym_eq]

theorem decodeOne_none (h : currentTree s = some t) (hone : t.decodeOne (tailBits s) = none) :
    decodeOne s = .raised .truncated (toEnd s) := by
  rw [decodeOne_eq h, hone, descended, bind_raised]

/-- Settles O51: the tree's descent along the rest of IN, and what it does to the registers and OUT. -/
theorem decodeSymDecodesOne : Obligations.DecodeSymDecodesOne := by
  refine ⟨rfl, fun s hv => finish_needTree_invalid hv, fun s t hv h => ⟨fun sym n hone => ?_, fun hone => ?_⟩⟩
  · rw [exec_eq_finish, commandRun, decodeSymbol, needTree_valid hv, decodeOne_some h.rooted hone]
    rfl
  · rw [exec_eq_finish, commandRun, decodeSymbol, needTree_valid hv, decodeOne_none h.rooted hone]
    rfl

/-! ### A stream of symbols -/

/-- How the symbols of a stream end on the machine (R235, R236): behind EOS, or with IN exhausted and the symbols' bytes in
OUT. -/
def streamDecoded (s : State) : List Sym × Nat × Bool → Run Unit
  | (syms, n, true) => .ok () { s with
      inPos := s.inPos + n, result := 0x100#32, eos := true, out := s.out ++ symBytes syms }
  | (syms, _, false) => .raised .truncated { afterSyms s syms with inPos := inBits s }

/-- R230: a symbol before EOS, and the symbols behind it. -/
theorem afterSyms_emitted {sym : Sym} (hsym : sym ≠ eosSym) (k p : Nat) (syms : List Sym) (s : State) :
    { afterSyms (emitted sym (skip k s)) syms with inPos := p } = { afterSyms s (sym :: syms) with inPos := p } := by
  rw [afterSyms, afterSyms, List.getLast?_cons]
  cases hlast : syms.getLast? with
  | none =>
    obtain rfl := List.getLast?_eq_none_iff.mp hlast
    simp [emitted, skip, hsym, symBytes]
  | some last => simp [emitted, skip, hsym, symBytes]

theorem streamDecoded_emitted {sym : Sym} (hsym : sym ≠ eosSym) (k n : Nat) (syms : List Sym) (found : Bool) (s : State) :
    streamDecoded (emitted sym (skip k s)) (syms, n, found) = streamDecoded s (sym :: syms, k + n, found) := by
  cases found with
  | true => simp [streamDecoded, emitted, skip, hsym, symBytes, Nat.add_assoc]
  | false => exact congrArg _ (afterSyms_emitted hsym k (inBits s) syms s)

/-- R235: the machine decodes the symbols that the tree gives of the rest of IN. -/
theorem decodeLoop_eq : ∀ (n : Nat) {s : State}, currentTree s = some t →
    decodeLoop n s = streamDecoded s (t.decodeMany n (tailBits s))
  | 0, _, _ => rfl
  | n + 1, s, h => by
    rw [decodeLoop, Tree.decodeMany]
    cases hone : t.decodeOne (tailBits s) with
    | none =>
      rw [decodeOne_none h hone]
      rfl
    | some x =>
      obtain ⟨sym, k⟩ := x
      rw [decodeOne_some h hone, bind_ok]
      by_cases hsym : sym = eosSym
      · simp [hsym, streamDecoded, emitted, skip, symBytes]
      · have hrest : tailBits (emitted sym (skip k s)) = (tailBits s).drop k := tailBits_skip k s
        simp only [hsym, if_false]
        rw [decodeLoop_eq n (s := emitted sym (skip k s)) h, hrest, ← streamDecoded_emitted hsym]

/-- R235: DECODE_STREAM with a tree. -/
theorem decodeStream_eq (hv : s.treeValid = true) (h : currentTree s = some t) :
    decodeStream s = streamDecoded s (t.decodeMany (bitsLeft s + 1) (tailBits s)) := by
  rw [decodeStream, needTree_valid hv, decodeLoop_eq _ h]

/-- Settles O52: the symbols that the tree gives of the rest of IN. -/
theorem decodeStreamDecodesToEos : Obligations.DecodeStreamDecodesToEos := by
  refine ⟨rfl, fun s hv => finish_needTree_invalid hv, fun s t syms n hv h => ⟨fun hmany => ?_, fun hmany => ?_⟩⟩
  · rw [exec_eq_finish, commandRun, decodeStream_eq hv h.rooted, hmany]
    rfl
  · rw [exec_eq_finish, commandRun, decodeStream_eq hv h.rooted, hmany]
    rfl

/-! ### Numbering the nodes in preorder changes indices only -/

@[simp] theorem Tree.renumber_bits (k : Nat) (t : Tree) : (t.renumber k).bits = t.bits := by
  induction t generalizing k with
  | leaf i sym => rfl
  | node i l r hl hr => simp only [Tree.renumber, Tree.bits, hl, hr]

@[simp] theorem Tree.renumber_leaves (k : Nat) (t : Tree) : (t.renumber k).leaves = t.leaves := by
  induction t generalizing k with
  | leaf i sym => rfl
  | node i l r hl hr => simp only [Tree.renumber, Tree.leaves, hl, hr]

@[simp] theorem Tree.renumber_codes (k : Nat) (t : Tree) : (t.renumber k).codes = t.codes := by
  cases t with
  | leaf i sym => rfl
  | node i l r => exact Tree.renumber_leaves k (.node i l r)

theorem Tree.renumber_descend (k : Nat) (t : Tree) (bits : List Bool) : (t.renumber k).descend bits = t.descend bits := by
  induction t generalizing k bits with
  | leaf i sym => rw [Tree.renumber, Tree.descend, Tree.descend]
  | node i l r hl hr =>
    cases bits with
    | nil => rfl
    | cons b bs =>
      rw [Tree.renumber, Tree.descend_node_cons, Tree.descend_node_cons]
      cases b
      · exact congrArg _ (hl _ _)
      · exact congrArg _ (hr _ _)

@[simp] theorem Tree.renumber_decodeOne (k : Nat) (t : Tree) (bits : List Bool) :
    (t.renumber k).decodeOne bits = t.decodeOne bits := by
  cases t with
  | leaf i sym => cases bits <;> rfl
  | node i l r => exact Tree.renumber_descend k (.node i l r) bits

@[simp] theorem Tree.renumber_decodeMany (k : Nat) (t : Tree) : ∀ (n : Nat) (bits : List Bool),
    (t.renumber k).decodeMany n bits = t.decodeMany n bits
  | 0, _ => rfl
  | n + 1, bits => by simp only [Tree.decodeMany, Tree.renumber_decodeOne, Tree.renumber_decodeMany k t n]

/-! ### DECOMPRESS -/

theorem decompress_eq (s : State) : decompress s = (readHeader (rewind s)).bind fun _ s' => decodeStream s' := rfl

/-- R238: on the magic number, a tree and a payload, READ_HEADER loads the tree, and the payload is decoded. -/
theorem decompress_loads {payload : List Bool} (hsize : t.size ≤ nodeCap) (hsyms : ∀ sym ∈ t.symbols, sym.toNat ≤ 256)
    (h : tailBits (rewind s) = msbBits 32 Config.magicTree ++ t.bits ++ payload) :
    readHeader (rewind s) = .ok () (loaded t (rewind s)) ∧
      decompress s = streamDecoded (loaded t (rewind s)) (t.decodeMany (payload.length + 1) payload) := by
  have hread := readHeader_loads hsize hsyms (headerAt_of_tailBits (s := rewind s) (Nat.zero_le _) h)
  have hrest : tailBits (loaded t (rewind s)) = payload := by
    have hbehind := tailBits_behind h
    rwa [List.length_append, msbBits_length, skip, ← Nat.add_assoc] at hbehind
  have hleft : bitsLeft (loaded t (rewind s)) = payload.length := by rw [← tailBits_length, hrest]
  refine ⟨hread, ?_⟩
  rw [decompress_eq, hread, bind_ok, decodeStream_eq rfl (loaded_fits hsize hsyms _).rooted, hleft, hrest,
    Tree.renumber_decodeMany]

/-- Settles O53: an error of READ_HEADER ends DECOMPRESS; after a loaded tree the payload is decoded. -/
theorem decompressDecodesTheStream : Obligations.DecompressDecodesTheStream := by
  refine ⟨rfl, fun s v hexec hv => ?_, fun s t payload syms n hsize hleaves h => ?_⟩
  · have hreadExec : exec .readHeader (rewind s) = .next v := hexec
    rw [exec_eq_finish, commandRun] at hreadExec
    rw [exec_eq_finish, commandRun, decompress_eq]
    obtain ⟨u, hrun, hu⟩ | ⟨e, u, hrun, -, -⟩ := readHeader_ends (rewind s)
    · rw [hrun, finish_ok, Host.Outcome.next.injEq] at hreadExec
      rw [← hreadExec, hu] at hv
      simp at hv
    · rw [hrun, finish_raised, Host.Outcome.next.injEq] at hreadExec
      rw [hrun, bind_raised, finish_raised, ← hreadExec]
      rfl
  · have hsyms : ∀ sym ∈ t.symbols, sym.toNat ≤ 256 := Tree.symbols_of_leaves hleaves
    obtain ⟨hread, hrun⟩ := decompress_loads (s := s) hsize hsyms h
    have hexec : exec .readHeader (rewind s) = .next (loaded t (rewind s)) := by
      rw [exec_eq_finish, commandRun, hread, finish_ok]
    refine ⟨_, hexec, loaded_fits hsize hsyms _, fun hmany => ?_, fun hmany => ?_⟩
    · have hpos : (loaded t (rewind s)).inPos = 32 + t.bits.length := congrArg (· + t.bits.length) (Nat.zero_add 32)
      rw [exec_eq_finish, commandRun, hrun, hmany, ← hpos]
      rfl
    · rw [exec_eq_finish, commandRun, hrun, hmany]
      rfl

/-- Settles O54: READ_HEADER's FORMAT error from the start of IN, latched under DECOMPRESS's opcode byte. -/
theorem decompressRejectsUnknownMagic : Obligations.DecompressRejectsUnknownMagic := by
  refine ⟨fun s h => ?_, fun s m hroom hbits htree hcounts => ?_⟩
  · have hread := readHeader_short (s := rewind s) (by simpa [inBits] using h)
    rw [exec_eq_finish, commandRun, decompress_eq, hread]
    rfl
  · have hword : HeaderAt (rewind s) (msbBits 32 m) := by
      rw [HeaderAt, msbBits_length]
      exact ⟨(Nat.zero_add 32).trans_le hroom, hbits⟩
    rw [exec_eq_finish, commandRun, decompress_eq, readHeader_unknown htree hcounts hword]
    rfl

end Sys2Proof
end

section
/-! PROOFS. What COMPRESS appends is a function of IN, and a header is read back into its tree (43_decoder.md rules R241,
R242). -/

namespace Sys2Proof
open Machine

variable {s : State} {t : Tree}

/-! ### OUT as the bytes of a stream -/

/-- Bits padded to whole bytes (R77). -/
def padded (bits : List Bool) : List Bool := bits ++ padding bits.length

theorem padded_length_mod (bits : List Bool) : (padded bits).length % 8 = 0 := by
  rw [padded, List.length_append]
  exact padding_aligns _

/-- R77: fewer than eight 0 bits that make a whole number of bytes are the padding. -/
theorem replicate_eq_padding {n k : Nat} (hk : k < 8) (h : (n + k) % 8 = 0) : List.replicate k false = padding n := by
  rw [padding]
  congr 1
  omega

/-- R77: byte `j` of OUT has the bits of OUT from `8·j` on. -/
theorem outByte_bits {bits : List Bool} {j : Nat} (h : 8 * j + 8 ≤ bits.length) :
    msbBits 8 (outByte bits j) = (bits.drop (8 * j)).take 8 :=
  msbBits_bitsValue (by rw [List.length_take, List.length_drop]; omega)

/-- R72, R77: the bytes of a stream of whole bytes hold its bits. -/
theorem streamBits_outBytes {bits : List Bool} (h : bits.length % 8 = 0) : streamBits (outBytes bits) 0 bits.length = bits := by
  refine List.ext_getElem (streamBits_length ..) fun k _ hk => ?_
  have hj : k / 8 < bits.length / 8 := by omega
  have hbyte : (outBytes bits).getD (k / 8) 0#8 = outByte bits (k / 8) := by
    rw [List.getD_eq_getElem _ _ (by simpa [outBytes] using hj)]
    simp [outBytes]
  have hmod : k % 8 < 8 := Nat.mod_lt _ (by decide)
  have hbit := congrArg (·[k % 8]?) (outByte_bits (bits := bits) (j := k / 8) (by omega))
  simp only [msbBits, List.getElem?_map, List.getElem?_range hmod, Option.map_some, List.getElem?_take_of_lt hmod,
    List.getElem?_drop, Nat.div_add_mod, List.getElem?_eq_getElem hk, Option.some.injEq] at hbit
  simp only [streamBits, List.getElem_map, List.getElem_range, Nat.zero_add, streamBit, hbyte]
  exact hbit

/-- With the bytes of a stream in IN and the cursor at the start, the stream is what is left of IN. -/
theorem tailBits_outBytes {bits : List Bool} (hinput : s.input = outBytes bits) (hpos : s.inPos = 0)
    (h : bits.length % 8 = 0) : tailBits s = bits := by
  have hleft : bitsLeft s = bits.length := by
    rw [bitsLeft, inBits, hinput, hpos, outBytes, List.length_map, List.length_range]
    omega
  rw [tailBits, hleft, hinput, hpos, streamBits_outBytes h]

/-! ### COMPRESS is a function of IN -/

/-- A byte sequence with 2^32 or more of one byte value has a first byte that would overflow its counter (R309). -/
theorem exists_overflow {bytes : List Byte} (h : ¬ ∀ b : Byte, bytes.count b < 2 ^ 32) : ∃ us b rest,
    bytes = us ++ b :: rest ∧ (∀ c : Byte, us.count c < 2 ^ 32) ∧ us.count b = 2 ^ 32 - 1 := by
  induction bytes using List.reverseRecOn with
  | nil => exact absurd (fun b => by simp) h
  | append_singleton xs x ih =>
    by_cases hxs : ∀ b : Byte, xs.count b < 2 ^ 32
    · refine ⟨xs, x, [], rfl, hxs, ?_⟩
      obtain ⟨b, hb⟩ := not_forall.mp h
      have hlt := hxs b
      rw [List.count_append, List.count_singleton] at hb
      by_cases hbx : x == b
      · obtain rfl := eq_of_beq hbx
        rw [if_pos hbx] at hb
        omega
      · rw [if_neg hbx] at hb
        omega
    · obtain ⟨us, b, rest, rfl, hus, hb⟩ := ih hxs
      exact ⟨us, b, rest ++ [x], by simp, hus, hb⟩

/-- R309: with 2^32 or more of one byte value in IN, COMPRESS raises COUNT_OVERFLOW, and appends nothing. -/
theorem exec_compress_overflows (h : ¬ ∀ b : Byte, s.input.count b < 2 ^ 32) :
    ∃ u, exec (.compress .tree) s = .next u ∧ u.out = s.out := by
  obtain ⟨us, b, rest, hsplit, hus, hb⟩ := exists_overflow h
  have hexec := exec_eq_finish (.compress .tree) s
  rw [commandRun, compress, compressTree, countStream_cleared_overflows hsplit hus hb, bind_raised, finish_raised] at hexec
  refine ⟨_, hexec, ?_⟩
  rw [latchError_out]

/-- R190, R191: COMPRESS writes the stream of the tree that BUILD_TREE makes of the histogram of IN, padded. -/
theorem exec_compress_stream (h : ∀ b : Byte, s.input.count b < 2 ^ 32) (hout : s.out = []) : ∃ (u : State) (t : Tree),
    exec (.compress .tree) s = .next u ∧ TreeFits (buildTree { s with hist := histOf s.input }) t ∧
    (∀ b ∈ s.input, (t.codeFor (byteSym b)).isSome = true) ∧ (t.codeFor eosSym).isSome = true ∧
    u.out = padded (streamOf Config.magicTree t s.input) ∧ u.errCode = s.errCode := by
  obtain ⟨-, -, -, hstream, -⟩ := compressWritesTheStream
  obtain ⟨u, v, t, k, hbuild, hfits, hexec, hu, -, hmapped, heos, hk, hwhole, -, -, -, -, -, herr⟩ := hstream s h
  rw [exec_buildTree, Host.Outcome.next.injEq] at hbuild
  have hbits : u.out = streamOf Config.magicTree t s.input ++ List.replicate k false := by
    rw [hu, hout, List.nil_append]
    rfl
  rw [hbits, List.length_append, List.length_replicate] at hwhole
  exact ⟨u, t, hexec, hbuild ▸ hfits, hmapped, heos, by rw [hbits, replicate_eq_padding hk hwhole, padded], herr⟩

/-- R147: equal histograms give equal trees. -/
theorem tree_of_hist {s' : State} {t' : Tree} (hhist : s.hist = s'.hist) (h : TreeFits (buildTree s) t)
    (h' : TreeFits (buildTree s') t') : t = t' := by
  obtain ⟨u, u', hu, hu', -, hroot, hnodes⟩ := buildTreeDependsOnHistOnly s s' hhist
  rw [exec_buildTree, Host.Outcome.next.injEq] at hu hu'
  subst hu hu'
  have hsame : treeAt (buildTree s').nodes nodeCap (buildTree s).root.toNat = some t :=
    treeAt_transfer h.rooted le_rfl fun j hj => (hnodes j (List.mem_range.mp (h.exact.mem_iff.mp hj))).symm
  rw [hroot] at hsame
  exact Option.some.inj (hsame.symm.trans h'.rooted)

/-- Settles O57: both runs write the stream of one tree, or overflow a counter before they write. -/
theorem compressIsDeterministic : Obligations.CompressIsDeterministic := by
  intro m s s' hinput hout hout'
  cases m with
  | counts =>
    obtain ⟨-, -, hcounts, -⟩ := compressWritesTheStream
    refine ⟨_, _, hcounts s, hcounts s', ?_⟩
    exact hout.trans hout'.symm
  | tree =>
    by_cases h : ∀ b : Byte, s.input.count b < 2 ^ 32
    · obtain ⟨u, t, hexec, hfits, -, -, hbits, -⟩ := exec_compress_stream h hout
      obtain ⟨u', t', hexec', hfits', -, -, hbits', -⟩ := exec_compress_stream (hinput ▸ h) hout'
      have hhist : histOf s.input = histOf s'.input := congrArg histOf hinput
      obtain rfl := tree_of_hist (s := { s with hist := histOf s.input }) (s' := { s' with hist := histOf s'.input }) hhist
        hfits hfits'
      exact ⟨u, u', hexec, hexec', by rw [hbits, hbits', hinput]⟩
    · obtain ⟨u, hexec, hu⟩ := exec_compress_overflows h
      obtain ⟨u', hexec', hu'⟩ := exec_compress_overflows (hinput ▸ h)
      exact ⟨u, u', hexec, hexec', by rw [hu, hu', hout, hout']⟩

/-! ### A header is read back into its tree -/

/-- R42: a state's tree has `NODE_COUNT` nodes. -/
theorem TreeFits.size_eq (h : TreeFits s t) : t.size = s.nodeCount.toNat := h.exact.length_eq.trans List.length_range

theorem TreeFits.size_le (h : TreeFits s t) : t.size ≤ nodeCap := h.size_eq ▸ h.nodeCount_range.2

theorem exec_emitHeader_of_treeFits (hv : s.treeValid = true) (h : TreeFits s t) :
    exec (.emitHeader .tree) s = .next (appendOut (msbBits 32 Config.magicTree ++ t.bits) s) := by
  rw [exec_emitHeader_tree, writeHeader_eq _ hv h, finish_ok]

theorem exec_genCodes_of_treeFits (hv : s.treeValid = true) (h : TreeFits s t) :
    exec .genCodes s = .next (setCodes (t.codes.foldl storeCode noCodes) s) := by
  rw [exec_eq_finish, commandRun, genCodes_eq hv (codeTable_eq h.rooted h.symbol_le), finish_ok]

/-- R241: with the bytes of a tree's header in IN, READ_HEADER loads the tree. -/
theorem exec_readHeader_of_header (h : TreeFits s t) {r : State}
    (hinput : r.input = outBytes (padded (msbBits 32 Config.magicTree ++ t.bits))) (hpos : r.inPos = 0) :
    exec .readHeader r = .next (loaded t r) := by
  have htail := tailBits_outBytes hinput hpos (padded_length_mod _)
  rw [exec_eq_finish, commandRun,
    readHeader_loads h.size_le h.symbol_le (headerAt_of_tailBits (hpos ▸ Nat.zero_le _) htail), finish_ok]

/-- Settles O58: the tree read back has the leaves of the tree written, numbered in preorder. -/
theorem headerDescribesItsTree : Obligations.HeaderDescribesItsTree := by
  intro s t hv h hout
  have hheader : (appendOut (msbBits 32 Config.magicTree ++ t.bits) s).out = msbBits 32 Config.magicTree ++ t.bits := by
    rw [appendOut_out, hout, List.nil_append]
  have hfits := fun r => loaded_fits h.size_le h.symbol_le r
  refine ⟨_, _, _, _, _, exec_emitHeader_of_treeFits hv h,
    exec_readHeader_of_header h (congrArg (fun bits => outBytes (padded bits)) hheader) rfl, rfl, rfl, ?_, hfits _,
    exec_genCodes_of_treeFits hv h, exec_genCodes_of_treeFits rfl (hfits _), ?_,
    exec_emitHeader_of_treeFits rfl (hfits _), ?_⟩
  · exact (congrArg _ h.size_eq).trans (BitVec.ofNat_toNat ..)
  · rw [Tree.renumber_codes]
    rfl
  · rw [hheader, Tree.renumber_bits]
    rfl

end Sys2Proof
end

section
/-! PROOFS. The round trip: decompressing what was compressed gives the input back (43_decoder.md rule R240). -/

namespace Sys2Proof
open Machine

variable {s : State} {t : Tree}

/-! ### The codes of a tree are decoded -/

/-- R230: the bits of a leaf's path lead to the leaf. -/
theorem Tree.descend_path {sym : Sym} {path : List Bool} (h : (sym, path) ∈ t.leaves) (rest : List Bool) :
    t.descend (path ++ rest) = some (sym, path.length) := by
  induction t generalizing path with
  | leaf i sym' =>
    obtain ⟨rfl, rfl⟩ := Prod.mk.inj (List.mem_singleton.mp h)
    rw [Tree.descend, List.length_nil]
  | node i l r hl hr =>
    rw [Tree.leaves, List.mem_append, List.mem_map, List.mem_map] at h
    obtain ⟨⟨sym, path⟩, hmem, heq⟩ | ⟨⟨sym, path⟩, hmem, heq⟩ := h <;> obtain ⟨rfl, rfl⟩ := Prod.mk.inj heq <;>
      rw [List.cons_append, Tree.descend_node_cons, List.length_cons]
    · exact congrArg _ (hl hmem)
    · exact congrArg _ (hr hmem)

/-- R230, R231: the bits of a symbol's code give the symbol. -/
theorem Tree.decodeOne_code {sym : Sym} {path : List Bool} (h : (sym, path) ∈ t.codes) (rest : List Bool) :
    t.decodeOne (path ++ rest) = some (sym, path.length) := by
  cases t with
  | leaf i sym' =>
    obtain ⟨rfl, rfl⟩ := Prod.mk.inj (List.mem_singleton.mp h)
    rfl
  | node i l r => exact Tree.descend_path h rest

/-- R230: a symbol that has a code is decoded from its code. -/
theorem Tree.decodeOne_codeFor {sym : Sym} (h : (t.codeFor sym).isSome = true) (rest : List Bool) :
    t.decodeOne ((t.codeFor sym).getD [] ++ rest) = some (sym, ((t.codeFor sym).getD []).length) := by
  obtain ⟨path, hpath⟩ := Option.isSome_iff_exists.mp h
  rw [hpath]
  exact Tree.decodeOne_code (Tree.mem_codes_of_codeFor hpath) rest

theorem byteSym_ne_eosSym (b : Byte) : byteSym b ≠ eosSym := fun h => by
  have hlt := b.isLt
  rw [← toNat_byteSym b, h] at hlt
  exact absurd hlt (by decide)

/-- The codes of a byte sequence and of EOS, as COMPRESS writes them (R191). -/
def payloadOf (t : Tree) (bytes : List Byte) : List Bool :=
  (bytes.flatMap fun b => (t.codeFor (byteSym b)).getD []) ++ (t.codeFor eosSym).getD []

theorem payloadOf_cons (t : Tree) (b : Byte) (bytes : List Byte) :
    payloadOf t (b :: bytes) = (t.codeFor (byteSym b)).getD [] ++ payloadOf t bytes := by
  rw [payloadOf, List.flatMap_cons, List.append_assoc, payloadOf]

/-- R235: the codes of a byte sequence and of EOS are decoded to the bytes, up to EOS. -/
theorem Tree.decodeMany_payload (heos : (t.codeFor eosSym).isSome = true) (rest : List Bool) :
    ∀ (bytes : List Byte) (n : Nat), (∀ b ∈ bytes, (t.codeFor (byteSym b)).isSome = true) → bytes.length < n →
      t.decodeMany n (payloadOf t bytes ++ rest) = (bytes.map byteSym, (payloadOf t bytes).length, true)
  | _, 0, _, hn => absurd hn (Nat.not_lt_zero _)
  | [], n + 1, _, _ => by
    rw [Tree.decodeMany, payloadOf, List.flatMap_nil, List.nil_append, Tree.decodeOne_codeFor heos]
    simp
  | b :: bytes, n + 1, hmapped, hn => by
    have hrest := Tree.decodeMany_payload heos rest bytes n (fun c hc => hmapped c (by simp [hc])) (Nat.lt_of_succ_lt_succ hn)
    rw [Tree.decodeMany, payloadOf_cons, List.append_assoc, Tree.decodeOne_codeFor (hmapped b (by simp))]
    simp [byteSym_ne_eosSym, hrest]

/-- R173: every byte takes a bit or more. -/
theorem length_lt_payloadOf (heos : (t.codeFor eosSym).isSome = true) : ∀ bytes : List Byte,
    (∀ b ∈ bytes, (t.codeFor (byteSym b)).isSome = true) → bytes.length < (payloadOf t bytes).length
  | [], _ => by
    obtain ⟨path, hpath⟩ := Option.isSome_iff_exists.mp heos
    rw [payloadOf, hpath]
    exact t.one_le_code_length _ (Tree.mem_codes_of_codeFor hpath)
  | b :: bytes, hmapped => by
    have hrest := length_lt_payloadOf heos bytes fun c hc => hmapped c (by simp [hc])
    obtain ⟨path, hpath⟩ := Option.isSome_iff_exists.mp (hmapped b (by simp))
    have hcode : 1 ≤ path.length := t.one_le_code_length _ (Tree.mem_codes_of_codeFor hpath)
    rw [payloadOf_cons, hpath, List.length_append, List.length_cons]
    exact Nat.add_comm _ 1 ▸ Nat.add_lt_add_of_le_of_lt hcode hrest

theorem symBytes_byteSym (bytes : List Byte) : symBytes (bytes.map byteSym) = bytes.flatMap fun b => msbBits 8 b := by
  have hbyte : ∀ b : Byte, msbBits 8 (byteSym b) = msbBits 8 b := fun b =>
    bitsValue_injective (by simp) (by rw [bitsValue_msbBits, bitsValue_msbBits, toNat_byteSym])
  rw [symBytes, List.flatMap_map]
  exact congrArg (bytes.flatMap ·) (funext hbyte)

/-- R238, R240: DECOMPRESS on the bytes of a stream of COMPRESS gives the bytes that were compressed. -/
theorem exec_decompress_stream {u : State} (hfits : TreeFits u t) {bytes : List Byte}
    (hmapped : ∀ b ∈ bytes, (t.codeFor (byteSym b)).isSome = true) (heos : (t.codeFor eosSym).isSome = true)
    (hinput : s.input = outBytes (padded (streamOf Config.magicTree t bytes))) (hout : s.out = []) : ∃ v,
    exec .decompress s = .next v ∧ v.errCode = s.errCode ∧ v.eos = true ∧ v.out = bytes.flatMap fun b => msbBits 8 b := by
  have htail : tailBits (rewind s) = msbBits 32 Config.magicTree ++ t.bits ++
      (payloadOf t bytes ++ padding (streamOf Config.magicTree t bytes).length) := by
    rw [tailBits_outBytes (s := rewind s) hinput rfl (padded_length_mod _), padded, streamOf, payloadOf]
    simp only [List.append_assoc]
  have hlen := length_lt_payloadOf heos bytes hmapped
  obtain ⟨-, hrun⟩ := decompress_loads hfits.size_le hfits.symbol_le htail
  rw [Tree.decodeMany_payload heos _ bytes _ hmapped (by rw [List.length_append]; omega)] at hrun
  have hexec := exec_eq_finish .decompress s
  rw [commandRun, hrun, streamDecoded, finish_ok, symBytes_byteSym] at hexec
  refine ⟨_, hexec, rfl, rfl, ?_⟩
  exact congrArg (· ++ bytes.flatMap fun b => msbBits 8 b) hout

/-! ### A command issued by the host -/

theorem run_succ {k : Nat} {s s' : State} (h : step s = .next s') : core.run (k + 1) s = core.run k s' := by
  have hstep : core.step s = .next s' := h
  simp only [Host.Core.run, hstep]

/-- The state in which the engine executes a command that the host has issued (R119, R291): the word is latched, and WAIT has
read `STATUS` once. -/
def issued (c : Instr) (rest : List Turn) (s : State) : State :=
  { hostRead statusReg { s with pending := encode c, busy := true, turns := rest } with turns := .host .wait :: rest }

/-- The state after WAIT has seen the command's end (R119). -/
def waited (rest : List Turn) (u : State) : State := hostRead statusReg { u with busy := false, turns := rest }

theorem hostWait_busy (h : s.busy = true) :
    hostWait s = { hostRead statusReg s with turns := .engine :: .host .wait :: s.turns } := by
  rw [hostWait, if_pos h]

theorem hostWait_idle (h : s.busy = false) : hostWait s = hostRead statusReg s := by
  rw [hostWait, if_neg (by simp [h])]

/-- R119, R291, R32: issuing a command takes four steps, the third of which executes it. -/
theorem run_issue (k : Nat) {c : Instr} {rest : List Turn} {u : State} (hturns : s.turns = issue c ++ rest)
    (hbusy : s.busy = false) (herr : s.errCode = 0#4) (hexec : exec c (issued c rest s) = .next u) :
    core.run (k + 4) s = core.run k (waited rest u) := by
  have hwrite : step s = .next { s with pending := encode c, busy := true, turns := .host .wait :: rest } := by
    rw [step_of_hostTurn hturns]
    exact congrArg Host.Outcome.next (writeCmd_idle (s := { s with turns := .host .wait :: rest }) _ hbusy)
  have hwait : step { s with pending := encode c, busy := true, turns := .host .wait :: rest } =
      .next { issued c rest s with turns := .engine :: .host .wait :: rest } := by
    rw [step_of_hostTurn rfl]
    exact congrArg Host.Outcome.next (hostWait_busy rfl)
  have hengine : step { issued c rest s with turns := .engine :: .host .wait :: rest } = .next { u with busy := false } := by
    have hword := execute_command (s := issued c rest s) (decodeOfEncode c) (.inl herr)
    rw [step_of_engineTurn rfl, engineStep_busy rfl]
    exact congrArg clearBusy (hword.trans hexec)
  obtain ⟨-, -, -, -, hkept, -, -⟩ := commandsOnlyAppendToOut c _ u hexec
  have hdone : step { u with busy := false } = .next (waited rest u) := by
    rw [step_of_hostTurn (s := { u with busy := false }) hkept]
    exact congrArg Host.Outcome.next (hostWait_idle rfl)
  rw [run_succ hwrite, run_succ hwait, run_succ hengine, run_succ hdone]

/-! ### The round trip -/

/-- R293: LOAD_IN while the engine is idle. -/
theorem step_loadIn {bytes : List Byte} {rest : List Turn} (hturns : s.turns = .host (.loadIn bytes) :: rest)
    (hbusy : s.busy = false) : step s = .next (loadIn bytes { s with turns := rest }) := by
  rw [step_of_hostTurn hturns, hostStep, whileIdle, if_neg (by simp [hbusy])]

/-- R294: DRAIN_OUT while the engine is idle. -/
theorem step_drainOut {rest : List Turn} (hturns : s.turns = .host .drainOut :: rest) (hbusy : s.busy = false) :
    step s = .next (drainOut { s with turns := rest }) := by
  rw [step_of_hostTurn hturns, hostStep, whileIdle, if_neg (by simp [hbusy])]

/-- R119, R293: a command issued on bytes loaded into IN. -/
theorem run_loadIn_issue (k : Nat) {bytes : List Byte} {c : Instr} {rest : List Turn} {u : State} (hbusy : s.busy = false)
    (herr : s.errCode = 0#4) (hexec : exec c (issued c rest (loadIn bytes s)) = .next u) :
    core.run (k + 5) { s with turns := .host (.loadIn bytes) :: (issue c ++ rest) } = core.run k (waited rest u) := by
  have hload : step { s with turns := .host (.loadIn bytes) :: (issue c ++ rest) } =
      .next (loadIn bytes { s with turns := issue c ++ rest }) := step_loadIn rfl hbusy
  exact (run_succ hload).trans (run_issue k rfl hbusy herr hexec)

/-- R240: LOAD_IN, COMPRESS and DRAIN_OUT give the stream of the bytes, in whole bytes. -/
theorem run_compress {bytes : List Byte} (h : ∀ b : Byte, bytes.count b < 2 ^ 32) (herr : s.errCode = 0#4)
    (hbusy : s.busy = false) (hout : s.out = []) : ∃ (v u : State) (t : Tree),
    core.run 6 { s with turns := [.host (.loadIn bytes)] ++ issue (.compress .tree) ++ [.host .drainOut] } = .next v ∧
    TreeFits u t ∧ (∀ b ∈ bytes, (t.codeFor (byteSym b)).isSome = true) ∧ (t.codeFor eosSym).isSome = true ∧
    v.seen.getLast? = some (.drained (padded (streamOf Config.magicTree t bytes))) ∧
    v.turns = [] ∧ v.errCode = 0#4 ∧ v.busy = false ∧ v.out = [] := by
  obtain ⟨u, t, hexec, hfits, hmapped, heos, hu, huerr⟩ :=
    exec_compress_stream (s := issued (.compress .tree) [.host .drainOut] (loadIn bytes s)) h hout
  refine ⟨drainOut { waited [.host .drainOut] u with turns := [] }, _, t, ?_, hfits, hmapped, heos, ?_, rfl,
    huerr.trans herr, rfl, rfl⟩
  · exact (run_loadIn_issue 1 hbusy herr hexec).trans (run_succ (step_drainOut rfl rfl))
  · rw [drainOut_seen, List.getLast?_concat]
    exact congrArg (fun bits => some (Seen.drained bits)) hu

/-- R240: LOAD_IN of a stream's bytes and DECOMPRESS give the bytes that were compressed. -/
theorem run_decompress {u : State} (hfits : TreeFits u t) {bytes : List Byte}
    (hmapped : ∀ b ∈ bytes, (t.codeFor (byteSym b)).isSome = true) (heos : (t.codeFor eosSym).isSome = true)
    (herr : s.errCode = 0#4) (hbusy : s.busy = false) (hout : s.out = []) : ∃ v : State,
    core.run 5 { s with turns :=
      [.host (.loadIn (outBytes (padded (streamOf Config.magicTree t bytes))))] ++ issue .decompress } = .next v ∧
    v.turns = [] ∧ v.busy = false ∧ v.errCode = 0#4 ∧ v.eos = true ∧ v.out = bytes.flatMap fun b => msbBits 8 b := by
  obtain ⟨v, hexec, hverr, hveos, hvout⟩ := exec_decompress_stream
    (s := issued .decompress [] (loadIn (outBytes (padded (streamOf Config.magicTree t bytes))) s)) hfits hmapped heos rfl hout
  exact ⟨waited [] v, run_loadIn_issue 0 hbusy herr hexec, rfl, rfl, hverr.trans herr, hveos, hvout⟩

/-- Settles O59: COMPRESS's stream, in bytes, is what DECOMPRESS decodes. -/
theorem roundTripIsIdentity : Obligations.RoundTripIsIdentity := by
  intro bytes s h herr hbusy hout
  obtain ⟨v, u, t, hrun, hfits, hmapped, heos, hseen, hturns, hverr, hvbusy, hvout⟩ := run_compress h herr hbusy hout
  obtain ⟨w, hrun', hw⟩ := run_decompress (s := v) hfits hmapped heos hverr hvbusy hvout
  exact ⟨v, w, _, hrun, hturns, hseen, padded_length_mod _, hrun', hw⟩

end Sys2Proof
end

section
/-! SUPPORT. Every command completes while the node memory holds a tree whenever `TREE_VALID = 1` (60_exceptions.md,
70_reset_and_hazards.md rule R361): its run goes on or raises an error, and none stops the machine. -/

namespace Sys2Proof
open Machine

variable {s t : State} {P : State → Prop}

/-! ### Runs that do not stop the machine -/

/-- A run completes: it raises an error, or goes on in a state with the property. -/
def Machine.Run.Completes {α : Type} (P : State → Prop) : Run α → Prop
  | .ok _ s => P s
  | .raised _ _ => True
  | .stuck _ => False

variable {α β : Type}

theorem completes_bind {x : Run α} {k : α → State → Run β} {Q : State → Prop} (hx : x.Completes P)
    (hk : ∀ a s, P s → (k a s).Completes Q) : (x.bind k).Completes Q := by
  cases x with
  | ok a s => exact hk a s hx
  | raised e s => trivial
  | stuck f => exact hx.elim

theorem Machine.Run.Completes.any {x : Run α} (hx : x.Completes P) : x.Completes fun _ => True := by
  cases x with
  | ok a s => trivial
  | raised e s => trivial
  | stuck f => exact hx.elim

theorem completes_needTree {k : State → Run Unit} (hk : s.treeValid = true → (k s).Completes P) :
    (needTree s k).Completes P := by
  cases hv : s.treeValid with
  | false => rw [needTree_invalid hv]; trivial
  | true => rw [needTree_valid hv]; exact hk hv

theorem completes_needCodes {k : State → Run Unit} (hk : (k s).Completes P) : (needCodes s k).Completes P := by
  cases hv : s.codesValid with
  | false => rw [needCodes_invalid hv]; trivial
  | true => rw [needCodes_valid hv]; exact hk

/-- A run that completes gives a next state, its error latched if it raised one (R312). -/
theorem finish_of_completes {r : Run Unit} (opc : Byte) (h : r.Completes P) : ∃ t, finish opc r = .next t := by
  cases r with
  | ok a s => exact ⟨s, rfl⟩
  | raised e s => exact ⟨_, rfl⟩
  | stuck f => exact h.elim

/-! ### Counting and encoding -/

theorem countByte_completes (b : Byte) (s : State) : (countByte b s).Completes fun _ => True := by
  unfold countByte
  split <;> trivial

theorem countLoop_completes : ∀ (n : Nat) (s : State), (countLoop n s).Completes fun _ => True
  | 0, _ => trivial
  | n + 1, s => by
    unfold countLoop
    split
    · trivial
    · exact completes_bind (countByte_completes _ _) fun _ s _ => countLoop_completes n s

theorem encodeSym_completes (sym : Sym) (s : State) : (encodeSym sym s).Completes fun _ => True := by
  unfold encodeSym
  split <;> trivial

theorem encodeLoop_completes : ∀ (n : Nat) (s : State), (encodeLoop n s).Completes fun _ => True
  | 0, _ => trivial
  | n + 1, s => by
    unfold encodeLoop
    split
    · trivial
    · exact completes_bind (encodeSym_completes _ _) fun _ s _ => encodeLoop_completes n s

theorem encodeStream_completes (s : State) : (encodeStream s).Completes fun _ => True :=
  completes_needCodes (completes_bind (encodeLoop_completes _ s) fun _ s _ => encodeSym_completes eosSym s)

/-- R175, R176: the inspection of the code table. -/
theorem readCode_completes (f : State → Word) (s : State) :
    (needCodes s fun s => .ok () { s with result := f s }).Completes fun _ => True := by
  refine completes_needCodes ?_
  trivial

/-- R171: with a tree in the node memory the walk of GEN_CODES ends. -/
theorem genCodes_completes (h : TreeOk s) : (genCodes s).Completes TreeOk := by
  cases hv : s.treeValid with
  | false => rw [genCodes, needTree_invalid hv]; trivial
  | true =>
    obtain ⟨tree, hfits⟩ := h hv
    obtain ⟨codes, -, hrun⟩ := genCodes_of_treeFits hv hfits
    rw [hrun]
    exact treeOk_congr h rfl

/-- R180: with a tree in the node memory the walk of EMIT_HEADER ends. -/
theorem writeHeader_completes (magic : Word) (h : TreeOk s) : (writeHeader magic s).Completes TreeOk := by
  cases hv : s.treeValid with
  | false => rw [writeHeader, needTree_invalid hv]; trivial
  | true =>
    obtain ⟨tree, hfits⟩ := h hv
    rw [writeHeader_eq magic hv hfits]
    exact treeOk_congr h rfl

theorem treeOk_buildTree (s : State) : TreeOk (buildTree s) := fun _ =>
  have ⟨tree, hfits, _⟩ := buildTree_fits s
  ⟨tree, hfits⟩

theorem emitHeader_completes (m : HeaderMode) (h : TreeOk s) : (emitHeader m s).Completes fun _ => True := by
  cases m with
  | counts => trivial
  | tree => exact (writeHeader_completes _ h).any

/-- R190: COMPRESS builds the tree that its later steps walk. -/
theorem compress_completes (m : HeaderMode) (s : State) : (compress m s).Completes fun _ => True := by
  cases m with
  | counts => trivial
  | tree =>
    refine completes_bind (countLoop_completes _ _) fun _ s _ => ?_
    refine completes_bind (genCodes_completes (treeOk_buildTree s)) fun _ s h => ?_
    refine completes_bind (writeHeader_completes _ h) fun _ s _ => ?_
    exact completes_bind (encodeStream_completes _) fun _ _ _ => trivial

/-! ### Decoding -/

/-- R221: READ_HEADER loads a tree or raises an error. -/
theorem readHeader_completes (h : TreeOk s) : (readHeader s).Completes TreeOk := by
  have hall : Run.All (Effects .readHeader s) (readHeader s) := effects_commandRun .readHeader s
  obtain ⟨u, hrun, -⟩ | ⟨e, u, hrun, -⟩ := readHeader_ends s
  · rw [hrun] at hall ⊢
    exact treeOk_invariant.effects h hall
  · rw [hrun]
    trivial

/-- R230: with a tree in the node memory the walk of DECODE_SYM ends at a leaf or with IN exhausted. -/
theorem decodeSymbol_completes (h : TreeOk s) : (decodeSymbol s).Completes fun _ => True := by
  refine completes_needTree fun hv => completes_bind (P := fun _ => True) ?_ fun _ _ _ => trivial
  obtain ⟨tree, hfits⟩ := h hv
  cases hone : tree.decodeOne (tailBits s) with
  | none => rw [decodeOne_none hfits.rooted hone]; trivial
  | some x => rw [decodeOne_some hfits.rooted hone]; trivial

theorem streamDecoded_completes (s : State) (x : List Sym × Nat × Bool) : (streamDecoded s x).Completes fun _ => True := by
  obtain ⟨syms, n, found⟩ := x
  cases found <;> trivial

/-- R235, R236: the same of DECODE_STREAM. -/
theorem decodeStream_completes (h : TreeOk s) : (decodeStream s).Completes fun _ => True := by
  refine completes_needTree fun hv => ?_
  obtain ⟨tree, hfits⟩ := h hv
  rw [decodeLoop_eq _ hfits.rooted]
  exact streamDecoded_completes s _

theorem decompress_completes (h : TreeOk s) : (decompress s).Completes fun _ => True :=
  completes_bind (readHeader_completes (s := rewind s) (treeOk_congr h rfl)) fun _ _ h => decodeStream_completes h

/-! ### Every command -/

theorem commandRun_completes (i : Instr) (h : TreeOk s) : (commandRun i s).Completes fun _ => True := by
  cases i with
  | nop => trivial
  | errClear => trivial
  | softReset => trivial
  | srcRewind => trivial
  | outFlush => trivial
  | histClear => trivial
  | histCount b => exact countByte_completes b s
  | histCountStream => exact countLoop_completes _ s
  | histRead b => trivial
  | buildTree => trivial
  | nodeRead n => trivial
  | genCodes => exact (genCodes_completes h).any
  | codeLen c => exact readCode_completes _ s
  | codeBits c w => exact readCode_completes _ s
  | emitHeader m => exact emitHeader_completes m h
  | encodeByte b => exact completes_needCodes (encodeSym_completes _ s)
  | encodeEos => exact completes_needCodes (encodeSym_completes _ s)
  | encodeStream => exact encodeStream_completes s
  | compress m => exact compress_completes m s
  | readHeader => exact (readHeader_completes h).any
  | decodeSym => exact decodeSymbol_completes h
  | decodeStream => exact decodeStream_completes h
  | decompress => exact decompress_completes h

/-- R361: every command completes. -/
theorem exec_completes (i : Instr) (h : TreeOk s) : ∃ t, exec i s = .next t := by
  rw [exec_eq_finish]
  exact finish_of_completes _ (commandRun_completes i h)

/-- R109: so does the execution of every word. -/
theorem execute_completes (w : Word) (h : TreeOk s) : ∃ t, execute w s = .next t := by
  cases hd : decode w with
  | command i =>
    simp only [execute, hd]
    split
    · exact exec_completes i h
    · exact ⟨s, rfl⟩
  | illegal why =>
    by_cases he : s.errCode = 0#4
    · exact ⟨_, (execute_illegal s ⟨why, hd⟩).1 he⟩
    · exact ⟨_, (execute_illegal s ⟨why, hd⟩).2 he⟩

/-- R32: the engine's step completes the latched command, and the block is idle after it. -/
theorem engineStep_completes (h : TreeOk s) (hb : s.busy = true) :
    ∃ u, execute s.pending s = .next u ∧ engineStep s = .next { u with busy := false } := by
  obtain ⟨u, hu⟩ := execute_completes s.pending h
  exact ⟨u, hu, by rw [engineStep_busy hb, hu]; rfl⟩

/-- Executing a word takes no turn (R83). -/
theorem execute_turns {w : Word} (h : execute w s = .next t) : t.turns = s.turns := by
  obtain ⟨i, hexec⟩ | rfl | rfl := execute_next h
  · have hhost := (exec_frame hexec).host
    simp only [hostState, Prod.mk.injEq] at hhost
    obtain ⟨-, -, -, hturns, -⟩ := hhost
    exact hturns
  · rfl
  · rfl

end Sys2Proof
end

section
/-! PROOFS. The register port and the stream actions of the host, and the overrun (44_control.md rules R291 to R295). -/

namespace Sys2Proof
open Machine

variable {s t : State}

/-! ### Host actions -/

/-- A host write to `CMD` (R291, R292). -/
theorem step_writeCmd {v : Word} {rest : List Turn} (h : s.turns = .host (.write 0#4 v) :: rest) :
    step s = .next (writeCmd v { s with turns := rest }) := by
  rw [step_of_hostTurn h, hostStep, writeRegister, if_pos rfl]

/-- R292: a host write to `CMD` while busy is dropped, and sets `OVR`. -/
theorem step_writeCmd_busy {v : Word} {rest : List Turn} (h : s.turns = .host (.write 0#4 v) :: rest) (hb : s.busy = true) :
    step s = .next { s with turns := rest, ovr := true } := by
  rw [step_writeCmd h, writeCmd_busy (s := { s with turns := rest }) v hb]

/-- Settles O17: the write latches the word, or is the overrun of R292. -/
theorem writeCmdLatches : Obligations.WriteCmdLatches := by
  refine fun s v rest h => ⟨fun hb => ?_, step_writeCmd_busy h⟩
  rw [step_writeCmd h, writeCmd_idle (s := { s with turns := rest }) v hb]

/-- R39: registers 7 to 15 are reserved, and read 0. -/
theorem readRegister_reserved (s : State) {r : BitVec 4} (h : 7 ≤ r.toNat) : readRegister r s = 0#32 := by
  unfold readRegister
  split
  case h_8 => rfl
  all_goals omega

/-- A host read of a register (R295). -/
theorem step_read {r : BitVec 4} {rest : List Turn} (h : s.turns = .host (.read r) :: rest) :
    step s = .next { s with turns := rest, seen := s.seen ++ [.register r (readRegister r s)] } := by
  rw [step_of_hostTurn h]
  rfl

/-- Settles O19: a read, a write to a register that is not `CMD`, and the reserved registers. -/
theorem registerPortActions : Obligations.RegisterPortActions := by
  refine ⟨fun s r rest => step_read, fun s r v rest h hr => ?_, fun s r => readRegister_reserved s⟩
  rw [step_of_hostTurn h, hostStep, writeRegister, if_neg hr]

/-- R88: a stream action while busy is no transition. -/
theorem whileIdle_busy (h : s.busy = true) : whileIdle s t = .fault .hostActionNotEnabled := by
  rw [whileIdle, if_pos h]

/-- Settles O21: LOAD_IN while idle, and while busy. -/
theorem loadInWhileIdle : Obligations.LoadInWhileIdle := by
  refine fun s bytes rest h => ⟨step_loadIn h, fun hb t => ?_⟩
  rw [step_of_hostTurn h, hostStep, whileIdle_busy (s := { s with turns := rest }) hb]
  exact nofun

/-- Settles O22: DRAIN_OUT while idle, and while busy. -/
theorem drainOutWhileIdle : Obligations.DrainOutWhileIdle := by
  refine fun s rest h => ⟨step_drainOut h, fun hb t => ?_⟩
  rw [step_of_hostTurn h, hostStep, whileIdle_busy (s := { s with turns := rest }) hb]
  exact nofun

/-! ### The overrun flag -/

/-- R109: a word that decodes to a command executes it, or has no effect. -/
theorem execute_command_next {w : Word} {i : Instr} (hd : decode w = .command i) (h : execute w s = .next t) :
    exec i s = .next t ∨ t = s := by
  simp only [execute, hd] at h
  split at h
  · exact .inl h
  · exact .inr (Host.Outcome.next.inj h).symm

/-- R46, R292: executing a word keeps `OVR`, unless it is ERR_CLEAR or SOFT_RESET. -/
theorem execute_ovr {w : Word} (h : execute w s = .next t) :
    t.ovr = s.ovr ∨ decode w = .command .errClear ∨ decode w = .command .softReset := by
  cases hd : decode w with
  | command i =>
    obtain hexec | rfl := execute_command_next hd h
    · obtain hruns | hkept := (exec_frame hexec).ovr
      · obtain rfl | rfl := runsWhileLatched_iff.mp hruns
        · exact .inr (.inl rfl)
        · exact .inr (.inr rfl)
      · exact .inl hkept
    · exact .inl rfl
  | illegal why =>
    obtain ⟨hraise, hblocked⟩ := execute_illegal s ⟨why, hd⟩
    by_cases he : s.errCode = 0#4
    · obtain rfl := Host.Outcome.next.inj ((hraise he).symm.trans h)
      exact .inl rfl
    · obtain rfl := Host.Outcome.next.inj ((hblocked he).symm.trans h)
      exact .inl rfl

/-- R292: the engine's step keeps `OVR`, unless it executes ERR_CLEAR or SOFT_RESET. -/
theorem engineStep_ovr (h : engineStep s = .next t) : t.ovr = s.ovr ∨
    (s.busy = true ∧ (decode s.pending = .command .errClear ∨ decode s.pending = .command .softReset)) := by
  obtain ⟨hb, u, hexec, rfl⟩ | ⟨-, rfl⟩ := engineStep_next h
  · exact (execute_ovr hexec).imp_right fun hclears => ⟨hb, hclears⟩
  · exact .inl rfl

theorem writeCmd_ovr (v : Word) (h : s.ovr = true) : (writeCmd v s).ovr = true := by
  cases hb : s.busy with
  | false => rw [writeCmd_idle v hb]; exact h
  | true => rw [writeCmd_busy v hb]

/-- R292: no host action but HW_RESET clears `OVR`. -/
theorem hostStep_ovr {a : HostAction} (h : hostStep a s = .next t) (ho : s.ovr = true) : t.ovr = true ∨ a = .hwReset := by
  cases a with
  | write r v =>
    obtain rfl := Host.Outcome.next.inj h
    rw [writeRegister]
    split
    · exact .inl (writeCmd_ovr v ho)
    · exact .inl ho
  | read r =>
    obtain rfl := Host.Outcome.next.inj h
    exact .inl ho
  | loadIn bytes =>
    obtain ⟨-, rfl⟩ := whileIdle_next h
    exact .inl ho
  | drainOut =>
    obtain ⟨-, rfl⟩ := whileIdle_next h
    exact .inl ho
  | hwReset => exact .inr rfl
  | wait =>
    obtain rfl := Host.Outcome.next.inj h
    rw [hostWait]
    split <;> exact .inl ho
  | check =>
    obtain rfl := Host.Outcome.next.inj h
    rw [hostCheck]
    split <;> exact .inl ho

/-- R292: a step keeps `OVR = 1`, unless it is HW_RESET or the engine's on ERR_CLEAR or SOFT_RESET. -/
theorem step_ovr (h : step s = .next t) (ho : s.ovr = true) :
    t.ovr = true ∨ (∃ rest, s.turns = .host .hwReset :: rest) ∨
    (s.busy = true ∧ (s.turns = [] ∨ ∃ rest, s.turns = .engine :: rest) ∧
      (decode s.pending = .command .errClear ∨ decode s.pending = .command .softReset)) := by
  cases hturns : s.turns with
  | nil =>
    rw [step_of_noTurns hturns] at h
    obtain hkept | ⟨hb, hclears⟩ := engineStep_ovr h
    · exact .inl (hkept.trans ho)
    · exact .inr (.inr ⟨hb, .inl rfl, hclears⟩)
  | cons turn rest =>
    cases turn with
    | engine =>
      rw [step_of_engineTurn hturns] at h
      obtain hkept | ⟨hb, hclears⟩ := engineStep_ovr h
      · exact .inl (hkept.trans ho)
      · exact .inr (.inr ⟨hb, .inr ⟨rest, rfl⟩, hclears⟩)
    | host a =>
      rw [step_of_hostTurn hturns] at h
      obtain hkept | rfl := hostStep_ovr (s := { s with turns := rest }) h ho
      · exact .inl hkept
      · exact .inr (.inl ⟨rest, rfl⟩)

/-- Settles O18: the overrun, how long `OVR` stays 1, and the engine's step, which does not depend on `OVR`. -/
theorem overrunIsDropped : Obligations.OverrunIsDropped := by
  refine ⟨fun s v rest => step_writeCmd_busy, fun s t => step_ovr, fun s t i _ herr hb hd hturns hexec => ?_⟩
  rw [step_of_noTurns hturns, engineStep_busy hb, execute_command hd (.inl herr), hexec, clearBusy]

end Sys2Proof
end

section
/-! PROOFS. The control commands (44_control.md rules R270 to R274). -/

namespace Sys2Proof
open Machine

/-- R270, R313: NOP has no effect, executed or blocked by a latched error. -/
theorem execute_nop (s : State) : execute 0x00000000#32 s = .next s := by
  by_cases herr : s.errCode = 0#4
  · rw [execute_command decode_nop (.inl herr)]
    rfl
  · simp [execute, decode_nop, herr, runsWhileLatched]

/-- Settles O24: NOP's execution is no change, so the engine's step is `BUSY <- 0`. -/
theorem nopChangesNothing : Obligations.NopChangesNothing := by
  refine ⟨rfl, fun s => rfl, fun s hb hw => ?_⟩
  have hexec : execute s.pending s = .next s := hw ▸ execute_nop s
  rw [engineStep_busy hb, hexec, clearBusy]

/-- R35: `STATUS.ERR` reads 0 when no error is latched. -/
theorem statusWord_err_of_noError {s : State} (h : s.errCode = 0#4) : (statusWord s).getLsbD 1 = false :=
  (readStatus_err s).trans (bne_eq_false_iff_eq.mpr h)

/-- Settles O25: a latched error does not block ERR_CLEAR. -/
theorem errClearClears : Obligations.ErrClearClears :=
  ⟨rfl, fun _ => ⟨rfl, execute_command decode_errClear (.inr (.inl rfl)), statusWord_err_of_noError rfl⟩⟩

/-- R340: the fields of `STATUS` are 0 at the reset values, in an idle block. -/
theorem statusWord_setResetValues (s : State) : statusWord { setResetValues s with busy := false } = 0#32 := by
  simp [statusWord, errFlag]

/-- R340: so are those of `TREE_INFO`. -/
theorem treeInfoWord_setResetValues (s : State) : treeInfoWord (setResetValues s) = 0#32 := by
  simp [treeInfoWord]

/-- Settles O26: a latched error does not block SOFT_RESET. -/
theorem softResetSetsResetValues : Obligations.SoftResetSetsResetValues :=
  ⟨rfl, fun s => ⟨setResetValues s, rfl, rfl, execute_command decode_softReset (.inr (.inr rfl)),
    statusWord_setResetValues s, treeInfoWord_setResetValues s⟩⟩

/-- Settles O27: SRC_REWIND is `Rewind()`. -/
theorem srcRewindRewinds : Obligations.SrcRewindRewinds := ⟨rfl, fun _ => rfl⟩

/-- Settles O28: the bits that OUT_FLUSH appends are the padding of R77. -/
theorem outFlushPads : Obligations.OutFlushPads := by
  refine ⟨rfl, fun s => ⟨(padding s.out.length).length, ?_, padding_aligns _, ?_⟩⟩
  · rw [padding_length]
    exact Nat.mod_lt _ (by decide)
  · rw [padding_length]
    rfl

end Sys2Proof
end

section
/-! PROOFS. The end of a run (44_control.md rule R298). -/

namespace Sys2Proof
open Machine

variable {s t : State}

/-- R298: the host is done when none of its actions is left. -/
theorem hostDone_iff : hostDone s = true ↔ ∀ a, Turn.host a ∉ s.turns := by
  rw [hostDone, List.all_eq_true]
  constructor
  · exact fun h a hmem => nomatch h _ hmem
  · intro h turn hmem
    cases turn with
    | engine => rfl
    | host a => exact absurd hmem (h a)

theorem hostDone_replicate_engine {n : Nat} (h : s.turns = List.replicate n .engine) : hostDone s = true :=
  hostDone_iff.mpr fun a hmem => nomatch (List.eq_of_mem_replicate (h ▸ hmem) : Turn.host a = .engine)

/-- At an end the host is done and the block is idle. -/
theorem done_and_idle_of_runEnd (h : runEnd s ≠ none) : hostDone s = true ∧ s.busy = false := by
  rw [runEnd_eq] at h
  split at h
  · exact absurd rfl h
  · next hend => simpa using hend

/-- An end is one of the two. -/
theorem runFailed_or_runSucceeded (hdone : hostDone s = true) (hidle : s.busy = false) :
    runFailed s = true ∨ runSucceeded s = true := by
  by_cases herr : s.errCode = 0#4
  · exact .inr ((runSucceeded_iff s).mpr ⟨hdone, hidle, herr⟩)
  · exact .inl ((runFailed_iff s).mpr ⟨hdone, hidle, herr⟩)

/-- Neither end without an end. -/
theorem not_ended (h : (∃ a, .host a ∈ s.turns) ∨ s.busy = true) : runFailed s = false ∧ runSucceeded s = false := by
  have hnot : ¬ (hostDone s = true ∧ s.busy = false) := by
    rintro ⟨hdone, hidle⟩
    obtain ⟨a, hmem⟩ | hb := h
    · exact hostDone_iff.mp hdone a hmem
    · simp [hb] at hidle
  constructor
  · exact Bool.eq_false_iff.mpr fun hf =>
      have ⟨hdone, hidle, _⟩ := (runFailed_iff s).mp hf
      hnot ⟨hdone, hidle⟩
  · exact Bool.eq_false_iff.mpr fun hf =>
      have ⟨hdone, hidle, _⟩ := (runSucceeded_iff s).mp hf
      hnot ⟨hdone, hidle⟩

/-- R325: in an idle block with no host action left, a step takes the next turn and changes nothing else. -/
theorem step_of_ended (hdone : hostDone s = true) (hidle : s.busy = false) :
    step s = .next { s with turns := s.turns.tail } := by
  cases hturns : s.turns with
  | nil =>
    rw [step_of_noTurns hturns, engineStep_idle hidle, List.tail_nil, ← hturns]
  | cons turn rest =>
    cases turn with
    | engine => rw [step_of_engineTurn hturns, engineStep_idle (s := { s with turns := rest }) hidle, List.tail_cons]
    | host a => exact absurd (hturns ▸ List.mem_cons_self) (hostDone_iff.mp hdone a)

/-- An end stays the same end when a turn is used up. -/
theorem runEnd_tail (hdone : hostDone s = true) : runEnd { s with turns := s.turns.tail } = runEnd s := by
  have hdone' : hostDone { s with turns := s.turns.tail } = true :=
    hostDone_iff.mpr fun a hmem => hostDone_iff.mp hdone a (List.mem_of_mem_tail hmem)
  rw [runEnd_eq, runEnd_eq, hdone, hdone']
  rfl

/-- R361: a command that the last action left pending leads to an end in one step. -/
theorem step_pending_ends (htree : TreeOk s) (hturns : s.turns = []) (hb : s.busy = true) :
    ∃ t, step s = .next t ∧ (runFailed t = true ∨ runSucceeded t = true) := by
  obtain ⟨u, hexec, hstep⟩ := engineStep_completes htree hb
  have hkept : u.turns = [] := (execute_turns hexec).trans hturns
  have hdone : hostDone { u with busy := false } = true := hostDone_replicate_engine (n := 0) hkept
  exact ⟨_, (step_of_noTurns hturns).trans hstep, runFailed_or_runSucceeded hdone rfl⟩

/-- Settles O60: the last read shows the end, there is no other, it stays, and a pending command leads to it. -/
theorem endOfRun : Obligations.EndOfRun := by
  refine ⟨fun s n hturns hidle => ⟨_, step_read hturns, rfl, ?_, ?_⟩, fun s => not_ended, fun s hend => ?_,
    fun s hinv => step_pending_ends hinv.tree⟩
  · rw [runFailed_iff]
    exact ⟨fun ⟨_, _, herr⟩ => herr, fun herr => ⟨hostDone_replicate_engine rfl, hidle, herr⟩⟩
  · rw [runSucceeded_iff]
    exact ⟨fun ⟨_, _, herr⟩ => herr, fun herr => ⟨hostDone_replicate_engine rfl, hidle, herr⟩⟩
  · obtain ⟨hdone, hidle⟩ := done_and_idle_of_runEnd hend
    exact ⟨_, step_of_ended hdone hidle, rfl, runEnd_tail hdone⟩

end Sys2Proof
end

section
/-! PROOFS. A latched error blocks every command but ERR_CLEAR and SOFT_RESET (60_exceptions.md rule R313). -/

namespace Sys2Proof
open Machine

variable {s t : State}

/-! ### Executing a word while an error is latched -/

/-- R109, R313: a latched error blocks every word, legal or illegal, but ERR_CLEAR and SOFT_RESET. -/
theorem execute_blocked {w : Word} (herr : s.errCode ≠ 0#4) (hclear : decode w ≠ .command .errClear)
    (hreset : decode w ≠ .command .softReset) : execute w s = .next s := by
  cases hd : decode w with
  | command i =>
    have hruns : ¬ runsWhileLatched i = true := fun hr => by
      obtain rfl | rfl := runsWhileLatched_iff.mp hr
      · exact hclear hd
      · exact hreset hd
    simp [execute, hd, herr, hruns]
  | illegal why => exact (execute_illegal s ⟨why, hd⟩).2 herr

/-- R271: ERR_CLEAR executes whether or not an error is latched. -/
theorem execute_errClear {w : Word} (hd : decode w = .command .errClear) (s : State) :
    execute w s = .next (clearError s) :=
  execute_command hd (.inr (.inl rfl))

/-- R340: so does SOFT_RESET. -/
theorem execute_softReset {w : Word} (hd : decode w = .command .softReset) (s : State) :
    execute w s = .next (setResetValues s) :=
  execute_command hd (.inr (.inr rfl))

/-! ### No step raises an error over a latched one -/

/-- The error registers are kept, or both are cleared (R312, R313). -/
def KeepsOrClearsError (s t : State) : Prop :=
  (t.errCode = s.errCode ∧ t.errOpc = s.errOpc) ∨ (t.errCode = 0#4 ∧ t.errOpc = 0#8)

theorem execute_keepsOrClearsError {w : Word} (herr : s.errCode ≠ 0#4) (h : execute w s = .next t) :
    KeepsOrClearsError s t := by
  by_cases hclear : decode w = .command .errClear
  · rw [execute_errClear hclear] at h
    obtain rfl := Host.Outcome.next.inj h
    exact .inr ⟨rfl, rfl⟩
  by_cases hreset : decode w = .command .softReset
  · rw [execute_softReset hreset] at h
    obtain rfl := Host.Outcome.next.inj h
    exact .inr ⟨rfl, rfl⟩
  · rw [execute_blocked herr hclear hreset] at h
    obtain rfl := Host.Outcome.next.inj h
    exact .inl ⟨rfl, rfl⟩

theorem engineStep_keepsOrClearsError (herr : s.errCode ≠ 0#4) (h : engineStep s = .next t) : KeepsOrClearsError s t := by
  obtain ⟨-, u, hexec, rfl⟩ | ⟨-, rfl⟩ := engineStep_next h
  · have hu : KeepsOrClearsError s u := execute_keepsOrClearsError herr hexec
    exact hu
  · exact .inl ⟨rfl, rfl⟩

/-- R290: no host action raises an error, and only HW_RESET clears one (R341). -/
theorem hostStep_keepsOrClearsError {a : HostAction} (h : hostStep a s = .next t) : KeepsOrClearsError s t := by
  cases a with
  | write r v =>
    obtain rfl := Host.Outcome.next.inj h
    rw [writeRegister, writeCmd]
    split
    · split <;> exact .inl ⟨rfl, rfl⟩
    · exact .inl ⟨rfl, rfl⟩
  | read r =>
    obtain rfl := Host.Outcome.next.inj h
    exact .inl ⟨rfl, rfl⟩
  | loadIn bytes =>
    obtain ⟨-, rfl⟩ := whileIdle_next h
    exact .inl ⟨rfl, rfl⟩
  | drainOut =>
    obtain ⟨-, rfl⟩ := whileIdle_next h
    exact .inl ⟨rfl, rfl⟩
  | hwReset =>
    obtain rfl := Host.Outcome.next.inj h
    exact .inr ⟨rfl, rfl⟩
  | wait =>
    obtain rfl := Host.Outcome.next.inj h
    rw [hostWait]
    split <;> exact .inl ⟨rfl, rfl⟩
  | check =>
    obtain rfl := Host.Outcome.next.inj h
    rw [hostCheck]
    split <;> exact .inl ⟨rfl, rfl⟩

/-- R313: whichever agent moves; taking the turn off the list leaves the error registers alone. -/
theorem step_keepsOrClearsError (herr : s.errCode ≠ 0#4) (h : step s = .next t) : KeepsOrClearsError s t := by
  cases hturns : s.turns with
  | nil => exact engineStep_keepsOrClearsError herr (step_of_noTurns hturns ▸ h)
  | cons turn rest =>
    cases turn with
    | engine =>
      exact engineStep_keepsOrClearsError (s := { s with turns := rest }) herr (step_of_engineTurn hturns ▸ h)
    | host a => exact hostStep_keepsOrClearsError (s := { s with turns := rest }) (step_of_hostTurn hturns ▸ h)

/-- Settles O9: the blocked words, the two commands that run, and every step of the machine. -/
theorem latchedErrorBlocksCommands : Obligations.LatchedErrorBlocksCommands := by
  refine ⟨fun s hb herr hclear hreset => ?_, fun s hb _ hd => ?_, fun s hb _ hd => ?_,
    fun s t h herr => step_keepsOrClearsError herr h⟩
  · rw [engineStep_busy hb, execute_blocked herr hclear hreset, clearBusy]
  · rw [engineStep_busy hb, execute_errClear hd, clearBusy, clearError]
  · rw [engineStep_busy hb, execute_softReset hd, clearBusy]

end Sys2Proof
end

section
/-! PROOFS. Hardware reset, and that no command stops the machine (70_reset_and_hazards.md rules R341, R361). -/

namespace Sys2Proof
open Machine

variable {s : State}

/-! ### Hardware reset -/

/-- HW_RESET is enabled at any time (R341). -/
theorem step_hwReset {rest : List Turn} (h : s.turns = .host .hwReset :: rest) :
    step s = .next (hwReset { s with turns := rest }) := by
  rw [step_of_hostTurn h, hostStep]

/-- R341, R52: with IN and OUT empty HW_RESET gives the power-on state, but for what R52 leaves unspecified and the model's
own fields. -/
theorem hwReset_of_emptyStreams (hin : s.input = []) (hout : s.out = []) :
    hwReset s = { State.reset with
      turns := s.turns, pending := Config.freePending s.draws, draws := s.draws + 1, nodes := s.nodes, codes := s.codes,
      seen := s.seen } := by
  simp only [hwReset, setResetValues, State.reset, hin, hout]

/-- Settles O23: the values unsaid are the free value of `PENDING` and the number of the next draw. -/
theorem hardwareReset : Obligations.HardwareReset := by
  refine fun s rest h => ⟨Config.freePending s.draws, s.draws + 1, step_hwReset h, fun hin hout => ?_⟩
  rw [step_hwReset h, hwReset_of_emptyStreams (s := { s with turns := rest }) hin hout]

/-! ### No command stops the machine -/

/-- The engine's turn, on a busy block (R361) and on an idle one (R325). -/
theorem engineStep_next_of_treeOk (h : TreeOk s) : ∃ t, engineStep s = .next t := by
  cases hb : s.busy with
  | false => exact ⟨s, engineStep_idle hb⟩
  | true =>
    obtain ⟨u, -, hstep⟩ := engineStep_completes h hb
    exact ⟨_, hstep⟩

/-- A stream action is a transition, or the block is busy (R88). -/
theorem whileIdle_next_or_notEnabled (s t : State) :
    (∃ u, whileIdle s t = .next u) ∨ (whileIdle s t = .fault .hostActionNotEnabled ∧ s.busy = true) := by
  cases hb : s.busy with
  | false => exact .inl ⟨t, by simp [whileIdle, hb]⟩
  | true => exact .inr ⟨whileIdle_busy hb, rfl⟩

/-- R88, R290: every host action is a transition, but for a stream action on a busy block. -/
theorem hostStep_next_or_notEnabled (a : HostAction) (s : State) :
    (∃ t, hostStep a s = .next t) ∨ (hostStep a s = .fault .hostActionNotEnabled ∧ s.busy = true ∧
      (a = .drainOut ∨ ∃ bytes, a = .loadIn bytes)) := by
  cases a with
  | write r v => exact .inl ⟨_, rfl⟩
  | read r => exact .inl ⟨_, rfl⟩
  | loadIn bytes =>
    exact (whileIdle_next_or_notEnabled s (loadIn bytes s)).imp_right fun ⟨hstop, hb⟩ => ⟨hstop, hb, .inr ⟨bytes, rfl⟩⟩
  | drainOut =>
    exact (whileIdle_next_or_notEnabled s (drainOut s)).imp_right fun ⟨hstop, hb⟩ => ⟨hstop, hb, .inl rfl⟩
  | hwReset => exact .inl ⟨_, rfl⟩
  | wait => exact .inl ⟨_, rfl⟩
  | check => exact .inl ⟨_, rfl⟩

/-- R361, R88: while the node memory holds a tree whenever `TREE_VALID = 1`, a step stops only on a stream action on a busy
block. -/
theorem step_next_or_notEnabled (htree : TreeOk s) : (∃ t, step s = .next t) ∨
    (step s = .fault .hostActionNotEnabled ∧ s.busy = true ∧
      ∃ a rest, s.turns = .host a :: rest ∧ (a = .drainOut ∨ ∃ bytes, a = .loadIn bytes)) := by
  have htree' (rest : List Turn) : TreeOk { s with turns := rest } := treeOk_congr htree rfl
  cases hturns : s.turns with
  | nil =>
    rw [step_of_noTurns hturns]
    exact .inl (engineStep_next_of_treeOk htree)
  | cons turn rest =>
    cases turn with
    | engine =>
      rw [step_of_engineTurn hturns]
      exact .inl (engineStep_next_of_treeOk (htree' rest))
    | host a =>
      rw [step_of_hostTurn hturns]
      exact (hostStep_next_or_notEnabled a { s with turns := rest }).imp_right
        fun ⟨hstop, hb, ha⟩ => ⟨hstop, hb, a, rest, rfl, ha⟩

/-- Settles O15: the tree invariant is what the commands' completion needs. -/
theorem commandsNeverStop : Obligations.CommandsNeverStop :=
  ⟨fun _ i hinv => exec_completes i hinv.tree, fun _ hinv => step_next_or_notEnabled hinv.tree⟩

end Sys2Proof
end
